-- ==== Sys2Proof/Word.lean ====
section
/-! DEFINITION. The word types of RAST (spec 00_scope.md R6): a word has 32 bits, a halfword 16, a byte 8; bit 0 is the
least significant bit. A pixel is held in a 16-bit cell (notes/assumptions/13.md). -/

namespace Sys2Proof

/-- A command word, an operand word or an output word (R6). -/
abbrev Word := BitVec 32

/-- A halfword: a coordinate, size, count or colour field (R6, R84). -/
abbrev Half := BitVec 16

/-- A byte: an opcode, a modifier, a colour channel, a glyph byte or a character code (R6). -/
abbrev Byte := BitVec 8

/-- A native pixel value in its cell. With PIXFMT = PAL8 only the low 8 bits can be set (R5, R24; log entry 13). -/
abbrev Pixel := BitVec 16

end Sys2Proof
end

