-- ==== Sys2Proof/Config.lean ====
section
/-! DEFINITION. The implementation parameters of spec 00_scope.md R5 that are fixed constants or types of the model: the pixel
formats, the legal ranges, and the uninterpreted functions and free values (constants without a body). The parameters that are
plain data (W, H, PIXFMT, HAS_READ, CMD, FONT) are held in `State.cfg`. -/

namespace Sys2Proof

/-- PIXFMT, the native pixel encoding of the surface (R5). -/
inductive PixFmt where
  /-- 16-bit RGB565 (the spec's default). -/
  | rgb565
  /-- 8-bit palette index. -/
  | pal8
deriving DecidableEq, Repr, Inhabited

/-- The canonical colour triple, each channel 0..255 (R82, R113). -/
structure Rgb where
  /-- red -/
  r : Byte
  /-- green -/
  g : Byte
  /-- blue -/
  b : Byte
deriving DecidableEq, Repr, Inhabited

namespace Config

/-- The largest legal W and H (R5). -/
def maxSide : Nat := 32767

/-- CMD_LEN is below this (R5). -/
def cmdLenLimit : Nat := 4294967296

/-- FONT_LEN is at most this (R5). -/
def fontLenLimit : Nat := 4294967296

/-- PAL_FROMRGB (R5, R113): the palette format's conversion from RGB, a total function of which nothing is assumed. A
parameter of the hardware with no body (notes/assumptions/7.md). -/
opaque palFromRgb : Byte → Byte → Byte → Byte

/-- PAL_TORGB (R5, R114): the palette format's conversion to RGB, a total function of which nothing is assumed
(notes/assumptions/7.md). -/
opaque palToRgb : Byte → Rgb

/-- The free value of OUT_COUNT when adding 1 leaves its 32 bits: the spec states no result (R29, R59; DESIGN CHOICE,
notes/assumptions/6.md). It is applied to the number of words OUT then holds. -/
opaque outCountOverflow : Nat → Word

end Config

/-- BPP, the bits per pixel (R5). -/
def PixFmt.bpp : PixFmt → Nat
  | .rgb565 => 16
  | .pal8 => 8

end Sys2Proof
end

