-- ==== Sys2Proof/Machine/State.lean ====
section
/-! DEFINITION. Every piece of state that spec 10_state.md and 20_memory.md give the machine, as plain data; the reasons a step can stop; the
state after reset (10_state.md R31, 70_reset_and_hazards.md R230). -/

namespace Sys2Proof.Machine

/-- A space of units indexed by number: a list of (index, value) pairs in one canonical form, indices strictly rising and no
entry with the value 0 that an unlisted index reads as (notes/assumptions/2.md). `Memory 8` is a list of `Host.Cell`. -/
abbrev Memory (w : Nat) := List (Nat × BitVec w)

/-- STATE (R27): the value 3 of its two bits never occurs (notes/assumptions/16.md). -/
inductive RunState where
  /-- RUN: the engine executes the command at CP as its next step. -/
  | run
  /-- HALT: an END command has completed. -/
  | halt
  /-- FAULT: a fault was raised. -/
  | fault
deriving DecidableEq, Repr, Inhabited

/-- The causes of R202. -/
inductive Cause where
  /-- 0: no fault since reset. -/
  | none
  /-- 1: E_ILLEGAL. -/
  | illegal
  /-- 2: E_FETCH. -/
  | fetch
  /-- 3: E_RANGE. -/
  | range
  /-- 4: E_OPERAND. -/
  | operand
  /-- 5: E_NOFONT. -/
  | noFont
  /-- 6: E_UNSET. -/
  | unset
  /-- 7: E_FONTADDR. -/
  | fontAddr
deriving DecidableEq, Repr, Inhabited

/-- The launch parameters that are plain data, fixed from reset to the next reset (00_scope.md R5). -/
structure Launch where
  /-- W, the surface width in pixels. -/
  width : Nat
  /-- H, the surface height in pixels. -/
  height : Nat
  /-- PIXFMT. -/
  pixfmt : PixFmt
  /-- HAS_READ. -/
  hasRead : Bool
  /-- CMD; CMD_LEN is its length (R52). -/
  cmd : List Word
  /-- The bytes of FONT that are not 0 (R53). -/
  font : Memory 8
  /-- FONT_LEN. -/
  fontLen : Nat
deriving DecidableEq, Repr, Inhabited

/-- The state of the machine: the launch parameters, FB, the registers of R23 and OUT. -/
structure State where
  /-- The launch parameters (00_scope.md R5). -/
  cfg : Launch
  /-- FB, the pixel store: the pixels that are not 0, by pixel index (R50, R51). -/
  fb : Memory 16
  /-- Register 0: FG (R24). -/
  fg : Pixel
  /-- FG_V (R24). -/
  fgV : Bool
  /-- Register 1: BG (R25). -/
  bg : Pixel
  /-- BG_V (R25). -/
  bgV : Bool
  /-- Register 2: FONT_W (R26). -/
  fontW : BitVec 5
  /-- Register 3: FONT_H (R26). -/
  fontH : BitVec 8
  /-- Register 4: FONT_BASE (R26). -/
  fontBase : BitVec 32
  /-- Register 5: FONT_V (R26). -/
  fontV : Bool
  /-- Register 6: CP (R21). -/
  cp : BitVec 32
  /-- Register 7: STATE (R27). -/
  runState : RunState
  /-- Register 8: CAUSE (R28). -/
  cause : Cause
  /-- Register 9: FAULT_X, two's complement (R28). -/
  faultX : BitVec 32
  /-- Register 10: FAULT_Y, two's complement (R28). -/
  faultY : BitVec 32
  /-- Register 11: FAULT_INFO (R28). -/
  faultInfo : BitVec 32
  /-- OUT, the words emitted, first one first (R29). -/
  out : List Word
  /-- Register 12: OUT_COUNT (R29). -/
  outCount : BitVec 32
deriving DecidableEq, Repr, Inhabited

/-- Why no step is taken: the two stuck states of the engine. A fault of the hardware (R200) is NOT one of these: it is a next
state with STATE = FAULT. -/
inductive Fault where
  /-- Raised by `step` when STATE = HALT: "the engine takes no further step" (R27, R81). Safe: the spec gives no step. -/
  | halted
  /-- Raised by `step` when STATE = FAULT: "the engine takes no further step" (R27, R81). Safe: the spec gives no step. -/
  | stopped
deriving DecidableEq, Repr, Inhabited

/-- Why the model gives no answer. -/
inductive Refusal where
  /-- Raised by an arm of `exec` for an instruction without a meaning yet. Safe. -/
  | notModelled (mnemonic : String)
  /-- Raised by `step` when W, H, CMD_LEN or FONT_LEN is outside its range: "refuse: the configuration is outside the model's
  domain" (93_implementation_defined.md U19, 00_scope.md R5; notes/assumptions/8.md). Safe. -/
  | launchOutOfDomain
deriving DecidableEq, Repr, Inhabited

/-- The state when reset is released with launch parameters `lp` and pixel store `fb0` (R31, R230). The values of FG, BG, FONT_W,
FONT_H and FONT_BASE, which the spec leaves unspecified behind their valid bits, are 0: DESIGN CHOICE, notes/assumptions/3.md and 4.md. -/
def State.released (lp : Launch) (fb0 : Memory 16) : State where
  cfg := lp
  fb := fb0
  fg := 0
  fgV := false
  bg := 0
  bgV := false
  fontW := 0
  fontH := 0
  fontBase := 0
  fontV := false
  cp := 0
  runState := .run
  cause := .none
  faultX := 0
  faultY := 0
  faultInfo := 0
  out := []
  outCount := 0

/-- The launch parameters of `State.reset`: the spec's defaults RGB565 and HAS_READ = true; it gives no value for the others.
DESIGN CHOICE, notes/assumptions/1.md: a surface of 16 by 16 pixels, an empty command list, no font bytes. -/
def Launch.initial : Launch where
  width := 16
  height := 16
  pixfmt := .rgb565
  hasRead := true
  cmd := []
  font := []
  fontLen := 0

/-- The machine right after reset (R31, R230), with every pixel of FB0 being 0 (DESIGN CHOICE, notes/assumptions/2.md). -/
def State.reset : State := State.released Launch.initial []

end Sys2Proof.Machine
end

