-- ==== Sys2Proof/Machine/Flags.lean ====
section
/-! DEFINITION. RAST has no condition codes and no status flags (spec 10_state.md R22); the status it has is STATE and CAUSE, whose codes stand
here (R23, R27; 60_exceptions.md R202), and the register numbers that a fault's information uses (R23). -/

namespace Sys2Proof.Machine

/-- The two bits of STATE (R23, R27). -/
def RunState.code : RunState → BitVec 2
  | .run => 0
  | .halt => 1
  | .fault => 2

/-- The four bits of CAUSE (R202). -/
def Cause.code : Cause → BitVec 4
  | .none => 0
  | .illegal => 1
  | .fetch => 2
  | .range => 3
  | .operand => 4
  | .noFont => 5
  | .unset => 6
  | .fontAddr => 7

/-- The register number of FG, the information of E_UNSET for the foreground (R23, R202). -/
def fgNumber : Nat := 0

/-- The register number of BG, the information of E_UNSET for the background (R23, R202). -/
def bgNumber : Nat := 1

end Sys2Proof.Machine
end

