-- ==== Sys2Proof/Machine/Memory.lean ====
section
/-! DEFINITION. Reading and writing one unit of a space in canonical form (spec 20_memory.md R50, R61, R62). -/

namespace Sys2Proof.Machine

/-- The value of the unit at index `a`; an unlisted unit reads as 0. -/
def Memory.read {w : Nat} : Memory w → Nat → BitVec w
  | [], _ => 0#w
  | (b, v) :: t, a => if a = b then v else Memory.read t a

/-- An entry for `v` at index `a` in front of `t`, unless it is the value that an unlisted index reads as. -/
def Memory.put {w : Nat} (a : Nat) (v : BitVec w) (t : Memory w) : Memory w :=
  if v = 0#w then t else (a, v) :: t

/-- Writing one unit: the unit at `a` becomes `v`, every other one is unchanged, and the form stays canonical. -/
def Memory.write {w : Nat} : Memory w → Nat → BitVec w → Memory w
  | [], a, v => Memory.put a v []
  | (b, u) :: t, a, v =>
    if a < b then Memory.put a v ((b, u) :: t)
    else if a = b then Memory.put a v t
    else (b, u) :: Memory.write t a v

/-- Every index is above `lo` and the indices rise strictly; no entry holds 0. -/
def Memory.wfAbove {w : Nat} (lo : Nat) : Memory w → Bool
  | [] => true
  | (b, v) :: t => decide (lo ≤ b) && decide (v ≠ 0#w) && Memory.wfAbove (b + 1) t

/-- The canonical form: equal contents are equal lists. -/
def Memory.wf {w : Nat} (m : Memory w) : Bool := Memory.wfAbove 0 m

/-- A space whose listed units are those of `vs` from index `i` on: how a host's contents are written down. -/
def Memory.ofListFrom {w : Nat} (i : Nat) : List (BitVec w) → Memory w
  | [] => []
  | v :: t => Memory.put i v (Memory.ofListFrom (i + 1) t)

end Sys2Proof.Machine
end

