-- ==== Sys2Proof/Syntax.lean ====
section
/-! DEFINITION. The commands of RAST, one constructor per row of spec/opcode_table.json (spec 30_encoding.md R88, R93): the
operands of a command are the fields of its packet, pulled out of their words. The modifier of STRING, BLIT and READBACK is in the
constructor's name. -/

namespace Sys2Proof

/-- The two fields of an XY operand word: x in bits 15:0, y in bits 31:16, each signed (R83, R84). -/
structure Point where
  /-- column -/
  x : Half
  /-- row -/
  y : Half
deriving DecidableEq, Repr, Inhabited

/-- A command with its operands. Colour, length, radius and count fields are the 16-bit field `n` of the header; a list
operand's length is that count (R82, R88). -/
inductive Instr where
  /-- END (R110). -/
  | endRun
  /-- SETFG c (R111). -/
  | setfg (c : Half)
  /-- SETBG c (R112). -/
  | setbg (c : Half)
  /-- SETFGRGB r, g, b (R116). -/
  | setfgrgb (r g b : Byte)
  /-- SETBGRGB r, g, b (R117). -/
  | setbgrgb (r g b : Byte)
  /-- SETFONT width, height, base (R118). -/
  | setfont (width height : Half) (base : Word)
  /-- FROMRGB r, g, b (R119). -/
  | fromrgb (r g b : Byte)
  /-- TORGB c (R120). -/
  | torgb (c : Half)
  /-- SETPIXEL x, y, c (R130). -/
  | setpixel (p : Point) (c : Half)
  /-- GETPIXEL x, y (R131). -/
  | getpixel (p : Point)
  /-- FILL c (R132). -/
  | fill (c : Half)
  /-- HLINE x, y, length (R140). -/
  | hline (p : Point) (n : Half)
  /-- VLINE x, y, length (R141). -/
  | vline (p : Point) (n : Half)
  /-- LINE x1, y1, x2, y2 (R142). -/
  | line (p q : Point)
  /-- CIRCLE cx, cy, r (R151). -/
  | circle (c : Point) (r : Half)
  /-- FCIRCLE cx, cy, r (R152). -/
  | fcircle (c : Point) (r : Half)
  /-- ELLIPSE cx, cy, rx, ry (R156). -/
  | ellipse (c : Point) (rx ry : Half)
  /-- FELLIPSE cx, cy, rx, ry (R157). -/
  | fellipse (c : Point) (rx ry : Half)
  /-- POLY (x_1, y_1), ..., (x_n, y_n) (R165). -/
  | poly (vs : List Point)
  /-- FPOLY (x_1, y_1), ..., (x_n, y_n) (R166). -/
  | fpoly (vs : List Point)
  /-- FTRI x1, y1, x2, y2, x3, y3 (R167). -/
  | ftri (p q r : Point)
  /-- GLYPH x, y, [bytes] (R180). -/
  | glyph (p : Point) (d : List Byte)
  /-- STRING.L x, y, text: m = 0, LEFT (R184, R93). -/
  | stringL (p : Point) (d : List Byte)
  /-- STRING.C x, y, text: m = 1, CENTER (R184, R93). -/
  | stringC (p : Point) (d : List Byte)
  /-- STRING.R x, y, text: m = 2, RIGHT (R184, R93). -/
  | stringR (p : Point) (d : List Byte)
  /-- BLIT.DN x, y, w, h, [pixels]: m = 0, ascending rows (R190, R93). -/
  | blitDn (p : Point) (w h : Half) (px : List Half)
  /-- BLIT.UP x, y, w, h, [pixels]: m = 1, descending rows (R190, R93). -/
  | blitUp (p : Point) (w h : Half) (px : List Half)
  /-- READBACK.DN x, y, w, h: m = 0 (R193, R93). -/
  | readbackDn (p : Point) (w h : Half)
  /-- READBACK.UP x, y, w, h: m = 1 (R193, R93). -/
  | readbackUp (p : Point) (w h : Half)
deriving DecidableEq, Repr, Inhabited

end Sys2Proof
end

