-- ==== Sys2Proof/WellFormed.lean ====
section
/-! DEFINITION. The checks a command must meet to have a packet (spec 30_encoding.md R84, R85): a counted list has at most 65535
items, since its count is the 16-bit field `n`, and a BLIT carries exactly w*h pixel values. -/

namespace Sys2Proof

/-- The largest value of the 16-bit count field `n` (R84). -/
def maxCount : Nat := 65535

/-- A count that the field `n` can hold. -/
def countOk {α : Type} (l : List α) : Bool := l.length ≤ maxCount

/-- BLIT's data run has exactly w*h elements (R85, R190). -/
def blitOk (w h : Half) (px : List Half) : Bool := px.length = w.toNat * h.toNat

/-- The command has a packet. -/
def Instr.wf : Instr → Bool
  | .endRun => true
  | .setfg _ => true
  | .setbg _ => true
  | .setfgrgb _ _ _ => true
  | .setbgrgb _ _ _ => true
  | .setfont _ _ _ => true
  | .fromrgb _ _ _ => true
  | .torgb _ => true
  | .setpixel _ _ => true
  | .getpixel _ => true
  | .fill _ => true
  | .hline _ _ => true
  | .vline _ _ => true
  | .line _ _ => true
  | .circle _ _ => true
  | .fcircle _ _ => true
  | .ellipse _ _ _ => true
  | .fellipse _ _ _ => true
  | .poly vs => countOk vs
  | .fpoly vs => countOk vs
  | .ftri _ _ _ => true
  | .glyph _ d => countOk d
  | .stringL _ d => countOk d
  | .stringC _ d => countOk d
  | .stringR _ d => countOk d
  | .blitDn _ w h px => blitOk w h px
  | .blitUp _ w h px => blitOk w h px
  | .readbackDn _ _ _ => true
  | .readbackUp _ _ _ => true

end Sys2Proof
end

