-- ==== Sys2Proof/Decode.lean ====
section
/-! DEFINITION. The decoder and the encoder of RAST packets (spec 30_encoding.md R80 to R93). The decoder is total on every list of
words and refuses by name, in the order of lines 1 to 10 of R81. -/

namespace Sys2Proof

/-! ## Fields of a word (R6, R82, R83) -/

/-- `lo16(w) = w[15:0]` (R6). -/
def lo16 (w : Word) : Half := w.extractLsb' 0 16

/-- `hi16(w) = w[31:16]` (R6). -/
def hi16 (w : Word) : Half := w.extractLsb' 16 16

/-- Byte `i` of a word, byte 0 the least significant (R83, layout B4). -/
def byteOf (w : Word) (i : Nat) : Byte := w.extractLsb' (8 * i) 8

/-- The opcode byte `op = h[31:24]` of a header (R82). -/
def opField (h : Word) : Byte := byteOf h 3

/-- The modifier `m = h[23:16]` of a format H header (R82). -/
def mField (h : Word) : Byte := byteOf h 2

/-- The field `n = h[15:0]` of a format H header (R82). -/
def nField (h : Word) : Half := lo16 h

/-- An XY operand word (R83). -/
def pointOf (k : Word) : Point := ⟨lo16 k, hi16 k⟩

/-- `ceil2(v) = (v + 1) div 2` (R85). -/
def ceil2 (v : Nat) : Nat := (v + 1) / 2

/-- `ceil4(v) = (v + 3) div 4` (R85). -/
def ceil4 (v : Nat) : Nat := (v + 3) / 4

/-- The four bytes of a B4 word, first byte lowest (R83, R86). -/
def bytesOf (k : Word) : List Byte := [byteOf k 0, byteOf k 1, byteOf k 2, byteOf k 3]

/-- The two halfwords of a P2 word, first element lowest (R83, R87). -/
def halvesOf (k : Word) : List Half := [lo16 k, hi16 k]

/-- The words hold at least `n` more: no list is measured, so that a long command list costs nothing. -/
def hasWords {α : Type} : List α → Nat → Bool
  | _, 0 => true
  | [], _ + 1 => false
  | _ :: t, n + 1 => hasWords t n

/-- A B4 run of `cnt` bytes at the start of `ks`; the unused tail bytes are ignored (R86). -/
def byteRun (cnt : Nat) (ks : List Word) : List Byte := ((ks.take (ceil4 cnt)).flatMap bytesOf).take cnt

/-- A P2 run of `cnt` elements at the start of `ks`; the unused upper half of the last word is ignored (R87). -/
def halfRun (cnt : Nat) (ks : List Word) : List Half := ((ks.take (ceil2 cnt)).flatMap halvesOf).take cnt

/-- A run of `cnt` XY words at the start of `ks` (R88, POLY and FPOLY). -/
def pointRun (cnt : Nat) (ks : List Word) : List Point := (ks.take cnt).map pointOf

/-- Operand word `i` of a packet, counted from 0 after the header. The step rule has checked that it exists. -/
def operand (ks : List Word) (i : Nat) : Word := ks.getD i 0

/-! ## The opcode map (R88) -/

/-- The 25 commands of R88. -/
inductive Opcode where
  | endRun | setfg | setbg | setfgrgb | setbgrgb | setfont | fromrgb | torgb | setpixel | getpixel | fill
  | hline | vline | line | circle | fcircle | ellipse | fellipse | poly | fpoly | ftri | glyph | string | blit | readback
deriving DecidableEq, Repr

/-- The opcode number of a command (R88, column op). -/
def opByte : Opcode → Byte
  | .endRun => 0x00
  | .setfg => 0x01
  | .setbg => 0x02
  | .setfgrgb => 0x03
  | .setbgrgb => 0x04
  | .setfont => 0x05
  | .fromrgb => 0x08
  | .torgb => 0x09
  | .setpixel => 0x10
  | .getpixel => 0x11
  | .fill => 0x12
  | .hline => 0x20
  | .vline => 0x21
  | .line => 0x22
  | .circle => 0x30
  | .fcircle => 0x31
  | .ellipse => 0x32
  | .fellipse => 0x33
  | .poly => 0x40
  | .fpoly => 0x41
  | .ftri => 0x42
  | .glyph => 0x50
  | .string => 0x51
  | .blit => 0x60
  | .readback => 0x61

/-- The command of an opcode number; none for every number that R88 does not list (R90). -/
def opcodeOf (b : Byte) : Option Opcode :=
  match b.toNat with
  | 0x00 => some .endRun
  | 0x01 => some .setfg
  | 0x02 => some .setbg
  | 0x03 => some .setfgrgb
  | 0x04 => some .setbgrgb
  | 0x05 => some .setfont
  | 0x08 => some .fromrgb
  | 0x09 => some .torgb
  | 0x10 => some .setpixel
  | 0x11 => some .getpixel
  | 0x12 => some .fill
  | 0x20 => some .hline
  | 0x21 => some .vline
  | 0x22 => some .line
  | 0x30 => some .circle
  | 0x31 => some .fcircle
  | 0x32 => some .ellipse
  | 0x33 => some .fellipse
  | 0x40 => some .poly
  | 0x41 => some .fpoly
  | 0x42 => some .ftri
  | 0x50 => some .glyph
  | 0x51 => some .string
  | 0x60 => some .blit
  | 0x61 => some .readback
  | _ => none

/-- The commands that read the surface: illegal when HAS_READ is false (R81 line 4, R90). -/
def needsRead : Opcode → Bool
  | .getpixel => true
  | .readback => true
  | _ => false

/-- What R89 requires of the modifier: 0, but 0..2 for STRING and 0..1 for BLIT and READBACK; a format C header has no modifier. -/
def modifierOk (op : Opcode) (m : Byte) : Bool :=
  match op with
  | .setfgrgb => true
  | .setbgrgb => true
  | .fromrgb => true
  | .string => m.toNat ≤ 2
  | .blit => m.toNat ≤ 1
  | .readback => m.toNat ≤ 1
  | _ => m = 0

/-- What R89 requires of `n`: 0 for the opcodes whose `n` column in R88 is 0. -/
def countFieldOk (op : Opcode) (n : Half) : Bool :=
  match op with
  | .endRun => n = 0
  | .setfont => n = 0
  | .getpixel => n = 0
  | .line => n = 0
  | .ellipse => n = 0
  | .fellipse => n = 0
  | .ftri => n = 0
  | .blit => n = 0
  | .readback => n = 0
  | _ => true

/-- The header meets the reserved-field requirements (R89). -/
def reservedOk (op : Opcode) (h : Word) : Bool := modifierOk op (mField h) && countFieldOk op (nField h)

/-- `FixedLen(op)`, the words whose position depends on no operand, header included (R85). -/
def fixedLen : Opcode → Nat
  | .endRun => 1
  | .setfg => 1
  | .setbg => 1
  | .setfgrgb => 1
  | .setbgrgb => 1
  | .setfont => 3
  | .fromrgb => 1
  | .torgb => 1
  | .setpixel => 2
  | .getpixel => 2
  | .fill => 1
  | .hline => 2
  | .vline => 2
  | .line => 3
  | .circle => 2
  | .fcircle => 2
  | .ellipse => 3
  | .fellipse => 3
  | .poly => 1
  | .fpoly => 1
  | .ftri => 4
  | .glyph => 2
  | .string => 2
  | .blit => 3
  | .readback => 3

/-- `PacketLen(op, n, k)`, the whole length L of the packet, header included; `ks` are the words after the header (R85). -/
def packetLen (op : Opcode) (n : Half) (ks : List Word) : Nat :=
  match op with
  | .poly => 1 + n.toNat
  | .fpoly => 1 + n.toNat
  | .glyph => 2 + ceil4 n.toNat
  | .string => 2 + ceil4 n.toNat
  | .blit => 3 + ceil2 ((lo16 (operand ks 1)).toNat * (hi16 (operand ks 1)).toNat)
  | op => fixedLen op

/-! ## The decoder (R81, R88) -/

/-- Why the step rule takes no command from the words at CP (R81 lines 1 to 10). -/
inductive Reject where
  /-- Line 1: there is no header word. -/
  | noHeader
  /-- Line 3: the opcode of header `h` is not in the map. -/
  | unknownOpcode (h : Word)
  /-- Line 4: GETPIXEL or READBACK on a surface without a read path. -/
  | noReadPath (h : Word)
  /-- Line 5: a reserved field of `h` is not as required. -/
  | reservedField (h : Word)
  /-- Line 7: a fixed operand word is missing. -/
  | shortFixed
  /-- Line 10: the packet reaches beyond the list. -/
  | shortPacket
deriving DecidableEq, Repr

/-- The command of a packet that has passed the checks: header `h`, words `ks` after it (R83, R88, R93). -/
def build (op : Opcode) (h : Word) (ks : List Word) : Instr :=
  let n := nField h
  let k := operand ks
  match op with
  | .endRun => .endRun
  | .setfg => .setfg n
  | .setbg => .setbg n
  | .setfgrgb => .setfgrgb (byteOf h 2) (byteOf h 1) (byteOf h 0)
  | .setbgrgb => .setbgrgb (byteOf h 2) (byteOf h 1) (byteOf h 0)
  | .setfont => .setfont (lo16 (k 0)) (hi16 (k 0)) (k 1)
  | .fromrgb => .fromrgb (byteOf h 2) (byteOf h 1) (byteOf h 0)
  | .torgb => .torgb n
  | .setpixel => .setpixel (pointOf (k 0)) n
  | .getpixel => .getpixel (pointOf (k 0))
  | .fill => .fill n
  | .hline => .hline (pointOf (k 0)) n
  | .vline => .vline (pointOf (k 0)) n
  | .line => .line (pointOf (k 0)) (pointOf (k 1))
  | .circle => .circle (pointOf (k 0)) n
  | .fcircle => .fcircle (pointOf (k 0)) n
  | .ellipse => .ellipse (pointOf (k 0)) (lo16 (k 1)) (hi16 (k 1))
  | .fellipse => .fellipse (pointOf (k 0)) (lo16 (k 1)) (hi16 (k 1))
  | .poly => .poly (pointRun n.toNat ks)
  | .fpoly => .fpoly (pointRun n.toNat ks)
  | .ftri => .ftri (pointOf (k 0)) (pointOf (k 1)) (pointOf (k 2))
  | .glyph => .glyph (pointOf (k 0)) (byteRun n.toNat (ks.drop 1))
  | .string =>
    match (mField h).toNat with
    | 0 => .stringL (pointOf (k 0)) (byteRun n.toNat (ks.drop 1))
    | 1 => .stringC (pointOf (k 0)) (byteRun n.toNat (ks.drop 1))
    | _ => .stringR (pointOf (k 0)) (byteRun n.toNat (ks.drop 1))
  | .blit =>
    let w := lo16 (k 1)
    let d := hi16 (k 1)
    match (mField h).toNat with
    | 0 => .blitDn (pointOf (k 0)) w d (halfRun (w.toNat * d.toNat) (ks.drop 2))
    | _ => .blitUp (pointOf (k 0)) w d (halfRun (w.toNat * d.toNat) (ks.drop 2))
  | .readback =>
    match (mField h).toNat with
    | 0 => .readbackDn (pointOf (k 0)) (lo16 (k 1)) (hi16 (k 1))
    | _ => .readbackUp (pointOf (k 0)) (lo16 (k 1)) (hi16 (k 1))

/-- The command at the head of the words `ws` (those from CP on), or why there is none: lines 1 to 10 of R81, in order. -/
def decode (hasRead : Bool) : List Word → Except Reject Instr
  | [] => .error .noHeader
  | h :: ks =>
    match opcodeOf (opField h) with
    | none => .error (.unknownOpcode h)
    | some op =>
      if needsRead op && !hasRead then .error (.noReadPath h)
      else if !reservedOk op h then .error (.reservedField h)
      else if !hasWords ks (fixedLen op - 1) then .error .shortFixed
      else if !hasWords ks (packetLen op (nField h) ks - 1) then .error .shortPacket
      else .ok (build op h ks)

/-! ## The encoder (R82, R83, R86 to R88) -/

/-- A format H header (R82). -/
def headerH (op : Opcode) (m : Byte) (n : Half) : Word :=
  BitVec.ofNat 32 ((opByte op).toNat * 16777216 + m.toNat * 65536 + n.toNat)

/-- A format C header (R82). -/
def headerC (op : Opcode) (r g b : Byte) : Word :=
  BitVec.ofNat 32 ((opByte op).toNat * 16777216 + r.toNat * 65536 + g.toNat * 256 + b.toNat)

/-- A word of two halfwords, the first in the low half: layouts XY, UU, P2 (R83). -/
def packHalves (lo hi : Half) : Word := BitVec.ofNat 32 (hi.toNat * 65536 + lo.toNat)

/-- An XY operand word (R83). -/
def packPoint (p : Point) : Word := packHalves p.x p.y

/-- A word of four bytes, the first lowest: layout B4 (R83). -/
def packBytes (b0 b1 b2 b3 : Byte) : Word :=
  BitVec.ofNat 32 (b3.toNat * 16777216 + b2.toNat * 65536 + b1.toNat * 256 + b0.toNat)

/-- A B4 run, padded with 0 (R86). -/
def packByteRun : List Byte → List Word
  | [] => []
  | [a] => [packBytes a 0 0 0]
  | [a, b] => [packBytes a b 0 0]
  | [a, b, c] => [packBytes a b c 0]
  | a :: b :: c :: d :: t => packBytes a b c d :: packByteRun t

/-- A P2 run, padded with 0 (R87). -/
def packHalfRun : List Half → List Word
  | [] => []
  | [a] => [packHalves a 0]
  | a :: b :: t => packHalves a b :: packHalfRun t

/-- The count field of a list operand. -/
def countField {α : Type} (l : List α) : Half := BitVec.ofNat 16 l.length

/-- The words of a well-formed command's packet (R88; the padding of a run is 0, R100). -/
def encode : Instr → List Word
  | .endRun => [headerH .endRun 0 0]
  | .setfg c => [headerH .setfg 0 c]
  | .setbg c => [headerH .setbg 0 c]
  | .setfgrgb r g b => [headerC .setfgrgb r g b]
  | .setbgrgb r g b => [headerC .setbgrgb r g b]
  | .setfont width height base => [headerH .setfont 0 0, packHalves width height, base]
  | .fromrgb r g b => [headerC .fromrgb r g b]
  | .torgb c => [headerH .torgb 0 c]
  | .setpixel p c => [headerH .setpixel 0 c, packPoint p]
  | .getpixel p => [headerH .getpixel 0 0, packPoint p]
  | .fill c => [headerH .fill 0 c]
  | .hline p n => [headerH .hline 0 n, packPoint p]
  | .vline p n => [headerH .vline 0 n, packPoint p]
  | .line p q => [headerH .line 0 0, packPoint p, packPoint q]
  | .circle c r => [headerH .circle 0 r, packPoint c]
  | .fcircle c r => [headerH .fcircle 0 r, packPoint c]
  | .ellipse c rx ry => [headerH .ellipse 0 0, packPoint c, packHalves rx ry]
  | .fellipse c rx ry => [headerH .fellipse 0 0, packPoint c, packHalves rx ry]
  | .poly vs => headerH .poly 0 (countField vs) :: vs.map packPoint
  | .fpoly vs => headerH .fpoly 0 (countField vs) :: vs.map packPoint
  | .ftri p q r => [headerH .ftri 0 0, packPoint p, packPoint q, packPoint r]
  | .glyph p d => headerH .glyph 0 (countField d) :: packPoint p :: packByteRun d
  | .stringL p d => headerH .string 0 (countField d) :: packPoint p :: packByteRun d
  | .stringC p d => headerH .string 1 (countField d) :: packPoint p :: packByteRun d
  | .stringR p d => headerH .string 2 (countField d) :: packPoint p :: packByteRun d
  | .blitDn p w h px => headerH .blit 0 0 :: packPoint p :: packHalves w h :: packHalfRun px
  | .blitUp p w h px => headerH .blit 1 0 :: packPoint p :: packHalves w h :: packHalfRun px
  | .readbackDn p w h => [headerH .readback 0 0, packPoint p, packHalves w h]
  | .readbackUp p w h => [headerH .readback 1 0, packPoint p, packHalves w h]

/-! ## The words of an opcode-table row -/

/-- Word `i` of an instruction whose bits are `w`, bit 0 the least significant bit of the first word. -/
def tableWord (nbits w i : Nat) : Word := BitVec.ofNat 32 ((w % 2 ^ nbits) / 2 ^ (32 * i))

/-- The words that the table gives an instruction: at least its header. -/
def tableWords (nbits w : Nat) : List Word := (List.range (max 1 ((nbits + 31) / 32))).map (tableWord nbits w)

/-- How many words the packet of these words has by its header and fixed operand words (R85), at least those given. -/
def tablePacketLen (ws : List Word) : Nat :=
  match ws with
  | [] => 0
  | h :: ks =>
    match opcodeOf (opField h) with
    | none => ws.length
    | some op => max (max ws.length (fixedLen op)) (packetLen op (nField h) ks)

/-- The packet of a table row's instruction: its given words, every later operand word 0. -/
def tablePacket (nbits w : Nat) : List Word :=
  let ws := tableWords nbits w
  ws ++ List.replicate (tablePacketLen ws - ws.length) 0

/-- The instruction the decoder reads from an instruction whose bits are `w`, on a surface with a read path. -/
def decodeTableWord (nbits w : Nat) : Option Instr :=
  match decode true (tablePacket nbits w) with
  | .ok i => some i
  | .error _ => none

end Sys2Proof
end

