-- ==== Sys2Proof/Machine/Operands.lean ====
section
/-! DEFINITION. What an operand field stands for (spec 30_encoding.md R83, R84, R93): signed coordinates, unsigned sizes, alignment, direction. -/

namespace Sys2Proof.Machine

/-- A coordinate field as an integer: `sext_16` (R6, R84). -/
def coord (v : Half) : Int := v.toInt

/-- A length, radius, size or count field as a number, 0..65535 (R84). -/
def size (v : Half) : Nat := v.toNat

/-- The column of a point. -/
def px (p : Point) : Int := coord p.x

/-- The row of a point. -/
def py (p : Point) : Int := coord p.y

/-- The alignment of STRING (R93). -/
inductive Align where
  /-- m = 0 -/
  | left
  /-- m = 1 -/
  | center
  /-- m = 2 -/
  | right
deriving DecidableEq, Repr

/-- The direction of BLIT and READBACK (R93). -/
inductive Dir where
  /-- m = 0: ascending rows -/
  | dn
  /-- m = 1: descending rows -/
  | up
deriving DecidableEq, Repr

/-- `DestRow(m, y, h, j)`: the surface row of source row `j` (46_image.md R191). -/
def destRow (d : Dir) (y : Int) (h j : Nat) : Int :=
  match d with
  | .dn => y + j
  | .up => y + ((h : Int) - 1 - j)

/-- `StartCol(m, x, n)` on a surface of width `w` for `n` glyphs of width `fw` (45_glyph.md R185). -/
def startCol (a : Align) (w : Nat) (fw n : Nat) (x : Int) : Int :=
  let len : Int := (n : Int) * fw
  match a with
  | .left => x
  | .center => x + ((w : Int) - len) / 2
  | .right => ((w : Int) - len) - x

end Sys2Proof.Machine
end

