-- ==== Sys2Proof/Machine/Ops.lean ====
section
/-! DEFINITION. The operations every command is built from: taking a fault and the reset that alone leaves it (spec 60_exceptions.md R201, R206;
70_reset_and_hazards.md R230), the write arbiter (20_memory.md R54 to R59), loops in program order (00_scope.md R10), and the end of a step. -/

namespace Sys2Proof.Machine

/-! ## Faults and reset -/

/-- Fault entry (R206): STATE, CAUSE, FAULT_X, FAULT_Y and FAULT_INFO are written, nothing else changes. -/
def takeFault (c : Cause) (x y : Int) (info : Nat) (s : State) : State :=
  { s with
    runState := .fault
    cause := c
    faultX := BitVec.ofInt 32 x
    faultY := BitVec.ofInt 32 y
    faultInfo := BitVec.ofNat 32 info }

/-- Asserting and releasing reset between two steps (R230): the launch parameters and FB stay, everything else takes its reset
value. There is no other return from a fault (R207). It is the host's, not a command (notes/assumptions/10.md). -/
def assertReset (s : State) : State := State.released s.cfg s.fb

/-- What a piece of a command leaves: a value (`ok`), or the state right after a fault entry (`error`), after which nothing of
the command happens any more (R201, R203). -/
abbrev Flow (α : Type) := Except State α

/-- `raise E_X(info)` for every cause but E_RANGE (R201, R206). -/
def raise {α : Type} (c : Cause) (info : Nat) (s : State) : Flow α := .error (takeFault c 0 0 info s)

/-- `raise E_RANGE(x, y)` (R201, R206). -/
def raiseRange {α : Type} (x y : Int) (s : State) : Flow α := .error (takeFault .range x y 0 s)

/-! ## Loops (R9, R10) -/

/-- The body for every item of a list, in order; the first fault ends the loop. -/
def forEach {α β : Type} (body : β → α → Flow α) : List β → α → Flow α
  | [], a => .ok a
  | b :: bs, a =>
    match body b a with
    | .ok a' => forEach body bs a'
    | .error e => .error e

/-- `for i = start .. start + n - 1`: the body for each `i` in order; the first fault ends the loop. -/
def forUp {α : Type} (body : Nat → α → Flow α) : (start n : Nat) → α → Flow α
  | _, 0, a => .ok a
  | i, n + 1, a =>
    match body i a with
    | .ok a' => forUp body (i + 1) n a'
    | .error e => .error e

/-- One piece of a command after another. -/
def andThen {α : Type} (f : Flow α) (g : α → Flow α) : Flow α :=
  match f with
  | .ok a => g a
  | .error e => .error e

/-! ## The pixel surface (20_memory.md R51, R54 to R58) -/

/-- `InSurface(x, y)` (R54). -/
def inSurface (s : State) (x y : Int) : Bool :=
  decide (0 ≤ x) && decide (x < s.cfg.width) && decide (0 ≤ y) && decide (y < s.cfg.height)

/-- `PixIndex(x, y) = W*y + x` (R51), for a point on the surface. -/
def pixIndex (s : State) (x y : Int) : Nat := ((s.cfg.width : Int) * y + x).toNat

/-- `MemWrite(FB, a, 1, c)`. -/
def writeFb (a : Nat) (c : Pixel) (s : State) : State := { s with fb := s.fb.write a c }

/-- `MemRead(FB, a, 1)`. -/
def readFb (s : State) (a : Nat) : Pixel := s.fb.read a

/-- `PixWrite(x, y, c)` (R55). -/
def pixWrite (x y : Int) (c : Pixel) (s : State) : Flow State :=
  if inSurface s x y then .ok (writeFb (pixIndex s x y) c s) else raiseRange x y s

/-- `PixRead(x, y)` (R56). -/
def pixRead (x y : Int) (s : State) : Flow Pixel :=
  if inSurface s x y then .ok (readFb s (pixIndex s x y)) else raiseRange x y s

/-- The colour a pixel is plotted in (R57). -/
inductive Ink where
  /-- FG -/
  | fg
  /-- BG -/
  | bg
deriving DecidableEq, Repr

/-- `Plot(x, y, sel)` (R57): the colour check comes before the bounds check. -/
def plot (x y : Int) (ink : Ink) (s : State) : Flow State :=
  match ink with
  | .fg => if s.fgV then pixWrite x y s.fg s else raise .unset fgNumber s
  | .bg => if s.bgV then pixWrite x y s.bg s else raise .unset bgNumber s

/-- A point plotted in the foreground colour. -/
def plotFg (p : Int × Int) (s : State) : Flow State := plot p.1 p.2 .fg s

/-- `Span(x, y, n)` (R58). -/
def span (x y : Int) (n : Nat) (s : State) : Flow State := forUp (fun i => plot (x + i) y .fg) 0 n s

/-! ## The output stream (R29, R59) -/

/-- OUT_COUNT plus 1; the spec states no result when it leaves the 32 bits of the register: a free value, applied to the number
of words that OUT then holds (DESIGN CHOICE, notes/assumptions/6.md). -/
def nextOutCount (s : State) : BitVec 32 :=
  if s.outCount.toNat + 1 < 2 ^ 32 then s.outCount + 1 else Config.outCountOverflow (s.out.length + 1)

/-- `Emit(v)` (R59). -/
def emit (v : Word) (s : State) : State :=
  { s with out := s.out ++ [v], outCount := nextOutCount s }

/-! ## The end of a step (R81) -/

/-- Lines 11 and 12 of R81 for a packet of `len` words: a command that completes advances CP by its length; after a fault CP
keeps its value. -/
def finish (len : Nat) (f : Flow State) : Host.Outcome State Fault Refusal :=
  match f with
  | .ok s => .next { s with cp := s.cp + BitVec.ofNat 32 len }
  | .error s => .next s

end Sys2Proof.Machine
end

