-- ==== Sys2Proof/Machine/Curve.lean ====
section
/-! DEFINITION. The CurveRasterizer commands CIRCLE, FCIRCLE, ELLIPSE and FELLIPSE (spec 43_curve.md). -/

namespace Sys2Proof.Machine

/-- The loop of the octant generator (R150) from (u, v) and decision variable D, for at most `fuel` iterations. -/
def octantFrom : (fuel : Nat) → (u v D : Int) → List (Int × Int)
  | 0, _, _, _ => []
  | fuel + 1, u, v, D =>
    if u ≤ v then
      (u, v) ::
        (if D < 0 then octantFrom fuel (u + 1) v (D + 4 * u + 6)
         else octantFrom fuel (u + 1) (v - 1) (D + 4 * (u - v) + 10))
    else []

/-- `Octant(r)` (R150): the pairs (u, v) in order. The loop runs at most r + 1 times (R150; notes/assumptions/14.md). -/
def octant (r : Nat) : List (Int × Int) := octantFrom (r + 1) 0 r (3 - 2 * r)

/-- `Stroke8(cx, cy, a, b, u, v)`: the eight points in order (R153). -/
def stroke8 (cx cy a b u v : Int) : List (Int × Int) :=
  [(cx + a, cy - v), (cx - a, cy - v), (cx + b, cy - u), (cx - b, cy - u),
   (cx + a, cy + v), (cx - a, cy + v), (cx + b, cy + u), (cx - b, cy + u)]

/-- `Fill4(cx, cy, a, b, u, v)`: the left end and the half length of the four spans in order (R154). -/
def fill4 (cx cy a b u v : Int) : List (Int × Int × Int) :=
  [(cx - b, cy + u, b), (cx - b, cy - u, b), (cx - a, cy - v, a), (cx - a, cy + v, a)]

/-- `ScaleX(t, rx, ry) = (t * rx) div ry` (R155). -/
def scaleX (rx ry : Nat) (t : Int) : Int := t * rx / ry

/-- The stroke pass: Stroke8 for every pair, with the x offsets scaled by `sc` (R151, R156). -/
def strokePass (cx cy : Int) (sc : Int → Int) (ps : List (Int × Int)) (s : State) : Flow State :=
  forEach (fun q => forEach plotFg (stroke8 cx cy (sc q.1) (sc q.2) q.1 q.2)) ps s

/-- One span of Fill4: `2 * half + 1` pixels (R154). -/
def fillSpan (f : Int × Int × Int) (s : State) : Flow State := span f.1 f.2.1 (2 * f.2.2 + 1).toNat s

/-- The span pass: Fill4 for every pair (R152, R157). -/
def fillPass (cx cy : Int) (sc : Int → Int) (ps : List (Int × Int)) (s : State) : Flow State :=
  forEach (fun q => forEach fillSpan (fill4 cx cy (sc q.1) (sc q.2) q.1 q.2)) ps s

/-- CIRCLE cx, cy, r (R151). -/
def execCircle (c : Point) (r : Half) (s : State) : Host.Outcome State Fault Refusal :=
  finish 2 (strokePass (px c) (py c) id (octant (size r)) s)

/-- FCIRCLE cx, cy, r (R152): all spans, then the outline. -/
def execFcircle (c : Point) (r : Half) (s : State) : Host.Outcome State Fault Refusal :=
  finish 2 (andThen (fillPass (px c) (py c) id (octant (size r)) s) fun s =>
    strokePass (px c) (py c) id (octant (size r)) s)

/-- ELLIPSE cx, cy, rx, ry (R156, R158). -/
def execEllipse (c : Point) (rx ry : Half) (s : State) : Host.Outcome State Fault Refusal :=
  finish 3
    (if rx = 0 ∨ ry = 0 then .ok s
     else strokePass (px c) (py c) (scaleX (size rx) (size ry)) (octant (size ry)) s)

/-- FELLIPSE cx, cy, rx, ry (R157, R158): all spans, then the outline. -/
def execFellipse (c : Point) (rx ry : Half) (s : State) : Host.Outcome State Fault Refusal :=
  finish 3
    (if rx = 0 ∨ ry = 0 then .ok s
     else andThen (fillPass (px c) (py c) (scaleX (size rx) (size ry)) (octant (size ry)) s) fun s =>
       strokePass (px c) (py c) (scaleX (size rx) (size ry)) (octant (size ry)) s)

end Sys2Proof.Machine
end

