-- ==== Sys2Proof/Machine/Glyph.lean ====
section
/-! DEFINITION. The GlyphBlitter commands GLYPH and STRING (spec 45_glyph.md). -/

namespace Sys2Proof.Machine

/-- `BPR = (FONT_W + 7) div 8`, the bytes of one glyph row (R26). -/
def bytesPerRow (s : State) : Nat := (s.fontW.toNat + 7) / 8

/-- The bytes of one glyph of the active font, FONT_H * BPR (R181). -/
def glyphBytes (s : State) : Nat := s.fontH.toNat * bytesPerRow s

/-- Where a glyph's bytes come from: byte `j`, or the index in FONT at which there is none (R182, R186). -/
abbrev ByteAt := Nat → Except Nat Byte

/-- The row string S of `n` more bytes from byte `j` on, after the bytes already in `acc`, first byte most significant (R182). -/
def rowBits (byteAt : ByteAt) : (j n : Nat) → (acc : Nat) → Except Nat Nat
  | _, 0, acc => .ok acc
  | j, n + 1, acc =>
    match byteAt j with
    | .ok b => rowBits byteAt (j + 1) n (acc * 256 + b.toNat)
    | .error a => .error a

/-- The ink of column `c` of a row string of `bpr` bytes: bit `8*bpr - 1 - c` (R181, R182). -/
def inkAt (bits bpr c : Nat) : Ink := if bits.testBit (8 * bpr - 1 - c) then .fg else .bg

/-- One row of a glyph: its bytes are fetched first, then its pixels are written left to right (R182). -/
def glyphRow (x y : Int) (byteAt : ByteAt) (r : Nat) (s : State) : Flow State :=
  match rowBits byteAt (r * bytesPerRow s) (bytesPerRow s) 0 with
  | .ok bits => forUp (fun c => plot (x + c) (y + r) (inkAt bits (bytesPerRow s) c)) 0 s.fontW.toNat s
  | .error a => raise .fontAddr a s

/-- `GlyphRows(x, y, byteAt)` (R182). -/
def glyphRows (x y : Int) (byteAt : ByteAt) (s : State) : Flow State :=
  forUp (glyphRow x y byteAt) 0 s.fontH.toNat s

/-- The bytes in a GLYPH packet (R180). -/
def packetByte (d : List Byte) : ByteAt := fun j => .ok (d.getD j 0)

/-- GLYPH x, y, [bytes] (R180). -/
def execGlyph (p : Point) (d : List Byte) (s : State) : Host.Outcome State Fault Refusal :=
  finish (2 + ceil4 d.length)
    (if !s.fontV then raise .noFont 0 s
     else if d.length ≠ glyphBytes s then raise .operand d.length s
     else glyphRows (px p) (py p) (packetByte d) s)

/-- `GlyphBase(ch) = FONT_BASE + (ch - 0x20) * FONT_H * BPR`, for a code in 0x20..0x7E (R186). -/
def glyphBase (s : State) (ch : Byte) : Nat := s.fontBase.toNat + (ch.toNat - 0x20) * glyphBytes s

/-- `FontByte(a)` (R186). -/
def fontByte (s : State) (a : Nat) : Except Nat Byte := if a ≥ s.cfg.fontLen then .error a else .ok (s.cfg.font.read a)

/-- Byte `j` of the glyph of code `ch` in the font table (R186). -/
def tableByte (s : State) (ch : Byte) : ByteAt := fun j => fontByte s (glyphBase s ch + j)

/-- The codes that the font contract covers (R184, R186). -/
def codeOk (ch : Byte) : Bool := decide (0x20 ≤ ch.toNat) && decide (ch.toNat ≤ 0x7E)

/-- The glyphs of the characters from column `col` on: stop without a fault when the next glyph would not fit (R184). -/
def stringFrom (y : Int) : List Byte → (col : Int) → State → Flow State
  | [], _, s => .ok s
  | ch :: rest, col, s =>
    if col + s.fontW.toNat > s.cfg.width then .ok s
    else if !codeOk ch then raise .operand ch.toNat s
    else
      match glyphRows col y (tableByte s ch) s with
      | .ok s' => stringFrom y rest (col + s.fontW.toNat) s'
      | .error e => .error e

/-- STRING with an alignment (R184). -/
def drawString (a : Align) (p : Point) (d : List Byte) (s : State) : Flow State :=
  if !s.fontV then raise .noFont 0 s
  else stringFrom (py p) d (startCol a s.cfg.width s.fontW.toNat d.length (px p)) s

/-- STRING.L x, y, text (R184). -/
def execStringL (p : Point) (d : List Byte) (s : State) : Host.Outcome State Fault Refusal :=
  finish (2 + ceil4 d.length) (drawString .left p d s)

/-- STRING.C x, y, text (R184). -/
def execStringC (p : Point) (d : List Byte) (s : State) : Host.Outcome State Fault Refusal :=
  finish (2 + ceil4 d.length) (drawString .center p d s)

/-- STRING.R x, y, text (R184). -/
def execStringR (p : Point) (d : List Byte) (s : State) : Host.Outcome State Fault Refusal :=
  finish (2 + ceil4 d.length) (drawString .right p d s)

end Sys2Proof.Machine
end

