-- ==== Sys2Proof/Machine/Color.lean ====
section
/-! DEFINITION. The ColorModel (spec 40_drawstate_and_color.md R113, R114, R121). -/

namespace Sys2Proof.Machine

/-- `CheckColor(c)` (R121): a value that does not fit the pixel width faults instead of being truncated. -/
def checkColor (c : Half) (s : State) : Flow State :=
  if c.toNat < 2 ^ s.cfg.pixfmt.bpp then .ok s else raise .operand c.toNat s

/-- `FromRGB(r, g, b)` for RGB565: the most significant 5, 6 and 5 bits of the channels (R113). -/
def fromRgb565 (c : Rgb) : Pixel :=
  BitVec.ofNat 16 ((c.r.toNat / 8) * 2048 + (c.g.toNat / 4) * 32 + c.b.toNat / 8)

/-- `ToRGB(c)` for RGB565: the low bits of each channel are 0 (R114). -/
def toRgb565 (c : Pixel) : Rgb where
  r := BitVec.ofNat 8 (c.toNat / 2048 % 32 * 8)
  g := BitVec.ofNat 8 (c.toNat / 32 % 64 * 4)
  b := BitVec.ofNat 8 (c.toNat % 32 * 8)

/-- `FromRGB(r, g, b)` (R113). -/
def fromRgb (f : PixFmt) (c : Rgb) : Pixel :=
  match f with
  | .rgb565 => fromRgb565 c
  | .pal8 => (Config.palFromRgb c.r c.g c.b).setWidth 16

/-- `ToRGB(c)` (R114). -/
def toRgb (f : PixFmt) (c : Pixel) : Rgb :=
  match f with
  | .rgb565 => toRgb565 c
  | .pal8 => Config.palToRgb (c.setWidth 8)

/-- `0x00 ‖ r ‖ g ‖ b` (R120). -/
def rgbWord (c : Rgb) : Word := BitVec.ofNat 32 (c.r.toNat * 65536 + c.g.toNat * 256 + c.b.toNat)

end Sys2Proof.Machine
end

