-- ==== Sys2Proof/Machine/Surface.lean ====
section
/-! DEFINITION. The PixelSurface commands SETPIXEL, GETPIXEL and FILL (spec 41_pixel_surface.md). -/

namespace Sys2Proof.Machine

/-- SETPIXEL x, y, c (R130). -/
def execSetpixel (p : Point) (c : Half) (s : State) : Host.Outcome State Fault Refusal :=
  finish 2 (andThen (checkColor c s) fun s => pixWrite (px p) (py p) c s)

/-- The value of one pixel, zero-extended, to OUT (R131). -/
def emitPixel (x y : Int) (s : State) : Flow State :=
  match pixRead x y s with
  | .ok v => .ok (emit (v.setWidth 32) s)
  | .error e => .error e

/-- A command that reads the surface, on a surface that may have no read path: then its header is an illegal one (R90). The step
rule finds this before the command starts; the check stands here too (notes/assumptions/12.md). -/
def needRead (header : Word) (act : State → Flow State) (s : State) : Flow State :=
  if s.cfg.hasRead then act s else raise .illegal header.toNat s

/-- GETPIXEL x, y (R131). -/
def execGetpixel (p : Point) (s : State) : Host.Outcome State Fault Refusal :=
  finish 2 (needRead (headerH .getpixel 0 0) (emitPixel (px p) (py p)) s)

/-- Every pixel of the surface, in row-major order (R132). -/
def fillAll (c : Pixel) (s : State) : Flow State :=
  forUp (fun i s => .ok (writeFb i c s)) 0 (s.cfg.width * s.cfg.height) s

/-- FILL c (R132). -/
def execFill (c : Half) (s : State) : Host.Outcome State Fault Refusal :=
  finish 1 (andThen (checkColor c s) fun s => fillAll c s)

end Sys2Proof.Machine
end

