-- ==== Sys2Proof/Machine/Image.lean ====
section
/-! DEFINITION. The ImageBlitter commands BLIT and READBACK (spec 46_image.md). -/

namespace Sys2Proof.Machine

/-- One row of a BLIT, left to right from column x: each element is checked when it is reached, then written (R190). -/
def blitRow (y : Int) : (x : Int) → List Half → State → Flow State
  | _, [], s => .ok s
  | x, e :: t, s =>
    match andThen (checkColor e s) (pixWrite x y e) with
    | .ok s' => blitRow y (x + 1) t s'
    | .error f => .error f

/-- Source row `j` of a run of rows of `w` elements. -/
def sourceRow (w j : Nat) (l : List Half) : List Half := (l.drop (j * w)).take w

/-- The rows of a BLIT (R190). -/
def blit (d : Dir) (p : Point) (w h : Half) (l : List Half) (s : State) : Flow State :=
  forUp (fun j => blitRow (destRow d (py p) (size h) j) (px p) (sourceRow (size w) j l)) 0 (size h) s

/-- BLIT.DN x, y, w, h, [pixels] (R190). -/
def execBlitDn (p : Point) (w h : Half) (l : List Half) (s : State) : Host.Outcome State Fault Refusal :=
  finish (3 + ceil2 (size w * size h)) (blit .dn p w h l s)

/-- BLIT.UP x, y, w, h, [pixels] (R190). -/
def execBlitUp (p : Point) (w h : Half) (l : List Half) (s : State) : Host.Outcome State Fault Refusal :=
  finish (3 + ceil2 (size w * size h)) (blit .up p w h l s)

/-- What a READBACK carries from pixel to pixel: the element held alone, if any, and the state (R193). -/
abbrev Held := Option Pixel × State

/-- One element read: held when none is held, else emitted in one word with the held one in the low half (R193). -/
def readStep (x y : Int) (a : Held) : Flow Held :=
  match pixRead x y a.2 with
  | .error e => .error e
  | .ok v =>
    match a.1 with
    | none => .ok (some v, a.2)
    | some hold => .ok (none, emit (packHalves hold v) a.2)

/-- The element left alone at the end, upper half 0 (R193). -/
def flushHeld (a : Held) : State :=
  match a.1 with
  | none => a.2
  | some hold => emit (hold.setWidth 32) a.2

/-- The rows of a READBACK (R193). -/
def readback (d : Dir) (p : Point) (w h : Half) (s : State) : Flow State :=
  match forUp (fun j => forUp (fun i => readStep (px p + i) (destRow d (py p) (size h) j)) 0 (size w)) 0 (size h) (none, s) with
  | .ok a => .ok (flushHeld a)
  | .error e => .error e

/-- READBACK.DN x, y, w, h (R193). -/
def execReadbackDn (p : Point) (w h : Half) (s : State) : Host.Outcome State Fault Refusal :=
  finish 3 (needRead (headerH .readback 0 0) (readback .dn p w h) s)

/-- READBACK.UP x, y, w, h (R193). -/
def execReadbackUp (p : Point) (w h : Half) (s : State) : Host.Outcome State Fault Refusal :=
  finish 3 (needRead (headerH .readback 1 0) (readback .up p w h) s)

end Sys2Proof.Machine
end

