-- ==== Sys2Proof/Machine/Line.lean ====
section
/-! DEFINITION. The LineRasterizer commands HLINE, VLINE and LINE (spec 42_line.md). -/

namespace Sys2Proof.Machine

/-- HLINE x, y, length (R140). -/
def execHline (p : Point) (n : Half) (s : State) : Host.Outcome State Fault Refusal :=
  finish 2 (span (px p) (py p) (size n) s)

/-- The vertical run of `n` pixels downwards from (x, y) (R141). -/
def vspan (x y : Int) (n : Nat) (s : State) : Flow State := forUp (fun i => plot x (y + i) .fg) 0 n s

/-- VLINE x, y, length (R141). -/
def execVline (p : Point) (n : Half) (s : State) : Host.Outcome State Fault Refusal :=
  finish 2 (vspan (px p) (py p) (size n) s)

/-- The Bresenham walk of R143: `n` iterations from major coordinate `u`, minor coordinate `v` and error `e`, with major delta
`D`, minor delta `a` and minor step `st`; the pairs (major, minor) it plots, in order. -/
def walk (D a st : Int) : (n : Nat) → (u v e : Int) → List (Int × Int)
  | 0, _, _, _ => []
  | n + 1, u, v, e =>
    (u, v) ::
      (if 2 * (e + a) > D then walk D a st n (u + 1) (v + st) (e + a - D)
       else walk D a st n (u + 1) v (e + a))

/-- The walk between the ends (u1, v1) and (u2, v2), given as (major, minor): it starts at the end with the smaller major
coordinate (R143). -/
def majorWalk (u1 v1 u2 v2 : Int) : List (Int × Int) :=
  let n := (u2 - u1).natAbs + 1
  let D : Int := (u2 - u1).natAbs
  let a : Int := (v2 - v1).natAbs
  if u1 > u2 then walk D a (v1 - v2).sign n u2 v2 0 else walk D a (v2 - v1).sign n u1 v1 0

/-- The points that `Line(x1, y1, x2, y2)` plots, in order (R143): x is the major axis unless the y difference is larger. -/
def linePoints (x1 y1 x2 y2 : Int) : List (Int × Int) :=
  if (x2 - x1).natAbs ≥ (y2 - y1).natAbs then majorWalk x1 y1 x2 y2
  else (majorWalk y1 x1 y2 x2).map fun p => (p.2, p.1)

/-- `Line(x1, y1, x2, y2)` (R143). -/
def line (x1 y1 x2 y2 : Int) (s : State) : Flow State := forEach plotFg (linePoints x1 y1 x2 y2) s

/-- LINE x1, y1, x2, y2 (R142). -/
def execLine (p q : Point) (s : State) : Host.Outcome State Fault Refusal :=
  finish 3 (line (px p) (py p) (px q) (py q) s)

end Sys2Proof.Machine
end

