-- ==== Sys2Proof/Machine/Polygon.lean ====
section
/-! DEFINITION. The PolygonRasterizer commands POLY, FPOLY and FTRI (spec 44_polygon.md). -/

namespace Sys2Proof.Machine

/-- A point with integer coordinates, (x, y). -/
abbrev Pt := Int × Int

/-- The coordinates of an operand point. -/
def ptOf (p : Point) : Pt := (px p, py p)

/-- One compare-and-swap of R169. -/
def orderY (p q : Pt) : Pt × Pt := if p.2 > q.2 then (q, p) else (p, q)

/-- `SortY(p1, p2, p3)`: three compare-and-swap steps (R169). -/
def sortY (p1 p2 p3 : Pt) : Pt × Pt × Pt :=
  let a := orderY p1 p2
  let b := orderY a.2 p3
  let c := orderY a.1 b.1
  (c.1, c.2, b.2)

/-- `EdgeX(P, Q, y)`, for P.y < Q.y and P.y <= y <= Q.y (R170). -/
def edgeX (p q : Pt) (y : Int) : Int := p.1 + ((q.1 - p.1) * (y - p.2)) / (q.2 - p.2)

/-- The other bound of scanline y: the upper edge, the middle vertex, or the lower edge (R168). -/
def shortEdgeX (a b c : Pt) (y : Int) : Int :=
  if y < b.2 then edgeX a b y else if y = b.2 then b.1 else edgeX b c y

/-- The pixels from the smaller to the larger of two columns, both included, as one span. -/
def spanBetween (p q y : Int) (s : State) : Flow State := span (min p q) y ((max p q - min p q) + 1).toNat s

/-- `FillTriangle` on sorted points (R168). -/
def fillSorted (a b c : Pt) (s : State) : Flow State :=
  if a.2 = c.2 then spanBetween (min (min a.1 b.1) c.1) (max (max a.1 b.1) c.1) a.2 s
  else
    forUp (fun i => spanBetween (edgeX a c (a.2 + i)) (shortEdgeX a b c (a.2 + i)) (a.2 + i)) 0 ((c.2 - a.2) + 1).toNat s

/-- `FillTriangle(p1, p2, p3)` (R168). -/
def fillTriangle (p1 p2 p3 : Pt) (s : State) : Flow State :=
  let t := sortY p1 p2 p3
  fillSorted t.1 t.2.1 t.2.2 s

/-- FTRI x1, y1, x2, y2, x3, y3 (R167). -/
def execFtri (p q r : Point) (s : State) : Host.Outcome State Fault Refusal :=
  finish 4 (fillTriangle (ptOf p) (ptOf q) (ptOf r) s)

/-- The edges from each vertex to the next, and from the last one to `first` (R165, R166). -/
def edgesTo (first : Pt) : List Pt → List (Pt × Pt)
  | [] => []
  | [v] => [(v, first)]
  | v :: w :: t => (v, w) :: edgesTo first (w :: t)

/-- The edges of the closed outline, the closing edge last (R165). -/
def polyEdges (vs : List Pt) : List (Pt × Pt) :=
  match vs with
  | [] => []
  | v :: t => edgesTo v (v :: t)

/-- POLY (R165): nothing for fewer than two vertices. -/
def execPoly (vs : List Point) (s : State) : Host.Outcome State Fault Refusal :=
  finish (1 + vs.length)
    (if vs.length < 2 then .ok s
     else forEach (fun e => line e.1.1 e.1.2 e.2.1 e.2.2) (polyEdges (vs.map ptOf)) s)

/-- The least of a list of integers and `v` (R166). -/
def minOf : (v : Int) → List Int → Int
  | v, [] => v
  | v, a :: t => if a < v then minOf a t else minOf v t

/-- The greatest of a list of integers and `v` (R166). -/
def maxOf : (v : Int) → List Int → Int
  | v, [] => v
  | v, a :: t => if v < a then maxOf a t else maxOf v t

/-- The centre of the bounding box, rounded down (R166). -/
def boxCentre (vs : List Pt) : Pt :=
  match vs with
  | [] => (0, 0)
  | v :: t =>
    ((minOf v.1 (t.map (·.1)) + maxOf v.1 (t.map (·.1))) / 2, (minOf v.2 (t.map (·.2)) + maxOf v.2 (t.map (·.2))) / 2)

/-- FPOLY (R166): the fan around the bounding-box centre; nothing for fewer than three vertices. -/
def execFpoly (vs : List Point) (s : State) : Host.Outcome State Fault Refusal :=
  finish (1 + vs.length)
    (if vs.length < 3 then .ok s
     else forEach (fun e => fillTriangle e.1 e.2 (boxCentre (vs.map ptOf))) (polyEdges (vs.map ptOf)) s)

end Sys2Proof.Machine
end

