-- ==== Sys2Proof/Machine/System.lean ====
section
/-! DEFINITION. END, the DrawState setters, the font selector and the ColorModel commands (spec 40_drawstate_and_color.md). -/

namespace Sys2Proof.Machine

/-- `STATE <- HALT` (R110). -/
def halt (s : State) : State := { s with runState := .halt }

/-- `FG <- c; FG_V <- 1` (R111, R116). -/
def setFg (c : Pixel) (s : State) : State := { s with fg := c, fgV := true }

/-- `BG <- c; BG_V <- 1` (R112, R117). -/
def setBg (c : Pixel) (s : State) : State := { s with bg := c, bgV := true }

/-- The four font registers written together (R118). -/
def setFont (width : BitVec 5) (height : BitVec 8) (base : BitVec 32) (s : State) : State :=
  { s with fontW := width, fontH := height, fontBase := base, fontV := true }

/-- The legal font sizes: width 1..24, height 1..255 (R118). -/
def fontSizeOk (width height : Half) : Bool :=
  decide (1 ≤ width.toNat) && decide (width.toNat ≤ 24) && decide (1 ≤ height.toNat) && decide (height.toNat ≤ 255)

/-- END (R110). -/
def execEnd (s : State) : Host.Outcome State Fault Refusal := finish 1 (.ok (halt s))

/-- SETFG c (R111). -/
def execSetfg (c : Half) (s : State) : Host.Outcome State Fault Refusal :=
  finish 1 (andThen (checkColor c s) fun s => .ok (setFg c s))

/-- SETBG c (R112). -/
def execSetbg (c : Half) (s : State) : Host.Outcome State Fault Refusal :=
  finish 1 (andThen (checkColor c s) fun s => .ok (setBg c s))

/-- SETFGRGB r, g, b (R116). -/
def execSetfgrgb (r g b : Byte) (s : State) : Host.Outcome State Fault Refusal :=
  finish 1 (.ok (setFg (fromRgb s.cfg.pixfmt ⟨r, g, b⟩) s))

/-- SETBGRGB r, g, b (R117). -/
def execSetbgrgb (r g b : Byte) (s : State) : Host.Outcome State Fault Refusal :=
  finish 1 (.ok (setBg (fromRgb s.cfg.pixfmt ⟨r, g, b⟩) s))

/-- SETFONT width, height, base (R118): an illegal size raises E_OPERAND(k[1]). -/
def execSetfont (width height : Half) (base : Word) (s : State) : Host.Outcome State Fault Refusal :=
  finish 3
    (if fontSizeOk width height then .ok (setFont (width.setWidth 5) (height.setWidth 8) base s)
     else raise .operand (packHalves width height).toNat s)

/-- FROMRGB r, g, b (R119). -/
def execFromrgb (r g b : Byte) (s : State) : Host.Outcome State Fault Refusal :=
  finish 1 (.ok (emit ((fromRgb s.cfg.pixfmt ⟨r, g, b⟩).setWidth 32) s))

/-- TORGB c (R120). -/
def execTorgb (c : Half) (s : State) : Host.Outcome State Fault Refusal :=
  finish 1 (andThen (checkColor c s) fun s => .ok (emit (rgbWord (toRgb s.cfg.pixfmt c)) s))

end Sys2Proof.Machine
end

