-- ==== Sys2Proof/Machine/Dispatch.lean ====
section
/-! DEFINITION. The meaning of every command, one arm per constructor of Instr (spec 30_encoding.md R88; files 40 to 46). -/

namespace Sys2Proof.Machine

/-- Lines 11 and 12 of R81: the command's own rule, then CP. -/
def exec (i : Instr) (s : State) : Host.Outcome State Fault Refusal :=
  match i with
  | .endRun => Sys2Proof.Machine.execEnd s
  | .setfg c => Sys2Proof.Machine.execSetfg c s
  | .setbg c => Sys2Proof.Machine.execSetbg c s
  | .setfgrgb r g b => Sys2Proof.Machine.execSetfgrgb r g b s
  | .setbgrgb r g b => Sys2Proof.Machine.execSetbgrgb r g b s
  | .setfont w h base => Sys2Proof.Machine.execSetfont w h base s
  | .fromrgb r g b => Sys2Proof.Machine.execFromrgb r g b s
  | .torgb c => Sys2Proof.Machine.execTorgb c s
  | .setpixel p c => Sys2Proof.Machine.execSetpixel p c s
  | .getpixel p => Sys2Proof.Machine.execGetpixel p s
  | .fill c => Sys2Proof.Machine.execFill c s
  | .hline p n => Sys2Proof.Machine.execHline p n s
  | .vline p n => Sys2Proof.Machine.execVline p n s
  | .line p q => Sys2Proof.Machine.execLine p q s
  | .circle c r => Sys2Proof.Machine.execCircle c r s
  | .fcircle c r => Sys2Proof.Machine.execFcircle c r s
  | .ellipse c rx ry => Sys2Proof.Machine.execEllipse c rx ry s
  | .fellipse c rx ry => Sys2Proof.Machine.execFellipse c rx ry s
  | .poly vs => Sys2Proof.Machine.execPoly vs s
  | .fpoly vs => Sys2Proof.Machine.execFpoly vs s
  | .ftri p q r => Sys2Proof.Machine.execFtri p q r s
  | .glyph p d => Sys2Proof.Machine.execGlyph p d s
  | .stringL p d => Sys2Proof.Machine.execStringL p d s
  | .stringC p d => Sys2Proof.Machine.execStringC p d s
  | .stringR p d => Sys2Proof.Machine.execStringR p d s
  | .blitDn p w h l => Sys2Proof.Machine.execBlitDn p w h l s
  | .blitUp p w h l => Sys2Proof.Machine.execBlitUp p w h l s
  | .readbackDn p w h => Sys2Proof.Machine.execReadbackDn p w h s
  | .readbackUp p w h => Sys2Proof.Machine.execReadbackUp p w h s

end Sys2Proof.Machine
end

