-- ==== Sys2Proof/Machine/Fetch.lean ====
section
/-! DEFINITION. Fetching at CP and what the step rule does when it finds no command there (spec 30_encoding.md R81 lines 1 to 10), and the
domain of the launch parameters (00_scope.md R5). -/

namespace Sys2Proof.Machine

/-- W, H, CMD_LEN and FONT_LEN are in their ranges (R5). -/
def launchOk (c : Launch) : Bool :=
  decide (1 ≤ c.width) && decide (c.width ≤ Config.maxSide) && decide (1 ≤ c.height) && decide (c.height ≤ Config.maxSide)
    && !hasWords c.cmd Config.cmdLenLimit && decide (c.fontLen ≤ Config.fontLenLimit)

/-- The words of CMD from CP on (R21, R52). -/
def fetchWords (s : State) : List Word := s.cfg.cmd.drop s.cp.toNat

/-- The command at CP, or why there is none (R81). -/
def fetch (s : State) : Except Reject Instr := decode s.cfg.hasRead (fetchWords s)

/-- The fault of a step that finds no command: E_FETCH(CMD_LEN) or E_ILLEGAL(h) (R81, R202). -/
def takeReject (r : Reject) (s : State) : State :=
  match r with
  | .noHeader => takeFault .fetch 0 0 s.cfg.cmd.length s
  | .unknownOpcode h => takeFault .illegal 0 0 h.toNat s
  | .noReadPath h => takeFault .illegal 0 0 h.toNat s
  | .reservedField h => takeFault .illegal 0 0 h.toNat s
  | .shortFixed => takeFault .fetch 0 0 s.cfg.cmd.length s
  | .shortPacket => takeFault .fetch 0 0 s.cfg.cmd.length s

/-- CMD with the words `ws` at index `i`: every other word stays, and a gap before `i` is filled with 0. -/
def placeWords (cmd : List Word) (i : Nat) (ws : List Word) : List Word :=
  cmd.take i ++ List.replicate (i - cmd.length) 0 ++ ws ++ cmd.drop (i + ws.length)

end Sys2Proof.Machine
end

