-- ==== Sys2Proof/Machine/Step.lean ====
section
/-! DEFINITION. One step of the engine (spec 30_encoding.md R81; 10_state.md R27), and a state whose next step runs a given instruction. -/

namespace Sys2Proof.Machine

/-- The step rule (R81). When STATE is HALT or FAULT there is no step: a stuck state, named (notes/assumptions/5.md). Launch
parameters outside their ranges are refused (notes/assumptions/8.md). Otherwise the command at CP runs, or its fault is taken. -/
def step (s : State) : Host.Outcome State Fault Refusal :=
  match s.runState with
  | .halt => .fault .halted
  | .fault => .fault .stopped
  | .run =>
    if !launchOk s.cfg then .refused .launchOutOfDomain
    else
      match fetch s with
      | .ok i => exec i s
      | .error r => .next (takeReject r s)

/-- `s` with the packet of a table row's instruction in CMD at CP and STATE = RUN, so that the next step runs it. It stands for the
host's loading of a command list (notes/assumptions/9.md). -/
def State.withFetchWord (s : State) (nbits w : Nat) : State :=
  { s with
    runState := .run
    cfg := { s.cfg with cmd := placeWords s.cfg.cmd s.cp.toNat (tablePacket nbits w) } }

end Sys2Proof.Machine
end

