-- ==== Sys2Proof/Safety.lean ====
section
/-! DEFINITION. What the statements say of a state: the invariant that every step keeps, what a completed drawing command leaves, the
point sets of the shapes as the spec's rules give them, and the values a run may not depend on. -/

namespace Sys2Proof.Machine

/-! ## The invariant -/

/-- W*H, the number of pixels (spec 20_memory.md R50). -/
def pixelCount (s : State) : Nat := s.cfg.width * s.cfg.height

/-- A value is a native pixel of the surface: below 2^BPP (10_state.md R24). -/
def native (s : State) (c : Pixel) : Prop := c.toNat < 2 ^ s.cfg.pixfmt.bpp

/-- What holds of the state right after reset and after every step. -/
structure Inv (s : State) : Prop where
  /-- The launch parameters are in their ranges (00_scope.md R5). -/
  launch : launchOk s.cfg = true
  /-- The pixel store is in canonical form. -/
  fbCanonical : s.fb.wf = true
  /-- There is no pixel at an index of W*H or more (R50). -/
  fbInside : ∀ a, pixelCount s ≤ a → readFb s a = 0
  /-- Every pixel is native (R50). -/
  fbNative : ∀ a, native s (readFb s a)
  /-- FG holds a native value once it is valid (R24). -/
  fgNative : s.fgV = true → native s s.fg
  /-- BG holds a native value once it is valid (R25). -/
  bgNative : s.bgV = true → native s s.bg
  /-- "whenever FONT_V = 1 the three fields hold legal values" (R26). -/
  fontLegal : s.fontV = true → 1 ≤ s.fontW.toNat ∧ s.fontW.toNat ≤ 24 ∧ 1 ≤ s.fontH.toNat
  /-- "CP <= CMD_LEN < 2^32 always holds" (R21). -/
  cpInside : s.cp.toNat ≤ s.cfg.cmd.length
  /-- The fault registers are 0 until a fault (R28). -/
  clear : s.runState ≠ .fault → s.cause = .none ∧ s.faultX = 0 ∧ s.faultY = 0 ∧ s.faultInfo = 0
  /-- After a fault CAUSE names it; FAULT_X and FAULT_Y are 0 but for E_RANGE; FAULT_INFO is 0 for E_RANGE and E_NOFONT, 0 or 1 for
  E_UNSET, and CMD_LEN for E_FETCH (R202). -/
  recorded : s.runState = .fault →
    s.cause ≠ .none ∧ (s.cause ≠ .range → s.faultX = 0 ∧ s.faultY = 0) ∧
      (s.cause = .range ∨ s.cause = .noFont → s.faultInfo = 0) ∧ (s.cause = .unset → s.faultInfo = 0 ∨ s.faultInfo = 1) ∧
      (s.cause = .fetch → s.faultInfo.toNat = s.cfg.cmd.length)
  /-- OUT_COUNT is the number of words in OUT (R23, R29), as long as that number fits the register. -/
  outCounted : s.out.length < 2 ^ 32 → s.outCount.toNat = s.out.length

/-! ## What a completed drawing command leaves -/

/-- A set of surface positions. -/
abbrev Region := Int → Int → Prop

/-- Every position of the region can be drawn in FG: FG is valid and the position is on the surface (R55, R57). -/
def Drawable (s : State) (P : Region) : Prop := ∀ x y, P x y → s.fgV = true ∧ inSurface s x y = true

/-- `t` is `s` after a completed command of `len` words that drew exactly the region `P` in FG: CP has advanced, the pixels of
the region hold FG, every other unit of FB is unchanged, and nothing else has changed. -/
def Painted (s t : State) (len : Nat) (P : Region) : Prop :=
  t = { s with fb := t.fb, cp := s.cp + BitVec.ofNat 32 len } ∧ t.fb.wf = true ∧
    (∀ x y, P x y → readFb t (pixIndex s x y) = s.fg) ∧
    ∀ a, (∀ x y, P x y → pixIndex s x y ≠ a) → readFb t a = readFb s a

/-- `u` is `s` after the pixel writes `l` (column, row, colour), and nothing else: each position holds its colour, every other unit of
FB is unchanged. -/
def Wrote (s u : State) (l : List (Int × Int × Pixel)) : Prop :=
  u = { s with fb := u.fb } ∧ u.fb.wf = true ∧ (∀ q ∈ l, readFb u (pixIndex s q.1 q.2.1) = q.2.2) ∧
    ∀ a, (∀ q ∈ l, pixIndex s q.1 q.2.1 ≠ a) → readFb u a = readFb s a

/-- `t` is `s` after a completed command of `len` words that emitted the words `ws`: OUT has grown by them and OUT_COUNT by their
number (as long as that fits its 32 bits; log entry 6), CP has advanced, and nothing else has changed. -/
def Emitted (s t : State) (len : Nat) (ws : List Word) : Prop :=
  t = { s with out := s.out ++ ws, outCount := t.outCount, cp := s.cp + BitVec.ofNat 32 len } ∧
    (s.outCount.toNat + ws.length < 2 ^ 32 → t.outCount = s.outCount + BitVec.ofNat 32 ws.length)

/-- `t` is `s` after a command that took a fault: CP, the DrawState, the font registers and the launch parameters keep their values;
the five registers of R206 are written, and pixels and output may have changed before the fault. -/
def FaultedFrom (s t : State) : Prop :=
  t = { s with
    fb := t.fb
    out := t.out
    outCount := t.outCount
    runState := .fault
    cause := t.cause
    faultX := t.faultX
    faultY := t.faultY
    faultInfo := t.faultInfo } ∧ t.cause ≠ .none

/-! ## The regions of the shapes -/

/-- The horizontal run of R140. -/
def HRun (x0 y0 : Int) (n : Nat) : Region := fun x y => y = y0 ∧ x0 ≤ x ∧ x < x0 + n

/-- The vertical run of R141. -/
def VRun (x0 y0 : Int) (n : Nat) : Region := fun x y => x = x0 ∧ y0 ≤ y ∧ y < y0 + n

/-- The minor offset at major offset `k` of a line with deltas `D` and `a`: k*a/D to the nearest integer, halves rounded down
(42_line.md R144(d)). -/
def minorOffset (D a k : Int) : Int := if D = 0 then 0 else (2 * k * a + D - 1) / (2 * D)

/-- The points (major u, minor v) of the walk from (us, vs) to (ue, ve), us <= ue (R144(c), (d)). -/
def WalkPoint (us vs ue ve u v : Int) : Prop :=
  us ≤ u ∧ u ≤ ue ∧ v = vs + (ve - vs).sign * minorOffset (ue - us) |ve - vs| (u - us)

/-- The points of a line along its major axis: the walk starts at the end with the smaller major coordinate (R143). -/
def MajorPoint (u1 v1 u2 v2 u v : Int) : Prop :=
  if u1 ≤ u2 then WalkPoint u1 v1 u2 v2 u v else WalkPoint u2 v2 u1 v1 u v

/-- The pixels of `Line(x1, y1, x2, y2)` in closed form (R143, R144). -/
def LineRegion (x1 y1 x2 y2 : Int) : Region := fun x y =>
  if |x2 - x1| ≥ |y2 - y1| then MajorPoint x1 y1 x2 y2 x y else MajorPoint y1 x1 y2 x2 y x

/-- The stroke of R151 and R156: each generated pair (u, v) mirrored into all octants, x offsets scaled by `sc`. -/
def StrokeRegion (cx cy : Int) (r : Nat) (sc : Int → Int) : Region := fun x y =>
  ∃ q ∈ octant r, (|x - cx| = sc q.1 ∧ |y - cy| = q.2) ∨ (|x - cx| = sc q.2 ∧ |y - cy| = q.1)

/-- The fill of R152 and R157: the spans between the mirrored extents, both included. -/
def FillRegion (cx cy : Int) (r : Nat) (sc : Int → Int) : Region := fun x y =>
  ∃ q ∈ octant r, (|y - cy| = q.2 ∧ |x - cx| ≤ sc q.1) ∨ (|y - cy| = q.1 ∧ |x - cx| ≤ sc q.2)

/-- The edge between two points, in either order, meets scanline `y` at the rounded-down column `v` (44_polygon.md R170). -/
def EdgeMeets (p q : Pt) (y v : Int) : Prop :=
  (p.2 < q.2 ∧ p.2 ≤ y ∧ y ≤ q.2 ∧ v = p.1 + ((q.1 - p.1) * (y - p.2)) / (q.2 - p.2)) ∨
    (q.2 < p.2 ∧ q.2 ≤ y ∧ y ≤ p.2 ∧ v = q.1 + ((p.1 - q.1) * (y - q.2)) / (p.2 - q.2))

/-- One of the triangle's three edges meets scanline `y` at column `v`. -/
def TriangleMeets (a b c : Pt) (y v : Int) : Prop := EdgeMeets a b y v ∨ EdgeMeets b c y v ∨ EdgeMeets a c y v

/-- The pixels of a filled triangle (R168, R171(d)): on each scanline from the first crossing of its edges to the last one; for
three points on one scanline, from the least to the greatest x. The order of the points plays no part in it. -/
def TriangleRegion (a b c : Pt) : Region := fun x y =>
  if a.2 = b.2 ∧ b.2 = c.2 then y = a.2 ∧ min (min a.1 b.1) c.1 ≤ x ∧ x ≤ max (max a.1 b.1) c.1
  else ∃ l r, TriangleMeets a b c y l ∧ TriangleMeets a b c y r ∧ l ≤ x ∧ x ≤ r

/-- Vertex `k` of a list, counted from 0, as integer coordinates. -/
def vertex (vs : List Point) (k : Nat) : Pt := ptOf (vs.getD k ⟨0, 0⟩)

/-- The closed outline: every vertex joined to the next, the last one to the first (R165); nothing for fewer than two. -/
def OutlineRegion (vs : List Point) : Region := fun x y =>
  2 ≤ vs.length ∧ ∃ k < vs.length,
    LineRegion (vertex vs k).1 (vertex vs k).2 (vertex vs ((k + 1) % vs.length)).1 (vertex vs ((k + 1) % vs.length)).2 x y

/-- The fan around the centre `m` (R166); nothing for fewer than three vertices. -/
def FanRegion (vs : List Point) (m : Pt) : Region := fun x y =>
  3 ≤ vs.length ∧ ∃ k < vs.length, TriangleRegion (vertex vs k) (vertex vs ((k + 1) % vs.length)) m x y

/-- `m` is the centre of the bounding box of the vertices, rounded down (R166). -/
def IsBoxCentre (vs : List Point) (m : Pt) : Prop :=
  ∃ xmin xmax ymin ymax, IsLeast {x | ∃ v ∈ vs, x = px v} xmin ∧ IsGreatest {x | ∃ v ∈ vs, x = px v} xmax ∧
    IsLeast {y | ∃ v ∈ vs, y = py v} ymin ∧ IsGreatest {y | ∃ v ∈ vs, y = py v} ymax ∧
    m = ((xmin + xmax) / 2, (ymin + ymax) / 2)

/-- One step of the incremental edge tracker (R172): `q0` and `r0` are the quotient and remainder of the edge's x difference by its
y difference `dy`; the pair is (X, acc). -/
def trackStep (q0 r0 dy : Int) (t : Int × Int) : Int × Int :=
  if t.2 + r0 ≥ dy then (t.1 + q0 + 1, t.2 + r0 - dy) else (t.1 + q0, t.2 + r0)

/-- The tracker after `k` scanlines from (X, acc) = (x, 0). -/
def track (q0 r0 dy x : Int) : Nat → Int × Int
  | 0 => (x, 0)
  | k + 1 => trackStep q0 r0 dy (track q0 r0 dy x k)

/-- The region that a command draws in FG, for the commands that draw in FG alone (files 42 to 44). -/
def foregroundRegion : Instr → Region
  | .hline p n => HRun (px p) (py p) n.toNat
  | .vline p n => VRun (px p) (py p) n.toNat
  | .line p q => LineRegion (px p) (py p) (px q) (py q)
  | .circle c r => StrokeRegion (px c) (py c) r.toNat id
  | .fcircle c r => FillRegion (px c) (py c) r.toNat id
  | .ellipse c rx ry => fun x y => rx ≠ 0 ∧ ry ≠ 0 ∧ StrokeRegion (px c) (py c) ry.toNat (fun t => t * rx.toNat / ry.toNat) x y
  | .fellipse c rx ry => fun x y => rx ≠ 0 ∧ ry ≠ 0 ∧ FillRegion (px c) (py c) ry.toNat (fun t => t * rx.toNat / ry.toNat) x y
  | .poly vs => OutlineRegion vs
  | .fpoly vs => fun x y => ∃ m, IsBoxCentre vs m ∧ FanRegion vs m x y
  | .ftri p q r => TriangleRegion (ptOf p) (ptOf q) (ptOf r)
  | _ => fun _ _ => False

/-! ## The positions of a shape in the order of its Plot calls (00_scope.md R10) -/

/-- `Span(x, y, n)` (20_memory.md R58). -/
def runOrder (x y : Int) (n : Nat) : List (Int × Int) := (List.range n).map fun i : Nat => (x + i, y)

/-- The vertical run (R141). -/
def columnOrder (x y : Int) (n : Nat) : List (Int × Int) := (List.range n).map fun i : Nat => (x, y + i)

/-- A walk along the major axis, (major, minor), from the end with the smaller major coordinate (R143, R144(d)). -/
def walkOrder (us vs ue ve : Int) : List (Int × Int) :=
  (List.range ((ue - us).toNat + 1)).map fun k : Nat => (us + k, vs + (ve - vs).sign * minorOffset (ue - us) |ve - vs| k)

/-- The points of a line along its major axis (R143). -/
def majorOrder (u1 v1 u2 v2 : Int) : List (Int × Int) := if u1 ≤ u2 then walkOrder u1 v1 u2 v2 else walkOrder u2 v2 u1 v1

/-- `Line(x1, y1, x2, y2)` (R143). -/
def lineOrder (x1 y1 x2 y2 : Int) : List (Int × Int) :=
  if |x2 - x1| ≥ |y2 - y1| then majorOrder x1 y1 x2 y2 else (majorOrder y1 x1 y2 x2).map fun q => (q.2, q.1)

/-- The eight positions of every generated pair (R151, R153, R156). -/
def strokeOrder (cx cy : Int) (r : Nat) (sc : Int → Int) : List (Int × Int) :=
  (octant r).flatMap fun q =>
    [(cx + sc q.1, cy - q.2), (cx - sc q.1, cy - q.2), (cx + sc q.2, cy - q.1), (cx - sc q.2, cy - q.1),
     (cx + sc q.1, cy + q.2), (cx - sc q.1, cy + q.2), (cx + sc q.2, cy + q.1), (cx - sc q.2, cy + q.1)]

/-- The four spans of every generated pair (R152, R154, R157). -/
def fillOrder (cx cy : Int) (r : Nat) (sc : Int → Int) : List (Int × Int) :=
  (octant r).flatMap fun q =>
    runOrder (cx - sc q.2) (cy + q.1) (2 * sc q.2 + 1).toNat ++ runOrder (cx - sc q.2) (cy - q.1) (2 * sc q.2 + 1).toNat ++
      runOrder (cx - sc q.1) (cy - q.2) (2 * sc q.1 + 1).toNat ++ runOrder (cx - sc q.1) (cy + q.2) (2 * sc q.1 + 1).toNat

/-- The column at which an edge that is not horizontal meets scanline `y`, if it does (R170). -/
def edgeColumns (p q : Pt) (y : Int) : List Int :=
  if p.2 < q.2 ∧ p.2 ≤ y ∧ y ≤ q.2 then [p.1 + ((q.1 - p.1) * (y - p.2)) / (q.2 - p.2)]
  else if q.2 < p.2 ∧ q.2 ≤ y ∧ y ≤ p.2 then [q.1 + ((p.1 - q.1) * (y - q.2)) / (p.2 - q.2)]
  else []

/-- The columns between which scanline `y` of a triangle is filled (R168, R171(d)). -/
def triangleColumns (a b c : Pt) (y : Int) : List Int :=
  if a.2 = b.2 ∧ b.2 = c.2 then [a.1, b.1, c.1] else edgeColumns a b y ++ edgeColumns b c y ++ edgeColumns a c y

/-- From the least to the greatest of some columns. -/
def betweenOrder (xs : List Int) (y : Int) : List (Int × Int) :=
  match xs with
  | [] => []
  | x :: t => runOrder (t.foldl min x) y (t.foldl max x - t.foldl min x + 1).toNat

/-- A filled triangle: scanlines from top to bottom, each from left to right (R168). -/
def triangleOrder (a b c : Pt) : List (Int × Int) :=
  let top := min (min a.2 b.2) c.2
  (List.range (max (max a.2 b.2) c.2 - top + 1).toNat).flatMap fun i : Nat => betweenOrder (triangleColumns a b c (top + i)) (top + i)

/-- The positions that a command plots in FG, in order, for the commands that draw in FG alone (files 42 to 44). -/
def plotOrder : Instr → List (Int × Int)
  | .hline p n => runOrder (px p) (py p) n.toNat
  | .vline p n => columnOrder (px p) (py p) n.toNat
  | .line p q => lineOrder (px p) (py p) (px q) (py q)
  | .circle c r => strokeOrder (px c) (py c) r.toNat id
  | .fcircle c r => fillOrder (px c) (py c) r.toNat id ++ strokeOrder (px c) (py c) r.toNat id
  | .ellipse c rx ry => if rx = 0 ∨ ry = 0 then [] else strokeOrder (px c) (py c) ry.toNat fun t => t * rx.toNat / ry.toNat
  | .fellipse c rx ry =>
    if rx = 0 ∨ ry = 0 then []
    else
      (fillOrder (px c) (py c) ry.toNat fun t => t * rx.toNat / ry.toNat) ++
        strokeOrder (px c) (py c) ry.toNat fun t => t * rx.toNat / ry.toNat
  | .poly vs =>
    if vs.length < 2 then []
    else
      (List.range vs.length).flatMap fun k =>
        lineOrder (vertex vs k).1 (vertex vs k).2 (vertex vs ((k + 1) % vs.length)).1 (vertex vs ((k + 1) % vs.length)).2
  | .fpoly vs =>
    if vs.length < 3 then []
    else
      (List.range vs.length).flatMap fun k =>
        triangleOrder (vertex vs k) (vertex vs ((k + 1) % vs.length)) (boxCentre (vs.map ptOf))
  | .ftri p q r => triangleOrder (ptOf p) (ptOf q) (ptOf r)
  | _ => []

/-! ## Glyphs and images -/

/-- Column `c` of row `r` of a glyph whose bytes are `byte`, `bpr` of them a row: bit `7 - (c mod 8)` of byte `c div 8` of the row
(45_glyph.md R181). -/
def glyphBit (byte : Nat → Byte) (bpr r c : Nat) : Bool := (byte (r * bpr + c / 8)).getLsbD (7 - c % 8)

/-- The colour of a glyph pixel (R182). -/
def glyphColour (s : State) (bit : Bool) : Pixel := if bit then s.fg else s.bg

/-- The colour of a glyph pixel has been set (R182, R57). -/
def glyphColourSet (s : State) (bit : Bool) : Prop := if bit then s.fgV = true else s.bgV = true

/-- The pixels of a glyph at (x, y) that come before row `r`, column `c`, in the order in which they are written: column, row, bit (R182). -/
def glyphDots (s : State) (x y : Int) (bit : Nat → Nat → Bool) (r c : Nat) : List (Int × Int × Bool) :=
  ((List.range r).flatMap fun j : Nat => (List.range s.fontW.toNat).map fun i : Nat => (x + i, y + j, bit j i)) ++
    (List.range c).map fun i : Nat => (x + i, y + r, bit r i)

/-- A glyph pixel can be drawn: its colour is set and its position is on the surface (R55, R57). -/
def DotDrawable (s : State) (q : Int × Int × Bool) : Prop := glyphColourSet s q.2.2 ∧ inSurface s q.1 q.2.1 = true

/-- Glyph pixels with their colours. -/
def dotColours (s : State) (l : List (Int × Int × Bool)) : List (Int × Int × Pixel) := l.map fun q => (q.1, q.2.1, glyphColour s q.2.2)

/-- The surface row of source row `j` of a block of `h` rows at row `y` (46_image.md R191). -/
def blockRow (d : Dir) (y : Int) (h j : Nat) : Int :=
  match d with
  | .dn => y + j
  | .up => y + h - 1 - j

/-- The position of element `k` of a block of `w` columns and `h` rows, row by row in the direction's order (R190, R193). -/
def blockPos (d : Dir) (p : Point) (w h k : Nat) : Int × Int := (px p + (k % w : Nat), blockRow d (py p) h (k / w))

/-- Every position of the rectangle with corner `p`, `w` columns and `h` rows is on the surface. -/
def RectOnSurface (s : State) (p : Point) (w h : Nat) : Prop :=
  ∀ j i : Nat, j < h → i < w → inSurface s (px p + i) (py p + j) = true

/-- The pixels of a rectangle, row by row in the direction's order, each row left to right (R190, R193). -/
def blockPixels (s : State) (d : Dir) (p : Point) (w h : Nat) : List Pixel :=
  (List.range h).flatMap fun j : Nat => (List.range w).map fun i : Nat => readFb s (pixIndex s (px p + i) (blockRow d (py p) h j))

/-- BLIT with a direction. -/
def blitInstr (d : Dir) (p : Point) (w h : Half) (l : List Half) : Instr :=
  match d with
  | .dn => .blitDn p w h l
  | .up => .blitUp p w h l

/-- READBACK with a direction. -/
def readbackInstr (d : Dir) (p : Point) (w h : Half) : Instr :=
  match d with
  | .dn => .readbackDn p w h
  | .up => .readbackUp p w h

/-- STRING with an alignment. -/
def stringInstr (a : Align) (p : Point) (d : List Byte) : Instr :=
  match a with
  | .left => .stringL p d
  | .center => .stringC p d
  | .right => .stringR p d

/-- The start column of a string (R185). -/
def stringStart (a : Align) (s : State) (p : Point) (n : Nat) : Int :=
  match a with
  | .left => px p
  | .center => px p + ((s.cfg.width : Int) - n * s.fontW.toNat) / 2
  | .right => ((s.cfg.width : Int) - n * s.fontW.toNat) - px p

/-- The column of character `i` of a string of `n` characters (R184, R185). -/
def stringCol (a : Align) (s : State) (p : Point) (n i : Nat) : Int := stringStart a s p n + (i : Int) * s.fontW.toNat

/-- Character `i` of a string of `n` is reached: it and every one before it fits within the surface width (R184). -/
def stringReached (a : Align) (s : State) (p : Point) (n i : Nat) : Prop :=
  i < n ∧ stringCol a s p n i + s.fontW.toNat ≤ s.cfg.width

/-- Where byte `j` of character `ch` stands in FONT (R186). -/
def fontIndex (s : State) (ch : Byte) (j : Nat) : Nat :=
  s.fontBase.toNat + (ch.toNat - 0x20) * (s.fontH.toNat * ((s.fontW.toNat + 7) / 8)) + j

/-- The bytes of character `ch` in the font table (R186). -/
def fontTableByte (s : State) (ch : Byte) (j : Nat) : Byte := s.cfg.font.read (fontIndex s ch j)

/-- The codes that the font contract covers (R184, R186). -/
def Printable (ch : Byte) : Prop := 0x20 ≤ ch.toNat ∧ ch.toNat ≤ 0x7E

/-- The bit of character `i` of a string at row `r`, column `c` of its glyph. -/
def stringBit (s : State) (d : List Byte) (i r c : Nat) : Bool :=
  glyphBit (fontTableByte s (d.getD i 0)) ((s.fontW.toNat + 7) / 8) r c

/-- The pixels of a string that come before row `r`, column `c` of character `k`, in the order in which they are written (R184). -/
def stringDots (a : Align) (s : State) (p : Point) (d : List Byte) (k r c : Nat) : List (Int × Int × Bool) :=
  ((List.range k).flatMap fun i : Nat => glyphDots s (stringCol a s p d.length i) (py p) (stringBit s d i) s.fontH.toNat 0) ++
    glyphDots s (stringCol a s p d.length k) (py p) (stringBit s d k) r c

/-- Everything that STRING does before row `r`, column `c` of character `k` goes through: the characters before have a glyph in FONT,
and every pixel before can be drawn. -/
def StringRunsTo (a : Align) (s : State) (p : Point) (d : List Byte) (k r c : Nat) : Prop :=
  (∀ i < k, Printable (d.getD i 0) ∧
    ∀ j < s.fontH.toNat * ((s.fontW.toNat + 7) / 8), fontIndex s (d.getD i 0) j < s.cfg.fontLen) ∧
  ∀ q ∈ stringDots a s p d k r c, DotDrawable s q

/-! ## Commands by what they do -/

/-- GETPIXEL and READBACK read the surface (R90). -/
def readsSurface : Instr → Bool
  | .getpixel _ => true
  | .readbackDn _ _ _ => true
  | .readbackUp _ _ _ => true
  | _ => false

/-- The packet ends in a packed run, whose unused tail is ignored (30_encoding.md R86, R87). -/
def endsInRun : Instr → Bool
  | .glyph _ _ => true
  | .stringL _ _ => true
  | .stringC _ _ => true
  | .stringR _ _ => true
  | .blitDn _ _ _ _ => true
  | .blitUp _ _ _ _ => true
  | _ => false

/-- The commands that write the foreground colour register (10_state.md R23, R24). -/
def setsForeground : Instr → Bool
  | .setfg _ => true
  | .setfgrgb _ _ _ => true
  | _ => false

/-- The commands that write the background colour register (R23, R25). -/
def setsBackground : Instr → Bool
  | .setbg _ => true
  | .setbgrgb _ _ _ => true
  | _ => false

/-- The command that writes the font registers (R23, R26). -/
def setsFont : Instr → Bool
  | .setfont _ _ _ => true
  | _ => false

/-- The commands that append to OUT (R29, 20_memory.md R50). -/
def emits : Instr → Bool
  | .getpixel _ => true
  | .readbackDn _ _ _ => true
  | .readbackUp _ _ _ => true
  | .fromrgb _ _ _ => true
  | .torgb _ => true
  | _ => false

/-- The commands that make no access to FB: "The setters, END, FROMRGB and TORGB make no FB access" (70_reset_and_hazards.md
R241), and those that only read it. -/
def leavesPixels : Instr → Bool
  | .endRun => true
  | .setfg _ => true
  | .setbg _ => true
  | .setfgrgb _ _ _ => true
  | .setbgrgb _ _ _ => true
  | .setfont _ _ _ => true
  | .fromrgb _ _ _ => true
  | .torgb _ => true
  | .getpixel _ => true
  | .readbackDn _ _ _ => true
  | .readbackUp _ _ _ => true
  | _ => false

/-- The commands and operands whose first access is a plot in FG (files 42 to 44; R215 lists the operands that draw nothing). -/
def startsInForeground : Instr → Bool
  | .hline _ n => n ≠ 0
  | .vline _ n => n ≠ 0
  | .line _ _ => true
  | .circle _ _ => true
  | .fcircle _ _ => true
  | .ellipse _ rx ry => rx ≠ 0 && ry ≠ 0
  | .fellipse _ rx ry => rx ≠ 0 && ry ≠ 0
  | .poly vs => decide (2 ≤ vs.length)
  | .fpoly vs => decide (3 ≤ vs.length)
  | .ftri _ _ _ => true
  | _ => false

/-- The colour field that a command checks before anything else (40_drawstate_and_color.md R121). -/
def colourField : Instr → Option Half
  | .setfg c => some c
  | .setbg c => some c
  | .torgb c => some c
  | .setpixel _ c => some c
  | .fill c => some c
  | _ => none

/-- A header breaks a requirement of R89: a modifier or an `n` that must be 0 (or in its range) is not. -/
def BreaksReserved (h : Word) : Prop :=
  let op := h.toNat / 16777216
  let m := h.toNat / 65536 % 256
  let n := h.toNat % 65536
  (op ∈ [0x00, 0x01, 0x02, 0x05, 0x09, 0x10, 0x11, 0x12, 0x20, 0x21, 0x22, 0x30, 0x31, 0x32, 0x33, 0x40, 0x41, 0x42, 0x50] ∧ m ≠ 0) ∨
    (op = 0x51 ∧ 2 < m) ∨ (op ∈ [0x60, 0x61] ∧ 1 < m) ∨
    (op ∈ [0x00, 0x05, 0x11, 0x22, 0x32, 0x33, 0x42, 0x60, 0x61] ∧ n ≠ 0)

/-- The opcode numbers of R88. -/
def assignedOpcodes : List Nat :=
  [0x00, 0x01, 0x02, 0x03, 0x04, 0x05, 0x08, 0x09, 0x10, 0x11, 0x12, 0x20, 0x21, 0x22, 0x30, 0x31, 0x32, 0x33, 0x40, 0x41,
   0x42, 0x50, 0x51, 0x60, 0x61]

/-- The step that finds `s` with STATE = RUN and legal launch parameters (R81). -/
def Running (s : State) : Prop := s.runState = .run ∧ launchOk s.cfg = true

/-- FromRGB for RGB565 as R113 writes it: red in bits 15:11, green in 10:5, blue in 4:0. -/
def nativeOfRgb (f : PixFmt) (r g b : Byte) : Pixel :=
  match f with
  | .rgb565 => r.extractLsb' 3 5 ++ g.extractLsb' 2 6 ++ b.extractLsb' 3 5
  | .pal8 => (Config.palFromRgb r g b).setWidth 16

/-- ToRGB as R114 writes it, in the word that R120 emits: 0x00, red, green, blue. -/
def rgbWordOfNative (f : PixFmt) (c : Pixel) : Word :=
  match f with
  | .rgb565 => 0#8 ++ (c.extractLsb' 11 5 ++ 0#3) ++ (c.extractLsb' 5 6 ++ 0#2) ++ (c.extractLsb' 0 5 ++ 0#3)
  | .pal8 => 0#8 ++ (Config.palToRgb (c.setWidth 8)).r ++ (Config.palToRgb (c.setWidth 8)).g ++ (Config.palToRgb (c.setWidth 8)).b

/-! ## Values that no run may depend on -/

/-- The state with every register whose valid bit is 0 at a fixed value: what remains is all that a rule may read (R31, R234). -/
def visible (s : State) : State :=
  { s with
    fg := if s.fgV then s.fg else 0
    bg := if s.bgV then s.bg else 0
    fontW := if s.fontV then s.fontW else 0
    fontH := if s.fontV then s.fontH else 0
    fontBase := if s.fontV then s.fontBase else 0 }

/-- The visible part of a step's outcome. -/
def visibleOutcome : Host.Outcome State Fault Refusal → Host.Outcome State Fault Refusal
  | .next s => .next (visible s)
  | .fault f => .fault f
  | .refused r => .refused r

end Sys2Proof.Machine
end

