-- ==== Sys2Proof/Certificates/Slice0/Obligations.lean ====
section
/-! DEFINITION. The statements for the provers. Each docstring names the rule of spec/ the statement formalises; OBLIGATIONS.json lists them. -/

open Sys2Proof Sys2Proof.Machine

/-! ## Encoding and the step rule -/

/-- R81 to R88: decoding the packet of a well-formed command gives the command back, whatever words follow it. -/
def Obligations.DecodeReadsBackEveryEncoding : Prop :=
  ∀ (hasRead : Bool) (i : Instr) (rest : List Word), i.wf = true → (readsSurface i = true → hasRead = true) →
    decode hasRead (encode i ++ rest) = .ok i

/-- R81, R85, R86, R87, R90: what the decoder accepts is a well-formed command whose packet lies inside the list; where no padded run ends the
packet, the packet's words are the encoder's. -/
def Obligations.DecodedCommandsAreWellFormed : Prop :=
  ∀ (hasRead : Bool) (ws : List Word) (i : Instr), decode hasRead ws = .ok i →
    i.wf = true ∧ (readsSurface i = true → hasRead = true) ∧ (encode i).length ≤ ws.length ∧
      (endsInRun i = false → encode i <+: ws)

/-- R102: the worked encodings, in both directions. -/
def Obligations.WorkedEncodingsAgree : Prop :=
  ∀ e ∈ ([(.endRun, [0x00000000]),
      (.setfg 0xF800, [0x0100F800]),
      (.setbgrgb 255 128 0, [0x04FF8000]),
      (.setfont 8 1 0, [0x05000000, 0x00010008, 0x00000000]),
      (.setpixel ⟨3, 2⟩ 0x07E0, [0x100007E0, 0x00020003]),
      (.hline ⟨BitVec.ofInt 16 (-1), 5⟩ 4, [0x20000004, 0x0005FFFF]),
      (.line ⟨0, 0⟩ ⟨5, 2⟩, [0x22000000, 0x00000000, 0x00020005]),
      (.circle ⟨8, 8⟩ 3, [0x30000003, 0x00080008]),
      (.ellipse ⟨10, 10⟩ 6 3, [0x32000000, 0x000A000A, 0x00030006]),
      (.poly [⟨2, 2⟩, ⟨6, 2⟩, ⟨6, 6⟩, ⟨2, 6⟩], [0x40000004, 0x00020002, 0x00020006, 0x00060006, 0x00060002]),
      (.ftri ⟨0, 0⟩ ⟨10, 0⟩ ⟨0, 10⟩, [0x42000000, 0x00000000, 0x0000000A, 0x000A0000]),
      (.glyph ⟨3, 1⟩ [0xF0], [0x50000001, 0x00010003, 0x000000F0]),
      (.stringC ⟨0, 0⟩ [0x48, 0x69], [0x51010002, 0x00000000, 0x00006948]),
      (.blitUp ⟨1, 1⟩ 2 2 [1, 2, 3, 4], [0x60010000, 0x00010001, 0x00020002, 0x00020001, 0x00040003]),
      (.readbackDn ⟨0, 0⟩ 2 1, [0x61000000, 0x00000000, 0x00010002])] : List (Instr × List Word)),
    encode e.1 = e.2 ∧ decode true e.2 = .ok e.1

/-- R90: an opcode that is not in the map, and a read command on a surface without a read path, raise E_ILLEGAL with the header
in FAULT_INFO; nothing else happens. -/
def Obligations.IllegalOpcodesFault : Prop :=
  ∀ (s : State) (h : Word), Running s → s.cfg.cmd[s.cp.toNat]? = some h →
    h.toNat / 16777216 ∉ assignedOpcodes ∨ (h.toNat / 16777216 ∈ [0x11, 0x61] ∧ s.cfg.hasRead = false) →
    step s = .next (takeFault .illegal 0 0 h.toNat s)

/-- R89: a header that breaks a reserved-field requirement raises E_ILLEGAL, whether or not its operand words are there. -/
def Obligations.ReservedFieldsFault : Prop :=
  ∀ (s : State) (h : Word), Running s → s.cfg.cmd[s.cp.toNat]? = some h → BreaksReserved h →
    step s = .next (takeFault .illegal 0 0 h.toNat s)

/-- R81 lines 1, 7 and 10: when the list ends before the packet of a command does (or before its header), the step raises
E_FETCH(CMD_LEN) and does nothing else. -/
def Obligations.CutPacketsRaiseFetch : Prop :=
  ∀ (s : State) (i : Instr) (k : Nat), Running s → i.wf = true → (readsSurface i = true → s.cfg.hasRead = true) →
    k < (encode i).length → s.cfg.cmd.drop s.cp.toNat = (encode i).take k →
    step s = .next (takeFault .fetch 0 0 s.cfg.cmd.length s)

/-- R81: a running engine's step is the meaning of the command that the words at CP decode to. -/
def Obligations.StepRunsTheDecodedCommand : Prop :=
  ∀ (s : State) (i : Instr), Running s → decode s.cfg.hasRead (s.cfg.cmd.drop s.cp.toNat) = .ok i →
    i.wf = true ∧ step s = exec i s

/-- R27: with STATE = HALT or FAULT the engine takes no step. That this is the model's named stuck outcome is the model's
choice, log entry 5. -/
def Obligations.StoppedEngineTakesNoStep : Prop :=
  ∀ s : State, (s.runState = .halt → step s = .fault .halted) ∧ (s.runState = .fault → step s = .fault .stopped)

/-- U19 of 93_implementation_defined.md: a running engine's step is refused exactly when W, H, CMD_LEN or FONT_LEN is outside its
range of R5 (log entry 8). -/
def Obligations.LaunchOutOfRangeIsRefused : Prop :=
  ∀ s : State, s.runState = .run →
    (step s = .refused .launchOutOfDomain ↔
      ¬(1 ≤ s.cfg.width ∧ s.cfg.width ≤ 32767 ∧ 1 ≤ s.cfg.height ∧ s.cfg.height ≤ 32767 ∧ s.cfg.cmd.length < 2 ^ 32 ∧
        s.cfg.fontLen ≤ 2 ^ 32))

/-! ## Reset and the invariant -/

/-- R31: the reset values the spec gives, for every launch parameter and pixel store. The last clause equates whole states, and so rests on
the model's choices beside R31 and R230: the colours and the font fields, which the spec leaves unspecified, are the model's 0 (log
entries 3 and 4), and a reset asserted while STATE = RUN falls between two steps and keeps FB as it is (log entry 10). -/
def Obligations.ResetLeavesTheListedValues : Prop :=
  (∀ (lp : Launch) (fb0 : Memory 16),
    let s := State.released lp fb0
    s.fgV = false ∧ s.bgV = false ∧ s.fontV = false ∧ s.cp = 0 ∧ s.runState = .run ∧ s.cause = .none ∧ s.faultX = 0 ∧ s.faultY = 0 ∧
      s.faultInfo = 0 ∧ s.out = [] ∧ s.outCount = 0 ∧ s.fb = fb0 ∧ s.cfg = lp) ∧
  ∀ s : State, assertReset s = State.released s.cfg s.fb

/-- R31, R5: the invariant holds when reset is released with legal launch parameters and a pixel store of W*H native pixels; and at
State.reset, whose launch parameters and pixels are the model's choice (log entries 1 and 2). -/
def Obligations.ReleasedStateMeetsTheInvariant : Prop :=
  (∀ (lp : Launch) (fb0 : Memory 16), launchOk lp = true → fb0.wf = true → (∀ a, lp.width * lp.height ≤ a → fb0.read a = 0) →
    (∀ a, (fb0.read a).toNat < 2 ^ lp.pixfmt.bpp) → Inv (State.released lp fb0)) ∧ Inv State.reset

/-- R21, R24, R25, R26, R28, R29, R202: every step keeps the invariant. -/
def Obligations.EveryStepKeepsTheInvariant : Prop :=
  ∀ s t : State, Inv s → step s = .next t → Inv t

/-- R21, R206: every command answers a next state; without a fault CP has advanced by the packet's length, with one it has kept
its value. -/
def Obligations.CommandPointerAdvancesOrStays : Prop :=
  ∀ (i : Instr) (s : State), i.wf = true → s.runState = .run →
    ∃ t, exec i s = .next t ∧
      ((t.runState = .fault ∧ t.cp = s.cp) ∨
        (t.runState ≠ .fault ∧ t.cp = s.cp + BitVec.ofNat 32 (encode i).length))

/-- R206: a command that takes a fault leaves CP, the DrawState, the font registers and the launch parameters as they were. -/
def Obligations.FaultEntryKeepsOtherRegisters : Prop :=
  ∀ (i : Instr) (s t : State), s.runState = .run → exec i s = .next t → t.runState = .fault → FaultedFrom s t

/-- R27, R28, R110: STATE leaves RUN only by END or by a fault, and without a fault the fault registers keep their values. -/
def Obligations.OnlyEndHalts : Prop :=
  ∀ (i : Instr) (s t : State), s.runState = .run → exec i s = .next t →
    (t.runState = .halt ↔ i = .endRun) ∧
      (t.runState ≠ .fault →
        t.cause = s.cause ∧ t.faultX = s.faultX ∧ t.faultY = s.faultY ∧ t.faultInfo = s.faultInfo)

/-- R24, R25, R26: the colours and the font change only by their setters, and a valid bit never falls. -/
def Obligations.DrawStateChangesOnlyBySetters : Prop :=
  ∀ (i : Instr) (s t : State), exec i s = .next t →
    (setsForeground i = false → t.fg = s.fg ∧ t.fgV = s.fgV) ∧
    (setsBackground i = false → t.bg = s.bg ∧ t.bgV = s.bgV) ∧
    (setsFont i = false → t.fontW = s.fontW ∧ t.fontH = s.fontH ∧ t.fontBase = s.fontBase ∧ t.fontV = s.fontV) ∧
    (s.fgV = true → t.fgV = true) ∧ (s.bgV = true → t.bgV = true) ∧ (s.fontV = true → t.fontV = true)

/-- R29, R59: OUT only grows, and only by the commands that emit. -/
def Obligations.OutputOnlyGrows : Prop :=
  ∀ (i : Instr) (s t : State), exec i s = .next t →
    s.out <+: t.out ∧ (emits i = false → t.out = s.out ∧ t.outCount = s.outCount)

/-- R50, R237: no step changes CMD, FONT or any other launch parameter. -/
def Obligations.LaunchParametersNeverChange : Prop :=
  ∀ s t : State, step s = .next t → t.cfg = s.cfg

/-- R55, R241: no command changes a unit outside the W*H pixels, and the setters, END and the emitters change none. -/
def Obligations.PixelsChangeOnlyOnTheSurface : Prop :=
  ∀ (i : Instr) (s t : State), s.fb.wf = true → exec i s = .next t →
    (∀ a, pixelCount s ≤ a → readFb t a = readFb s a) ∧ (leavesPixels i = true → t.fb = s.fb)

/-- R233: every run ends, within one step more than the words left in CMD: by END with CAUSE = 0, or by a fault with CAUSE in 1..7. -/
def Obligations.EveryRunEnds : Prop :=
  ∀ s : State, Inv s → s.runState = .run →
    ∃ k t, k ≤ s.cfg.cmd.length - s.cp.toNat + 1 ∧ Host.Core.run core k s = .next t ∧
      ((t.runState = .halt ∧ t.cause.code = 0) ∨ (t.runState = .fault ∧ 1 ≤ t.cause.code.toNat ∧ t.cause.code.toNat ≤ 7))

/-- R234: no unspecified value is ever read: two states that agree on all but registers whose valid bit is 0 take steps that
agree on all but such registers. -/
def Obligations.UnsetValuesAreNeverRead : Prop :=
  ∀ s s' : State, visible s = visible s' → visibleOutcome (step s) = visibleOutcome (step s')

/-! ## END, the setters and the ColorModel -/

/-- R110: END sets STATE to HALT; CP advances by its one word and nothing else changes. -/
def Obligations.EndHalts : Prop :=
  ∀ s : State, encode .endRun = [0x00000000] ∧ exec .endRun s = .next { s with runState := .halt, cp := s.cp + 1 }

/-- R111, R112, R121: SETFG and SETBG are one word each; they store a native colour and set its valid bit; a wider colour raises
E_OPERAND(n) and stores nothing. -/
def Obligations.ColourSettersStoreOrFault : Prop :=
  ∀ (c : Half) (s : State),
    encode (.setfg c) = [0x0100#16 ++ c] ∧ encode (.setbg c) = [0x0200#16 ++ c] ∧
    (c.toNat < 2 ^ s.cfg.pixfmt.bpp →
      exec (.setfg c) s = .next { s with fg := c, fgV := true, cp := s.cp + 1 } ∧
      exec (.setbg c) s = .next { s with bg := c, bgV := true, cp := s.cp + 1 }) ∧
    (2 ^ s.cfg.pixfmt.bpp ≤ c.toNat →
      exec (.setfg c) s = .next (takeFault .operand 0 0 c.toNat s) ∧ exec (.setbg c) s = .next (takeFault .operand 0 0 c.toNat s))

/-- R116, R117, with FromRGB as R113 writes it: SETFGRGB and SETBGRGB are one word each, store the converted colour and set its valid
bit in every state; none of them faults. -/
def Obligations.RgbSettersStoreTheConversion : Prop :=
  ∀ (r g b : Byte) (s : State),
    encode (.setfgrgb r g b) = [0x03#8 ++ r ++ g ++ b] ∧ encode (.setbgrgb r g b) = [0x04#8 ++ r ++ g ++ b] ∧
    exec (.setfgrgb r g b) s = .next { s with fg := nativeOfRgb s.cfg.pixfmt r g b, fgV := true, cp := s.cp + 1 } ∧
    exec (.setbgrgb r g b) s = .next { s with bg := nativeOfRgb s.cfg.pixfmt r g b, bgV := true, cp := s.cp + 1 }

/-- R118: SETFONT is three words; a legal size is stored with the base and the valid bit; an illegal one raises E_OPERAND(k[1]) and
stores nothing. -/
def Obligations.SetfontStoresOrFaults : Prop :=
  ∀ (width height : Half) (base : Word) (s : State),
    encode (.setfont width height base) = [0x05000000#32, height ++ width, base] ∧
    (1 ≤ width.toNat → width.toNat ≤ 24 → 1 ≤ height.toNat → height.toNat ≤ 255 →
      ∃ t, exec (.setfont width height base) s = .next t ∧ t.fontW.toNat = width.toNat ∧ t.fontH.toNat = height.toNat ∧
        t = { s with fontW := t.fontW, fontH := t.fontH, fontBase := base, fontV := true, cp := s.cp + 3 }) ∧
    (¬(1 ≤ width.toNat ∧ width.toNat ≤ 24 ∧ 1 ≤ height.toNat ∧ height.toNat ≤ 255) →
      exec (.setfont width height base) s = .next (takeFault .operand 0 0 (height.toNat * 65536 + width.toNat) s))

/-- R119, R120, with FromRGB and ToRGB as R113 and R114 write them: FROMRGB and TORGB are one word each; FROMRGB emits the native
value, TORGB of a native colour the channels' word; a wider colour raises E_OPERAND(n) and emits nothing. -/
def Obligations.ConversionsEmitTheirResult : Prop :=
  ∀ s : State,
    (∀ r g b : Byte, encode (.fromrgb r g b) = [0x08#8 ++ r ++ g ++ b] ∧
      ∃ t, exec (.fromrgb r g b) s = .next t ∧ Emitted s t 1 [(nativeOfRgb s.cfg.pixfmt r g b).setWidth 32]) ∧
    ∀ c : Half, encode (.torgb c) = [0x0900#16 ++ c] ∧
      (c.toNat < 2 ^ s.cfg.pixfmt.bpp → ∃ t, exec (.torgb c) s = .next t ∧ Emitted s t 1 [rgbWordOfNative s.cfg.pixfmt c]) ∧
      (2 ^ s.cfg.pixfmt.bpp ≤ c.toNat → exec (.torgb c) s = .next (takeFault .operand 0 0 c.toNat s))

/-- R121: a colour field that is no native value raises E_OPERAND with that value, before anything else. -/
def Obligations.WideColoursFault : Prop :=
  ∀ (i : Instr) (c : Half) (s : State), colourField i = some c → 2 ^ s.cfg.pixfmt.bpp ≤ c.toNat →
    exec i s = .next (takeFault .operand 0 0 c.toNat s)

/-- R115, for RGB565: (a) the round trip of a native value is exact; (b) the other one clears the low bits of each channel. -/
def Obligations.Rgb565RoundTrips : Prop :=
  (∀ c : Pixel, fromRgb .rgb565 (toRgb .rgb565 c) = c) ∧
  ∀ r g b : Byte,
    let t := toRgb .rgb565 (fromRgb .rgb565 ⟨r, g, b⟩)
    t.r.toNat = r.toNat - r.toNat % 8 ∧ t.g.toNat = g.toNat - g.toNat % 4 ∧ t.b.toNat = b.toNat - b.toNat % 8 ∧
      r.toNat - t.r.toNat ≤ 7 ∧ g.toNat - t.g.toNat ≤ 3 ∧ b.toNat - t.b.toNat ≤ 7

/-! ## The pixel surface -/

/-- R130: SETPIXEL is two words; of a native colour it writes that one pixel, or raises E_RANGE(x, y) outside the surface; a wider
colour raises E_OPERAND(n), wherever the pixel lies. -/
def Obligations.SetpixelWritesOnePixel : Prop :=
  ∀ (p : Point) (c : Half) (s : State), s.fb.wf = true →
    encode (.setpixel p c) = [0x1000#16 ++ c, p.y ++ p.x] ∧
    (c.toNat < 2 ^ s.cfg.pixfmt.bpp → inSurface s (px p) (py p) = true →
      ∃ t, exec (.setpixel p c) s = .next t ∧ t = { s with fb := t.fb, cp := s.cp + 2 } ∧
        ∀ a, readFb t a = if a = pixIndex s (px p) (py p) then c else readFb s a) ∧
    (c.toNat < 2 ^ s.cfg.pixfmt.bpp → inSurface s (px p) (py p) = false →
      exec (.setpixel p c) s = .next (takeFault .range (px p) (py p) 0 s)) ∧
    (2 ^ s.cfg.pixfmt.bpp ≤ c.toNat → exec (.setpixel p c) s = .next (takeFault .operand 0 0 c.toNat s))

/-- R131: GETPIXEL is two words; it emits the pixel, zero-extended, and changes no pixel; outside the surface it raises E_RANGE(x, y)
and emits nothing. That exec, applied directly without a read path, takes E_ILLEGAL with the header as the step rule does (R90) is the
model's choice, log entry 12. -/
def Obligations.GetpixelEmitsThePixel : Prop :=
  ∀ (p : Point) (s : State),
    encode (.getpixel p) = [0x11000000#32, p.y ++ p.x] ∧
    (s.cfg.hasRead = true → inSurface s (px p) (py p) = true →
      ∃ t, exec (.getpixel p) s = .next t ∧ Emitted s t 2 [(readFb s (pixIndex s (px p) (py p))).setWidth 32]) ∧
    (s.cfg.hasRead = true → inSurface s (px p) (py p) = false →
      exec (.getpixel p) s = .next (takeFault .range (px p) (py p) 0 s)) ∧
    (s.cfg.hasRead = false → exec (.getpixel p) s = .next (takeFault .illegal 0 0 0x11000000 s))

/-- R132: FILL is one word; of a native colour it makes every pixel hold it; a wider colour raises E_OPERAND(n) before any write. -/
def Obligations.FillWritesEveryPixel : Prop :=
  ∀ (c : Half) (s : State), s.fb.wf = true →
    encode (.fill c) = [0x1200#16 ++ c] ∧
    (c.toNat < 2 ^ s.cfg.pixfmt.bpp →
      ∃ t, exec (.fill c) s = .next t ∧ t = { s with fb := t.fb, cp := s.cp + 1 } ∧
        ∀ a, readFb t a = if a < pixelCount s then c else readFb s a) ∧
    (2 ^ s.cfg.pixfmt.bpp ≤ c.toNat → exec (.fill c) s = .next (takeFault .operand 0 0 c.toNat s))

/-! ## Lines -/

/-- R140: HLINE draws its run in FG. -/
def Obligations.HlineDrawsItsRun : Prop :=
  ∀ (p : Point) (n : Half) (s : State), s.fb.wf = true → Drawable s (HRun (px p) (py p) n.toNat) →
    ∃ t, exec (.hline p n) s = .next t ∧ Painted s t 2 (HRun (px p) (py p) n.toNat)

/-- R141: VLINE draws its run in FG. -/
def Obligations.VlineDrawsItsRun : Prop :=
  ∀ (p : Point) (n : Half) (s : State), s.fb.wf = true → Drawable s (VRun (px p) (py p) n.toNat) →
    ∃ t, exec (.vline p n) s = .next t ∧ Painted s t 2 (VRun (px p) (py p) n.toNat)

/-- R142, R143, R144(c), (d): LINE draws the pixels of its closed form, both endpoints among them. -/
def Obligations.LineDrawsTheRoundedWalk : Prop :=
  ∀ (p q : Point) (s : State), s.fb.wf = true → Drawable s (LineRegion (px p) (py p) (px q) (py q)) →
    ∃ t, exec (.line p q) s = .next t ∧ Painted s t 3 (LineRegion (px p) (py p) (px q) (py q)) ∧
      LineRegion (px p) (py p) (px q) (py q) (px p) (py p) ∧ LineRegion (px p) (py p) (px q) (py q) (px q) (py q)

/-- R144(a), (b): a line plots max(|x2-x1|, |y2-y1|) + 1 distinct pixels, and its endpoints may be exchanged in every state,
also when it faults. -/
def Obligations.LineCountAndSymmetry : Prop :=
  (∀ x1 y1 x2 y2 : Int,
    ((linePoints x1 y1 x2 y2).length : Int) = max |x2 - x1| |y2 - y1| + 1 ∧ (linePoints x1 y1 x2 y2).Nodup) ∧
  ∀ (p q : Point) (s : State), exec (.line p q) s = exec (.line q p) s

/-- R55, R140, R141, R203: a run that leaves the surface faults at its first pixel outside, with that pixel's coordinates; the pixels
before it stay written and CP keeps its value. -/
def Obligations.RunsFaultAtTheFirstPixelOutside : Prop :=
  ∀ (p : Point) (n : Half) (k : Nat) (s : State), s.fb.wf = true → s.fgV = true → k < n.toNat →
    (Drawable s (HRun (px p) (py p) k) → inSurface s (px p + k) (py p) = false →
      ∃ t u, exec (.hline p n) s = .next t ∧ t = takeFault .range (px p + k) (py p) 0 u ∧ Painted s u 0 (HRun (px p) (py p) k)) ∧
    (Drawable s (VRun (px p) (py p) k) → inSurface s (px p) (py p + k) = false →
      ∃ t u, exec (.vline p n) s = .next t ∧ t = takeFault .range (px p) (py p + k) 0 u ∧ Painted s u 0 (VRun (px p) (py p) k))

/-! ## Curves -/

/-- R150: what the octant generator produces: pair number k is (k, v); the first is (0, r); every pair has 0 <= u <= v <= r; v drops by
1 after pair k exactly when the decision variable 2(k+1)^2 + v^2 + (v-1)^2 - 2r^2 (its closed form) is not negative, and the list ends
exactly where u would exceed v; the u and the v together cover 0..r; and the bound r + 1 on its iterations is never what ends it. -/
def Obligations.OctantGeneratorFacts : Prop :=
  ∀ r : Nat,
    (octant r)[0]? = some (0, (r : Int)) ∧
    (∀ (k : Nat) (q : Int × Int), (octant r)[k]? = some q → q.1 = k ∧ 0 ≤ q.1 ∧ q.1 ≤ q.2 ∧ q.2 ≤ r) ∧
    (∀ (k : Nat) (v : Int), (octant r)[k]? = some ((k : Int), v) →
      let v' := if 0 ≤ 2 * ((k : Int) + 1) ^ 2 + v ^ 2 + (v - 1) ^ 2 - 2 * (r : Int) ^ 2 then v - 1 else v
      (octant r)[k + 1]? = if (k : Int) + 1 ≤ v' then some ((k : Int) + 1, v') else none) ∧
    (∀ j : Nat, j ≤ r → ∃ q ∈ octant r, q.1 = j ∨ q.2 = j) ∧
    ∀ extra : Nat, octantFrom (r + 1 + extra) 0 r (3 - 2 * r) = octant r

/-- R151, R153: CIRCLE draws its eight mirrored octants in FG. -/
def Obligations.CircleDrawsItsStroke : Prop :=
  ∀ (c : Point) (r : Half) (s : State), s.fb.wf = true → Drawable s (StrokeRegion (px c) (py c) r.toNat id) →
    ∃ t, exec (.circle c r) s = .next t ∧ Painted s t 2 (StrokeRegion (px c) (py c) r.toNat id)

/-- R152, R154: FCIRCLE draws its spans in FG; the outline adds no pixel. -/
def Obligations.FcircleDrawsItsFill : Prop :=
  ∀ (c : Point) (r : Half) (s : State), s.fb.wf = true → Drawable s (FillRegion (px c) (py c) r.toNat id) →
    ∃ t, exec (.fcircle c r) s = .next t ∧ Painted s t 2 (FillRegion (px c) (py c) r.toNat id) ∧
      ∀ x y, StrokeRegion (px c) (py c) r.toNat id x y → FillRegion (px c) (py c) r.toNat id x y

/-- R155, R156: ELLIPSE with radii above 0 draws the circle of radius ry with its x offsets scaled by rx/ry, rounded down. -/
def Obligations.EllipseDrawsItsStroke : Prop :=
  ∀ (c : Point) (rx ry : Half) (s : State), rx ≠ 0 → ry ≠ 0 → s.fb.wf = true →
    Drawable s (StrokeRegion (px c) (py c) ry.toNat fun t => t * rx.toNat / ry.toNat) →
    ∃ t, exec (.ellipse c rx ry) s = .next t ∧
      Painted s t 3 (StrokeRegion (px c) (py c) ry.toNat fun t => t * rx.toNat / ry.toNat)

/-- R155, R157: FELLIPSE with radii above 0 draws the spans between the scaled extents; the outline adds no pixel. -/
def Obligations.FellipseDrawsItsFill : Prop :=
  ∀ (c : Point) (rx ry : Half) (s : State), rx ≠ 0 → ry ≠ 0 → s.fb.wf = true →
    Drawable s (FillRegion (px c) (py c) ry.toNat fun t => t * rx.toNat / ry.toNat) →
    ∃ t, exec (.fellipse c rx ry) s = .next t ∧
      Painted s t 3 (FillRegion (px c) (py c) ry.toNat fun t => t * rx.toNat / ry.toNat)

/-- R156, corner cases: with rx = ry > 0 the ellipse's Plot calls are the circle's; only the packet's length differs. -/
def Obligations.EqualRadiiDrawTheCircle : Prop :=
  ∀ (c : Point) (r : Half) (s : State), r ≠ 0 →
    ∃ f : Flow State, exec (.circle c r) s = finish 2 f ∧ exec (.ellipse c r r) s = finish 3 f

/-! ## Polygons -/

/-- R167, R168, R171: FTRI draws its triangle in FG. -/
def Obligations.FtriDrawsItsTriangle : Prop :=
  ∀ (p q r : Point) (s : State), s.fb.wf = true → Drawable s (TriangleRegion (ptOf p) (ptOf q) (ptOf r)) →
    ∃ t, exec (.ftri p q r) s = .next t ∧ Painted s t 4 (TriangleRegion (ptOf p) (ptOf q) (ptOf r))

/-- R169, R171(d): the order of the three points in the packet does not matter, in any state. -/
def Obligations.FtriIgnoresVertexOrder : Prop :=
  ∀ (p q r : Point) (s : State),
    exec (.ftri p q r) s = exec (.ftri q p r) s ∧ exec (.ftri p q r) s = exec (.ftri p r q) s

/-- R172: the incremental tracker gives EdgeX at every scanline, and its accumulator the remainder. -/
def Obligations.EdgeTrackerGivesEdgeX : Prop :=
  ∀ (p q : Pt) (k : Nat), p.2 < q.2 →
    let dx := q.1 - p.1
    let dy := q.2 - p.2
    (track (dx / dy) (dx % dy) dy p.1 k).1 = edgeX p q (p.2 + k) ∧ (track (dx / dy) (dx % dy) dy p.1 k).2 = dx * k % dy

/-- R165: POLY draws the closed outline of its vertices. -/
def Obligations.PolyDrawsItsOutline : Prop :=
  ∀ (vs : List Point) (s : State), s.fb.wf = true → Drawable s (OutlineRegion vs) →
    ∃ t, exec (.poly vs) s = .next t ∧ Painted s t (1 + vs.length) (OutlineRegion vs)

/-- R166, R173: FPOLY draws the fan of triangles around the centre of the bounding box, whatever the polygon's shape. -/
def Obligations.FpolyDrawsItsFan : Prop :=
  ∀ (vs : List Point) (m : Pt) (s : State), IsBoxCentre vs m → s.fb.wf = true → Drawable s (FanRegion vs m) →
    ∃ t, exec (.fpoly vs) s = .next t ∧ Painted s t (1 + vs.length) (FanRegion vs m)

/-! ## Glyphs -/

/-- R180, R181, R182: GLYPH draws every pixel of its rectangle, FG for a set bit and BG for a clear one. -/
def Obligations.GlyphDrawsItsBits : Prop :=
  ∀ (p : Point) (d : List Byte) (s : State),
    let bpr := (s.fontW.toNat + 7) / 8
    let bit := glyphBit (fun j => d.getD j 0) bpr
    s.fontV = true → d.length = s.fontH.toNat * bpr → s.fb.wf = true → RectOnSurface s p s.fontW.toNat s.fontH.toNat →
    (∀ r c : Nat, r < s.fontH.toNat → c < s.fontW.toNat → glyphColourSet s (bit r c)) →
    ∃ t, exec (.glyph p d) s = .next t ∧
      t = { s with fb := t.fb, cp := s.cp + BitVec.ofNat 32 (2 + (d.length + 3) / 4) } ∧
      (∀ r c : Nat, r < s.fontH.toNat → c < s.fontW.toNat →
        readFb t (pixIndex s (px p + c) (py p + r)) = glyphColour s (bit r c)) ∧
      ∀ a, (∀ r c : Nat, r < s.fontH.toNat → c < s.fontW.toNat → pixIndex s (px p + c) (py p + r) ≠ a) → readFb t a = readFb s a

/-- R180, R184: GLYPH and STRING without a font raise E_NOFONT; GLYPH with a byte count that is not its font's raises E_OPERAND(n). -/
def Obligations.GlyphCommandsCheckTheFont : Prop :=
  ∀ (p : Point) (d : List Byte) (s : State),
    (s.fontV = false →
      exec (.glyph p d) s = .next (takeFault .noFont 0 0 0 s) ∧
      ∀ a, exec (stringInstr a p d) s = .next (takeFault .noFont 0 0 0 s)) ∧
    (s.fontV = true → d.length ≠ s.fontH.toNat * ((s.fontW.toNat + 7) / 8) →
      exec (.glyph p d) s = .next (takeFault .operand 0 0 d.length s))

/-- R184, R185, R186: STRING with each alignment draws the glyphs that fit, side by side from its start column, each pixel in FG for a
set bit and BG for a clear one, and stops before the first that does not fit. -/
def Obligations.StringDrawsTheGlyphsThatFit : Prop :=
  ∀ (a : Align) (p : Point) (d : List Byte) (s : State),
    let bpr := (s.fontW.toNat + 7) / 8
    let ch := fun i : Nat => d.getD i 0
    let bit := fun i : Nat => glyphBit (fontTableByte s (ch i)) bpr
    let reached := stringReached a s p d.length
    let col := stringCol a s p d.length
    s.fontV = true → s.fb.wf = true →
    (∀ i : Nat, reached i → 0x20 ≤ (ch i).toNat ∧ (ch i).toNat ≤ 0x7E) →
    (∀ i j : Nat, reached i → j < s.fontH.toNat * bpr →
      s.fontBase.toNat + ((ch i).toNat - 0x20) * (s.fontH.toNat * bpr) + j < s.cfg.fontLen) →
    (∀ i r c : Nat, reached i → r < s.fontH.toNat → c < s.fontW.toNat →
      inSurface s (col i + c) (py p + r) = true ∧ glyphColourSet s (bit i r c)) →
    ∃ t, exec (stringInstr a p d) s = .next t ∧
      t = { s with fb := t.fb, cp := s.cp + BitVec.ofNat 32 (2 + (d.length + 3) / 4) } ∧
      (∀ i r c : Nat, reached i → r < s.fontH.toNat → c < s.fontW.toNat →
        readFb t (pixIndex s (col i + c) (py p + r)) = glyphColour s (bit i r c)) ∧
      ∀ b, (∀ i r c : Nat, reached i → r < s.fontH.toNat → c < s.fontW.toNat → pixIndex s (col i + c) (py p + r) ≠ b) →
        readFb t b = readFb s b

/-- R184, R186, R203: a STRING that reaches character k, everything before having gone through, raises E_OPERAND(code) when its code is
outside 0x20..0x7E, and E_FONTADDR with the first of its byte indices outside FONT, once its row is fetched; the glyphs before it, and
the glyph's rows before that row, are drawn, every other unit reads as before, and nothing else changes. -/
def Obligations.StringFaultsAtABadCharacter : Prop :=
  ∀ (a : Align) (p : Point) (d : List Byte) (s : State) (k : Nat),
    let bpr := (s.fontW.toNat + 7) / 8
    let ch := d.getD k 0
    s.fontV = true → s.fb.wf = true → stringReached a s p d.length k →
    (¬Printable ch → StringRunsTo a s p d k 0 0 →
      ∃ u, exec (stringInstr a p d) s = .next (takeFault .operand 0 0 ch.toNat u) ∧ Wrote s u (dotColours s (stringDots a s p d k 0 0))) ∧
    ∀ j : Nat, Printable ch → j < s.fontH.toNat * bpr → (∀ i < j, fontIndex s ch i < s.cfg.fontLen) → s.cfg.fontLen ≤ fontIndex s ch j →
      StringRunsTo a s p d k (j / bpr) 0 →
      ∃ u, exec (stringInstr a p d) s = .next (takeFault .fontAddr 0 0 (fontIndex s ch j) u) ∧
        Wrote s u (dotColours s (stringDots a s p d k (j / bpr) 0))

/-- R184, R182, R57, R203, R204: a STRING whose first pixel that cannot be drawn is row r, column c of character k raises E_UNSET there
when its colour is not set (0 for FG, 1 for BG), else E_RANGE with its position; the pixels before it are drawn, every other unit reads
as before, and nothing else changes. -/
def Obligations.StringFaultsAtItsFirstBadPixel : Prop :=
  ∀ (a : Align) (p : Point) (d : List Byte) (s : State) (k r c : Nat),
    let bpr := (s.fontW.toNat + 7) / 8
    let bit := stringBit s d k r c
    let col := stringCol a s p d.length k
    let before := stringDots a s p d k r c
    s.fontV = true → s.fb.wf = true → stringReached a s p d.length k → Printable (d.getD k 0) → r < s.fontH.toNat → c < s.fontW.toNat →
    (∀ j < (r + 1) * bpr, fontIndex s (d.getD k 0) j < s.cfg.fontLen) → StringRunsTo a s p d k r c →
    (¬glyphColourSet s bit →
      ∃ u, exec (stringInstr a p d) s = .next (takeFault .unset 0 0 (if bit then 0 else 1) u) ∧ Wrote s u (dotColours s before)) ∧
    (glyphColourSet s bit → inSurface s (col + c) (py p + r) = false →
      ∃ u, exec (stringInstr a p d) s = .next (takeFault .range (col + c) (py p + r) 0 u) ∧ Wrote s u (dotColours s before))

/-! ## Images -/

/-- R190, R191: BLIT in each direction writes element j*w + i to column i of the row of source row j, and no other pixel. -/
def Obligations.BlitWritesItsBlock : Prop :=
  ∀ (d : Dir) (p : Point) (w h : Half) (l : List Half) (s : State), l.length = w.toNat * h.toNat → s.fb.wf = true →
    (∀ e ∈ l, e.toNat < 2 ^ s.cfg.pixfmt.bpp) → RectOnSurface s p w.toNat h.toNat →
    ∃ t, exec (blitInstr d p w h l) s = .next t ∧
      t = { s with fb := t.fb, cp := s.cp + BitVec.ofNat 32 (3 + (w.toNat * h.toNat + 1) / 2) } ∧
      (∀ j i : Nat, j < h.toNat → i < w.toNat →
        readFb t (pixIndex s (px p + i) (blockRow d (py p) h.toNat j)) = l.getD (j * w.toNat + i) 0) ∧
      ∀ a, (∀ j i : Nat, j < h.toNat → i < w.toNat → pixIndex s (px p + i) (py p + j) ≠ a) → readFb t a = readFb s a

/-- R193: READBACK in each direction emits the pixels of its block, two to a word, and changes no pixel. That exec, applied directly
without a read path, takes E_ILLEGAL with the header as the step rule does (R90) is the model's choice, log entry 12. -/
def Obligations.ReadbackEmitsItsBlock : Prop :=
  ∀ (d : Dir) (p : Point) (w h : Half) (s : State),
    (s.cfg.hasRead = true → RectOnSurface s p w.toNat h.toNat →
      ∃ t, exec (readbackInstr d p w h) s = .next t ∧ Emitted s t 3 (packHalfRun (blockPixels s d p w.toNat h.toNat))) ∧
    (s.cfg.hasRead = false →
      ∃ header, encode (readbackInstr d p w h) = header :: [packPoint p, packHalves w h] ∧
        exec (readbackInstr d p w h) s = .next (takeFault .illegal 0 0 header.toNat s))

/-- R194: (a) READBACK after BLIT emits the BLIT's data words; (b) BLIT of the run that READBACK emitted changes nothing but CP; (c) the other
direction emits the same rows in reverse order. -/
def Obligations.BlitAndReadbackAreInverse : Prop :=
  ∀ (d : Dir) (p : Point) (w h : Half) (s : State), s.cfg.hasRead = true → s.fb.wf = true → RectOnSurface s p w.toNat h.toNat →
    (∀ l : List Half, l.length = w.toNat * h.toNat → (∀ e ∈ l, e.toNat < 2 ^ s.cfg.pixfmt.bpp) →
      ∃ t u, exec (blitInstr d p w h l) s = .next t ∧ exec (readbackInstr d p w h) t = .next u ∧ Emitted t u 3 (packHalfRun l) ∧
        u.out = s.out ++ packHalfRun l) ∧
    ((∀ a, native s (readFb s a)) → ∃ t q, exec (readbackInstr d p w h) s = .next t ∧ t.out = s.out ++ packHalfRun q ∧
      q.length = w.toNat * h.toNat ∧
      exec (blitInstr d p w h q) s = .next { s with cp := s.cp + BitVec.ofNat 32 (3 + (w.toNat * h.toNat + 1) / 2) }) ∧
    ∃ t u qd qu, exec (readbackInstr .dn p w h) s = .next t ∧ t.out = s.out ++ packHalfRun qd ∧ qd.length = w.toNat * h.toNat ∧
      exec (readbackInstr .up p w h) s = .next u ∧ u.out = s.out ++ packHalfRun qu ∧ qu.length = w.toNat * h.toNat ∧
      ∀ j i : Nat, j < h.toNat → i < w.toNat → qu[j * w.toNat + i]? = qd[(h.toNat - 1 - j) * w.toNat + i]?

/-! ## Inputs that fault at once, and inputs that never fault -/

/-- R57, R202: a command that starts by drawing in FG raises E_UNSET(0) while FG_V = 0, wherever its pixels lie. -/
def Obligations.UnsetForegroundFaults : Prop :=
  ∀ (i : Instr) (s : State), startsInForeground i = true → s.fgV = false → exec i s = .next (takeFault .unset 0 0 0 s)

/-- R54, R55, R57, R203, with the orders of R58, R141, R143, R151 to R154, R165, R166, R168: the Plot calls of a command that draws in FG
alone cover its region; with FG set, when a position of the region is outside the surface, the command raises E_RANGE at the first
such Plot call; the positions before it hold FG, every other unit reads as before, and nothing else changes. -/
def Obligations.ShapesFaultOffTheSurface : Prop :=
  (∀ (i : Instr) (x y : Int), foregroundRegion i x y ↔ (x, y) ∈ plotOrder i) ∧
  ∀ (i : Instr) (s : State), s.fb.wf = true → s.fgV = true → (∃ x y, foregroundRegion i x y ∧ inSurface s x y = false) →
    ∃ (l m : List (Int × Int)) (q : Int × Int) (u : State),
      plotOrder i = l ++ q :: m ∧ (∀ q' ∈ l, inSurface s q'.1 q'.2 = true) ∧ inSurface s q.1 q.2 = false ∧
      exec i s = .next (takeFault .range q.1 q.2 0 u) ∧ Painted s u 0 fun x y => (x, y) ∈ l

/-- R180, R182, R57, R203, R204: a GLYPH whose first pixel, in row-major order, that cannot be drawn is row r, column c raises E_UNSET there
when its colour is not set (0 for FG, 1 for BG), else E_RANGE with its position; the pixels before it are drawn, every other unit reads
as before, and nothing else changes. -/
def Obligations.GlyphFaultsAtItsFirstPixel : Prop :=
  ∀ (p : Point) (d : List Byte) (s : State) (r c : Nat),
    let bpr := (s.fontW.toNat + 7) / 8
    let bit := glyphBit (fun j => d.getD j 0) bpr
    let before := glyphDots s (px p) (py p) bit r c
    s.fontV = true → s.fb.wf = true → d.length = s.fontH.toNat * bpr → r < s.fontH.toNat → c < s.fontW.toNat →
    (∀ q ∈ before, DotDrawable s q) →
    (¬glyphColourSet s (bit r c) →
      ∃ u, exec (.glyph p d) s = .next (takeFault .unset 0 0 (if bit r c then 0 else 1) u) ∧ Wrote s u (dotColours s before)) ∧
    (glyphColourSet s (bit r c) → inSurface s (px p + c) (py p + r) = false →
      ∃ u, exec (.glyph p d) s = .next (takeFault .range (px p + c) (py p + r) 0 u) ∧ Wrote s u (dotColours s before))

/-- R190, R193, R203, R204: a BLIT whose first element that cannot be written is element k raises E_OPERAND with it when it is no native
colour, wherever it lies, else E_RANGE with its position, and the elements before it are written; a READBACK whose first position
outside the surface is that of element k raises E_RANGE there, having emitted the pairs completed before it and not the element held
alone; nothing else changes. -/
def Obligations.BlocksFaultAtTheirFirstElement : Prop :=
  ∀ (d : Dir) (p : Point) (w h : Half) (s : State) (k : Nat),
    let pos := blockPos d p w.toNat h.toNat
    k < w.toNat * h.toNat → (∀ i < k, inSurface s (pos i).1 (pos i).2 = true) →
    (∀ l : List Half, s.fb.wf = true → k < l.length → (∀ i < k, (l.getD i 0).toNat < 2 ^ s.cfg.pixfmt.bpp) →
      let before := (List.range k).map fun i : Nat => ((pos i).1, (pos i).2, l.getD i 0)
      (2 ^ s.cfg.pixfmt.bpp ≤ (l.getD k 0).toNat →
        ∃ u, exec (blitInstr d p w h l) s = .next (takeFault .operand 0 0 (l.getD k 0).toNat u) ∧ Wrote s u before) ∧
      ((l.getD k 0).toNat < 2 ^ s.cfg.pixfmt.bpp → inSurface s (pos k).1 (pos k).2 = false →
        ∃ u, exec (blitInstr d p w h l) s = .next (takeFault .range (pos k).1 (pos k).2 0 u) ∧ Wrote s u before)) ∧
    (s.cfg.hasRead = true → inSurface s (pos k).1 (pos k).2 = false →
      ∃ u, exec (readbackInstr d p w h) s = .next (takeFault .range (pos k).1 (pos k).2 0 u) ∧
        Emitted s u 0 (packHalfRun ((blockPixels s d p w.toNat h.toNat).take (2 * (k / 2)))))

/-- R140, R141, R158, R165, R166, R190, R193, R215: the degenerate inputs draw nothing, check nothing and complete. -/
def Obligations.DegenerateInputsComplete : Prop :=
  ∀ (p : Point) (a : Half) (vs : List Point) (d : Dir) (s : State),
    exec (.hline p 0) s = .next { s with cp := s.cp + 2 } ∧
    exec (.vline p 0) s = .next { s with cp := s.cp + 2 } ∧
    exec (.ellipse p 0 a) s = .next { s with cp := s.cp + 3 } ∧
    exec (.ellipse p a 0) s = .next { s with cp := s.cp + 3 } ∧
    exec (.fellipse p 0 a) s = .next { s with cp := s.cp + 3 } ∧
    exec (.fellipse p a 0) s = .next { s with cp := s.cp + 3 } ∧
    (vs.length < 2 → exec (.poly vs) s = .next { s with cp := s.cp + BitVec.ofNat 32 (1 + vs.length) }) ∧
    (vs.length < 3 → exec (.fpoly vs) s = .next { s with cp := s.cp + BitVec.ofNat 32 (1 + vs.length) }) ∧
    exec (blitInstr d p 0 a []) s = .next { s with cp := s.cp + 3 } ∧
    exec (blitInstr d p a 0 []) s = .next { s with cp := s.cp + 3 } ∧
    (s.cfg.hasRead = true →
      exec (readbackInstr d p 0 a) s = .next { s with cp := s.cp + 3 } ∧
      exec (readbackInstr d p a 0) s = .next { s with cp := s.cp + 3 })
end

