-- ==== Sys2Proof/Laws/Bits.lean ====
section
/-! SUPPORT. Packing and unpacking of words: what each field of a packed word reads as (spec 30_encoding.md R82, R83, R86, R87). -/

namespace Sys2Proof

theorem lo16_toNat (w : Word) : (lo16 w).toNat = w.toNat % 65536 := by
  simp [lo16, BitVec.extractLsb'_toNat]

theorem hi16_toNat (w : Word) : (hi16 w).toNat = w.toNat / 65536 := by
  have := w.isLt
  simp only [hi16, BitVec.extractLsb'_toNat, Nat.shiftRight_eq_div_pow]
  omega

theorem byteOf_toNat (w : Word) (i : Nat) : (byteOf w i).toNat = w.toNat / 2 ^ (8 * i) % 256 := by
  simp [byteOf, BitVec.extractLsb'_toNat, Nat.shiftRight_eq_div_pow]

@[simp] theorem lo16_packHalves (a b : Half) : lo16 (packHalves a b) = a := by
  apply BitVec.eq_of_toNat_eq
  have := a.isLt; have := b.isLt
  rw [lo16_toNat]
  simp only [packHalves, BitVec.toNat_ofNat]
  omega

@[simp] theorem hi16_packHalves (a b : Half) : hi16 (packHalves a b) = b := by
  apply BitVec.eq_of_toNat_eq
  have := a.isLt; have := b.isLt
  rw [hi16_toNat]
  simp only [packHalves, BitVec.toNat_ofNat]
  omega

/-- A word is the packing of its two halves. -/
@[simp] theorem packHalves_lo16_hi16 (w : Word) : packHalves (lo16 w) (hi16 w) = w := by
  apply BitVec.eq_of_toNat_eq
  have := w.isLt
  simp only [packHalves, BitVec.toNat_ofNat, lo16_toNat, hi16_toNat]
  omega

@[simp] theorem pointOf_packPoint (p : Point) : pointOf (packPoint p) = p := by
  simp [pointOf, packPoint]

@[simp] theorem packPoint_pointOf (w : Word) : packPoint (pointOf w) = w := by
  simp [pointOf, packPoint]

@[simp] theorem bytesOf_packBytes (a b c d : Byte) : bytesOf (packBytes a b c d) = [a, b, c, d] := by
  have := a.isLt; have := b.isLt; have := c.isLt; have := d.isLt
  simp only [bytesOf, List.cons.injEq, and_true]
  refine ⟨?_, ?_, ?_, ?_⟩ <;> apply BitVec.eq_of_toNat_eq <;> rw [byteOf_toNat] <;>
    simp only [packBytes, BitVec.toNat_ofNat, Nat.reduceMul, Nat.reducePow] <;> omega

@[simp] theorem halvesOf_packHalves (a b : Half) : halvesOf (packHalves a b) = [a, b] := by
  simp [halvesOf]

@[simp] theorem opField_headerH (op : Opcode) (m : Byte) (n : Half) : opField (headerH op m n) = opByte op := by
  apply BitVec.eq_of_toNat_eq
  have := (opByte op).isLt; have := m.isLt; have := n.isLt
  simp only [opField, byteOf_toNat, headerH, BitVec.toNat_ofNat, Nat.reduceMul, Nat.reducePow]
  omega

@[simp] theorem mField_headerH (op : Opcode) (m : Byte) (n : Half) : mField (headerH op m n) = m := by
  apply BitVec.eq_of_toNat_eq
  have := (opByte op).isLt; have := m.isLt; have := n.isLt
  simp only [mField, byteOf_toNat, headerH, BitVec.toNat_ofNat, Nat.reduceMul, Nat.reducePow]
  omega

@[simp] theorem nField_headerH (op : Opcode) (m : Byte) (n : Half) : nField (headerH op m n) = n := by
  apply BitVec.eq_of_toNat_eq
  have := (opByte op).isLt; have := m.isLt; have := n.isLt
  simp only [nField, lo16_toNat, headerH, BitVec.toNat_ofNat]
  omega

@[simp] theorem opField_headerC (op : Opcode) (r g b : Byte) : opField (headerC op r g b) = opByte op := by
  apply BitVec.eq_of_toNat_eq
  have := (opByte op).isLt; have := r.isLt; have := g.isLt; have := b.isLt
  simp only [opField, byteOf_toNat, headerC, BitVec.toNat_ofNat, Nat.reduceMul, Nat.reducePow]
  omega

@[simp] theorem red_headerC (op : Opcode) (r g b : Byte) : byteOf (headerC op r g b) 2 = r := by
  apply BitVec.eq_of_toNat_eq
  have := (opByte op).isLt; have := r.isLt; have := g.isLt; have := b.isLt
  simp only [byteOf_toNat, headerC, BitVec.toNat_ofNat, Nat.reduceMul, Nat.reducePow]
  omega

@[simp] theorem green_headerC (op : Opcode) (r g b : Byte) : byteOf (headerC op r g b) 1 = g := by
  apply BitVec.eq_of_toNat_eq
  have := (opByte op).isLt; have := r.isLt; have := g.isLt; have := b.isLt
  simp only [byteOf_toNat, headerC, BitVec.toNat_ofNat, Nat.reduceMul, Nat.reducePow]
  omega

@[simp] theorem blue_headerC (op : Opcode) (r g b : Byte) : byteOf (headerC op r g b) 0 = b := by
  apply BitVec.eq_of_toNat_eq
  have := (opByte op).isLt; have := r.isLt; have := g.isLt; have := b.isLt
  simp only [byteOf_toNat, headerC, BitVec.toNat_ofNat, Nat.reduceMul, Nat.reducePow]
  omega

/-- A header is the format H header of its fields. -/
theorem headerH_fields (op : Opcode) (h : Word) (ho : opField h = opByte op) : headerH op (mField h) (nField h) = h := by
  apply BitVec.eq_of_toNat_eq
  have h1 := congrArg BitVec.toNat ho
  have := h.isLt
  simp only [opField, byteOf_toNat, Nat.reduceMul, Nat.reducePow] at h1
  simp only [headerH, BitVec.toNat_ofNat, mField, nField, lo16_toNat, byteOf_toNat, Nat.reduceMul, Nat.reducePow, ← h1]
  omega

/-- A header is the format C header of its fields. -/
theorem headerC_fields (op : Opcode) (h : Word) (ho : opField h = opByte op) :
    headerC op (byteOf h 2) (byteOf h 1) (byteOf h 0) = h := by
  apply BitVec.eq_of_toNat_eq
  have h1 := congrArg BitVec.toNat ho
  have := h.isLt
  simp only [opField, byteOf_toNat, Nat.reduceMul, Nat.reducePow] at h1
  simp only [headerC, BitVec.toNat_ofNat, byteOf_toNat, Nat.reduceMul, Nat.reducePow, ← h1]
  omega

@[simp] theorem opcodeOf_opByte (op : Opcode) : opcodeOf (opByte op) = some op := by
  cases op <;> rfl

/-- Each opcode number stands for one command. -/
theorem opByte_of_opcodeOf (b : Byte) (op : Opcode) (h : opcodeOf b = some op) : opByte op = b := by
  apply BitVec.eq_of_toNat_eq
  unfold opcodeOf at h
  split at h <;> first | (cases h; rename_i hb; rw [hb]; rfl) | cases h

/-- The words hold `n` more exactly when the list is that long. -/
theorem hasWords_iff {α : Type} : ∀ (l : List α) (n : Nat), hasWords l n = true ↔ n ≤ l.length
  | [], 0 => by simp [hasWords]
  | [], n + 1 => by simp [hasWords]
  | _ :: _, 0 => by simp [hasWords]
  | _ :: t, n + 1 => by simp [hasWords, hasWords_iff t n]

@[simp] theorem length_packByteRun : ∀ d : List Byte, (packByteRun d).length = ceil4 d.length
  | [] => by simp [packByteRun, ceil4]
  | [_] => by simp [packByteRun, ceil4]
  | [_, _] => by simp [packByteRun, ceil4]
  | [_, _, _] => by simp [packByteRun, ceil4]
  | _ :: _ :: _ :: _ :: t => by
    simp only [packByteRun, List.length_cons, length_packByteRun t, ceil4]
    omega

@[simp] theorem length_packHalfRun : ∀ d : List Half, (packHalfRun d).length = ceil2 d.length
  | [] => by simp [packHalfRun, ceil2]
  | [_] => by simp [packHalfRun, ceil2]
  | _ :: _ :: t => by
    simp only [packHalfRun, List.length_cons, length_packHalfRun t, ceil2]
    omega

theorem take_bytes_packByteRun : ∀ d : List Byte, ((packByteRun d).flatMap bytesOf).take d.length = d
  | [] => rfl
  | [_] => by simp [packByteRun]
  | [_, _] => by simp [packByteRun]
  | [_, _, _] => by simp [packByteRun]
  | _ :: _ :: _ :: _ :: t => by simp [packByteRun, take_bytes_packByteRun t]

theorem take_halves_packHalfRun : ∀ d : List Half, ((packHalfRun d).flatMap halvesOf).take d.length = d
  | [] => rfl
  | [_] => by simp [packHalfRun]
  | _ :: _ :: t => by simp [packHalfRun, take_halves_packHalfRun t]

/-- A B4 run that was packed reads back as its bytes, whatever words follow it. -/
theorem byteRun_packByteRun (d : List Byte) (rest : List Word) : byteRun d.length (packByteRun d ++ rest) = d := by
  have h : (packByteRun d ++ rest).take (ceil4 d.length) = packByteRun d := by
    rw [← length_packByteRun d, List.take_left']
    rfl
  rw [byteRun, h, take_bytes_packByteRun]

/-- A P2 run that was packed reads back as its elements, whatever words follow it. -/
theorem halfRun_packHalfRun (d : List Half) (rest : List Word) : halfRun d.length (packHalfRun d ++ rest) = d := by
  have h : (packHalfRun d ++ rest).take (ceil2 d.length) = packHalfRun d := by
    rw [← length_packHalfRun d, List.take_left']
    rfl
  rw [halfRun, h, take_halves_packHalfRun]

/-- A run of points that was packed reads back as its points, whatever words follow it. -/
theorem pointRun_packPoints (vs : List Point) (rest : List Word) : pointRun vs.length (vs.map packPoint ++ rest) = vs := by
  have h : (vs.map packPoint ++ rest).take vs.length = vs.map packPoint := by
    rw [List.take_left']
    simp
  simp [pointRun, h, Function.comp_def]

theorem countField_toNat {α : Type} (l : List α) (h : countOk l = true) : (countField l).toNat = l.length := by
  have h : l.length ≤ 65535 := of_decide_eq_true h
  simp only [countField, BitVec.toNat_ofNat]
  omega

/-! ## The encoder's words as concatenations (R6, R82, R83) -/

theorem ofNat_eq_append {m n : Nat} (a : BitVec m) (b : BitVec n) (k : Nat) (h : k = a.toNat * 2 ^ n + b.toNat) :
    BitVec.ofNat (m + n) k = a ++ b := by
  have e : (a ++ b).toNat = a.toNat * 2 ^ n + b.toNat := by
    rw [BitVec.toNat_append, ← Nat.shiftLeft_add_eq_or_of_lt b.isLt, Nat.shiftLeft_eq]
  refine BitVec.eq_of_toNat_eq ?_
  rw [BitVec.toNat_ofNat, h, ← e]
  exact Nat.mod_eq_of_lt (BitVec.isLt _)

theorem packHalves_eq_append (lo hi : Half) : packHalves lo hi = hi ++ lo :=
  ofNat_eq_append (m := 16) (n := 16) hi lo _ rfl

theorem headerH_eq_append (op : Opcode) (m : Byte) (n : Half) : headerH op m n = (opByte op ++ m) ++ n := by
  refine ofNat_eq_append (m := 16) (n := 16) (opByte op ++ m) n _ ?_
  rw [← ofNat_eq_append (m := 8) (n := 8) (opByte op) m _ rfl, BitVec.toNat_ofNat]
  have := (opByte op).isLt
  have := m.isLt
  omega

theorem headerC_eq_append (op : Opcode) (r g b : Byte) : headerC op r g b = opByte op ++ r ++ g ++ b := by
  refine ofNat_eq_append (m := 24) (n := 8) (opByte op ++ r ++ g) b _ ?_
  rw [← ofNat_eq_append (m := 16) (n := 8) (opByte op ++ r) g _ rfl,
    ← ofNat_eq_append (m := 8) (n := 8) (opByte op) r _ rfl]
  simp only [BitVec.toNat_ofNat]
  have := (opByte op).isLt
  have := r.isLt
  have := g.isLt
  omega

end Sys2Proof
end

