-- ==== Sys2Proof/Laws/Flow.lean ====
section
/-! SUPPORT. What a piece of a command can leave, said once for sequences and loops: a property of the states it passes through, and
that a counted loop is a loop over the list of its indices (spec 00_scope.md R10, 60_exceptions.md R201, R203). -/

namespace Sys2Proof.Machine

/-- Everything the flow can leave: `ok` values satisfy `R`, the state after a fault entry satisfies `E`. -/
def Leaves {α : Type} (R : α → Prop) (E : State → Prop) : Flow α → Prop
  | .ok a => R a
  | .error e => E e

@[simp] theorem leaves_ok {α : Type} {R : α → Prop} {E : State → Prop} {a : α} : Leaves R E (.ok a) = R a := rfl

@[simp] theorem leaves_error {α : Type} {R : α → Prop} {E : State → Prop} {e : State} :
    Leaves R E (.error e : Flow α) = E e := rfl

theorem Leaves.mono {α : Type} {R R' : α → Prop} {E E' : State → Prop} {f : Flow α} (h : Leaves R E f)
    (hR : ∀ a, R a → R' a) (hE : ∀ e, E e → E' e) : Leaves R' E' f := by
  cases f with
  | ok a => exact hR a h
  | error e => exact hE e h

theorem leaves_andThen {α : Type} {R R' : α → Prop} {E : State → Prop} {f : Flow α} {g : α → Flow α} (hf : Leaves R E f)
    (hg : ∀ a, R a → Leaves R' E (g a)) : Leaves R' E (andThen f g) := by
  cases f with
  | ok a => exact hg a hf
  | error e => exact hf

/-- A loop over a list keeps what its body keeps. -/
theorem leaves_forEach {α β : Type} {R : α → Prop} {E : State → Prop} {body : β → α → Flow α} :
    ∀ (l : List β) (a : α), (∀ b ∈ l, ∀ a, R a → Leaves R E (body b a)) → R a → Leaves R E (forEach body l a)
  | [], _, _, ha => ha
  | b :: bs, a, hb, ha => by
    have h := hb b (by simp) a ha
    simp only [forEach]
    split <;> rename_i heq <;> rw [heq] at h
    · exact leaves_forEach bs _ (fun b' hb' => hb b' (by simp [hb'])) h
    · exact h

/-- A counted loop keeps what its body keeps. -/
theorem leaves_forUp {α : Type} {R : α → Prop} {E : State → Prop} {body : Nat → α → Flow α} :
    ∀ (n i : Nat) (a : α), (∀ j a, i ≤ j → j < i + n → R a → Leaves R E (body j a)) → R a → Leaves R E (forUp body i n a)
  | 0, _, _, _, ha => ha
  | n + 1, i, a, hb, ha => by
    have h := hb i a (Nat.le_refl i) (by omega) ha
    simp only [forUp]
    split <;> rename_i heq <;> rw [heq] at h
    · exact leaves_forUp n (i + 1) _ (fun j a' h1 h2 => hb j a' (by omega) (by omega)) h
    · exact h

@[simp] theorem andThen_ok {α : Type} (a : α) (g : α → Flow α) : andThen (.ok a) g = g a := rfl

@[simp] theorem andThen_error {α : Type} (e : State) (g : α → Flow α) : andThen (.error e : Flow α) g = .error e := rfl

@[simp] theorem forEach_nil {α β : Type} (body : β → α → Flow α) (a : α) : forEach body [] a = .ok a := rfl

theorem forEach_cons {α β : Type} (body : β → α → Flow α) (b : β) (bs : List β) (a : α) :
    forEach body (b :: bs) a = andThen (body b a) (forEach body bs) := rfl

theorem forUp_succ {α : Type} (body : Nat → α → Flow α) (i n : Nat) (a : α) :
    forUp body i (n + 1) a = andThen (body i a) (forUp body (i + 1) n) := rfl

theorem andThen_assoc {α : Type} (f : Flow α) (g h : α → Flow α) :
    andThen (andThen f g) h = andThen f fun a => andThen (g a) h := by
  cases f <;> rfl

theorem forEach_append {α β : Type} (body : β → α → Flow α) : ∀ (l m : List β) (a : α),
    forEach body (l ++ m) a = andThen (forEach body l a) (forEach body m)
  | [], _, _ => rfl
  | b :: bs, m, a => by
    rw [List.cons_append, forEach_cons, forEach_cons, andThen_assoc]
    congr 1
    funext a'
    exact forEach_append body bs m a'

/-- A counted loop is the loop over its indices. -/
theorem forUp_eq_forEach {α : Type} (body : Nat → α → Flow α) : ∀ (n i : Nat) (a : α),
    forUp body i n a = forEach body (List.range' i n) a
  | 0, _, _ => rfl
  | n + 1, i, a => by
    rw [List.range'_succ, forEach_cons, forUp_succ]
    congr 1
    funext a'
    exact forUp_eq_forEach body n (i + 1) a'

/-- A loop whose body is itself a loop over a list is one loop over all the items, in order. -/
theorem forEach_flatMap {α β γ : Type} (body : β → α → Flow α) (items : γ → List β) : ∀ (l : List γ) (a : α),
    forEach (fun c => forEach body (items c)) l a = forEach body (l.flatMap items) a
  | [], _ => rfl
  | c :: cs, a => by
    rw [List.flatMap_cons, forEach_append, forEach_cons]
    congr 1
    funext a'
    exact forEach_flatMap body items cs a'

theorem forEach_map {α β γ : Type} (body : β → α → Flow α) (g : γ → β) : ∀ (l : List γ) (a : α),
    forEach body (l.map g) a = forEach (fun c => body (g c)) l a
  | [], _ => rfl
  | c :: cs, a => by
    rw [List.map_cons, forEach_cons, forEach_cons]
    congr 1
    funext a'
    exact forEach_map body g cs a'

/-- Loops with equal bodies are equal. -/
theorem forEach_congr {α β : Type} {f g : β → α → Flow α} : ∀ (l : List β) (a : α), (∀ b ∈ l, ∀ a, f b a = g b a) →
    forEach f l a = forEach g l a
  | [], _, _ => rfl
  | b :: bs, a, h => by
    rw [forEach_cons, forEach_cons, h b (by simp) a]
    congr 1
    funext a'
    exact forEach_congr bs a' fun b' hb => h b' (by simp [hb])

/-- Loops whose bodies agree on the states that the loop passes through. -/
theorem forEach_congr_of {α β : Type} {P : α → Prop} {f g : β → α → Flow α} : ∀ (l : List β) (a : α),
    (∀ b ∈ l, ∀ a, P a → f b a = g b a ∧ Leaves P (fun _ => True) (g b a)) → P a → forEach f l a = forEach g l a
  | [], _, _, _ => rfl
  | b :: bs, a, h, ha => by
    obtain ⟨h1, h2⟩ := h b (by simp) a ha
    rw [forEach_cons, forEach_cons, h1]
    cases hg : g b a with
    | error e => rfl
    | ok a' =>
      rw [hg] at h2
      exact forEach_congr_of bs a' (fun b' hb => h b' (by simp [hb])) h2

/-- A counted loop in two parts. -/
theorem forUp_add {α : Type} (body : Nat → α → Flow α) (m n i : Nat) (a : α) :
    forUp body i (m + n) a = andThen (forUp body i m a) (forUp body (i + m) n) := by
  rw [forUp_eq_forEach, ← List.range'_append_1, forEach_append, forUp_eq_forEach]
  congr 1
  funext a'
  exact (forUp_eq_forEach body n (i + m) a').symm

/-- Both ends of a step: CP moves by the packet's length after a command that completes, and keeps its value after a fault. -/
theorem finish_cases (len : Nat) (f : Flow State) :
    (∃ s, f = .ok s ∧ finish len f = .next { s with cp := s.cp + BitVec.ofNat 32 len }) ∨
      (∃ e, f = .error e ∧ finish len f = .next e) := by
  cases f with
  | ok s => exact .inl ⟨s, rfl, rfl⟩
  | error e => exact .inr ⟨e, rfl, rfl⟩

end Sys2Proof.Machine
end

