-- ==== Sys2Proof/Laws/Memory.lean ====
section
/-! SUPPORT. The laws of one space: a read after a write, the canonical form, and that equal contents in that form are equal lists. -/

namespace Sys2Proof.Machine

@[simp] theorem Memory.read_nil {w : Nat} (a : Nat) : Memory.read ([] : Memory w) a = 0#w := rfl

theorem Memory.read_put {w : Nat} (a b : Nat) (v : BitVec w) (t : Memory w) (h : Memory.read t a = 0#w) :
    Memory.read (Memory.put a v t) b = if b = a then v else Memory.read t b := by
  unfold Memory.put
  by_cases hv : v = 0#w
  · by_cases hb : b = a
    · simp [hv, hb, h]
    · simp [hv, hb]
  · simp [hv, Memory.read]

theorem Memory.read_of_wfAbove {w : Nat} : ∀ (t : Memory w) (lo a : Nat), Memory.wfAbove lo t = true → a < lo →
    Memory.read t a = 0#w
  | [], _, _, _, _ => rfl
  | (b, v) :: t, lo, a, h, ha => by
    simp only [Memory.wfAbove, Bool.and_eq_true, decide_eq_true_eq] at h
    have hb : a ≠ b := by omega
    simp only [Memory.read, hb, if_false]
    exact Memory.read_of_wfAbove t (b + 1) a h.2 (by omega)

theorem Memory.wfAbove_mono {w : Nat} (t : Memory w) (lo lo' : Nat) (h : Memory.wfAbove lo t = true) (hl : lo' ≤ lo) :
    Memory.wfAbove lo' t = true := by
  cases t with
  | nil => rfl
  | cons e t =>
    obtain ⟨b, v⟩ := e
    simp only [Memory.wfAbove, Bool.and_eq_true, decide_eq_true_eq] at h ⊢
    exact ⟨⟨by omega, h.1.2⟩, h.2⟩

theorem Memory.wfAbove_put {w : Nat} (a lo : Nat) (v : BitVec w) (t : Memory w) (hlo : lo ≤ a)
    (h : Memory.wfAbove (a + 1) t = true) : Memory.wfAbove lo (Memory.put a v t) = true := by
  unfold Memory.put
  by_cases hv : v = 0#w
  · simpa [hv] using Memory.wfAbove_mono t _ _ h (by omega)
  · simp [hv, Memory.wfAbove, hlo, h]

/-- A write keeps the canonical form above any index not above the one written. -/
theorem Memory.wfAbove_write {w : Nat} : ∀ (m : Memory w) (lo a : Nat) (v : BitVec w), Memory.wfAbove lo m = true → lo ≤ a →
    Memory.wfAbove lo (Memory.write m a v) = true
  | [], lo, a, v, _, hlo => Memory.wfAbove_put a lo v [] hlo rfl
  | (b, u) :: t, lo, a, v, h, hlo => by
    have h' := h
    simp only [Memory.wfAbove, Bool.and_eq_true, decide_eq_true_eq] at h
    simp only [Memory.write]
    split
    · exact Memory.wfAbove_put a lo v _ hlo (by
        simp only [Memory.wfAbove, Bool.and_eq_true, decide_eq_true_eq]
        exact ⟨⟨by omega, h.1.2⟩, h.2⟩)
    · split
      · subst_vars
        exact Memory.wfAbove_put _ lo v t hlo h.2
      · simp only [Memory.wfAbove, Bool.and_eq_true, decide_eq_true_eq]
        exact ⟨⟨h.1.1, h.1.2⟩, Memory.wfAbove_write t (b + 1) a v h.2 (by omega)⟩

/-- A write keeps the canonical form. -/
theorem Memory.wf_write {w : Nat} (m : Memory w) (a : Nat) (v : BitVec w) (h : m.wf = true) : (m.write a v).wf = true :=
  Memory.wfAbove_write m 0 a v h (Nat.zero_le a)

theorem Memory.read_write_above {w : Nat} : ∀ (m : Memory w) (lo a b : Nat) (v : BitVec w), Memory.wfAbove lo m = true →
    Memory.read (Memory.write m a v) b = if b = a then v else Memory.read m b
  | [], _, a, b, v, _ => Memory.read_put a b v [] rfl
  | (c, u) :: t, lo, a, b, v, h => by
    have h' := h
    simp only [Memory.wfAbove, Bool.and_eq_true, decide_eq_true_eq] at h
    simp only [Memory.write]
    split
    · rw [Memory.read_put]
      have hne : a ≠ c := by omega
      simp only [Memory.read, hne, if_false]
      exact Memory.read_of_wfAbove t (c + 1) a h.2 (by omega)
    · split
      · subst_vars
        rw [Memory.read_put _ _ _ _ (Memory.read_of_wfAbove t _ _ h.2 (by omega))]
        by_cases hb : b = a <;> simp [Memory.read, hb]
      · simp only [Memory.read]
        rw [Memory.read_write_above t (c + 1) a b v h.2]
        by_cases hb : b = c
        · have : c ≠ a := by omega
          simp [hb, this]
        · simp [hb]

/-- What a write does to every read: the unit written has the new value, every other one its old value. -/
theorem Memory.read_write {w : Nat} (m : Memory w) (a b : Nat) (v : BitVec w) (h : m.wf = true) :
    (m.write a v).read b = if b = a then v else m.read b :=
  Memory.read_write_above m 0 a b v h

theorem Memory.ext_above {w : Nat} : ∀ (m n : Memory w) (lo : Nat), Memory.wfAbove lo m = true → Memory.wfAbove lo n = true →
    (∀ a, Memory.read m a = Memory.read n a) → m = n
  | [], [], _, _, _, _ => rfl
  | [], (b, v) :: t, lo, _, h, he => by
    simp only [Memory.wfAbove, Bool.and_eq_true, decide_eq_true_eq] at h
    have := he b
    simp only [Memory.read, if_true] at this
    exact absurd this.symm h.1.2
  | (b, v) :: t, [], lo, h, _, he => by
    simp only [Memory.wfAbove, Bool.and_eq_true, decide_eq_true_eq] at h
    have := he b
    simp only [Memory.read, if_true] at this
    exact absurd this h.1.2
  | (b, v) :: t, (c, u) :: r, lo, h, g, he => by
    simp only [Memory.wfAbove, Bool.and_eq_true, decide_eq_true_eq] at h g
    have hb := he b
    have hc := he c
    simp only [Memory.read, if_true] at hb hc
    have hbc : b = c := by
      by_contra hne
      rcases Nat.lt_or_gt_of_ne hne with hl | hl
      · rw [if_neg hne, Memory.read_of_wfAbove r (c + 1) b g.2 (by omega)] at hb
        exact h.1.2 hb
      · rw [if_neg (Ne.symm hne), Memory.read_of_wfAbove t (b + 1) c h.2 (by omega)] at hc
        exact g.1.2 hc.symm
    subst hbc
    rw [if_pos rfl] at hb
    subst hb
    congr 1
    refine Memory.ext_above t r (b + 1) h.2 g.2 fun a => ?_
    by_cases hab : a < b + 1
    · rw [Memory.read_of_wfAbove t (b + 1) a h.2 hab, Memory.read_of_wfAbove r (b + 1) a g.2 hab]
    · have := he a
      have hne : a ≠ b := by omega
      simpa [Memory.read, hne] using this

/-- Equal contents in canonical form are equal lists. -/
theorem Memory.ext_of_wf {w : Nat} (m n : Memory w) (hm : m.wf = true) (hn : n.wf = true)
    (h : ∀ a, m.read a = n.read a) : m = n :=
  Memory.ext_above m n 0 hm hn h

/-- Writing the value that a unit already has changes nothing. -/
theorem Memory.write_read_self {w : Nat} (m : Memory w) (a : Nat) (h : m.wf = true) : m.write a (m.read a) = m := by
  refine Memory.ext_of_wf _ _ (Memory.wf_write m a _ h) h fun b => ?_
  rw [Memory.read_write m a b _ h]
  split <;> simp_all

/-- The contents that a host writes down as a list are in canonical form. -/
theorem Memory.wfAbove_ofListFrom {w : Nat} : ∀ (l : List (BitVec w)) (i : Nat), Memory.wfAbove i (Memory.ofListFrom i l) = true
  | [], _ => rfl
  | v :: t, i => Memory.wfAbove_put i i v _ (Nat.le_refl i) (Memory.wfAbove_ofListFrom t (i + 1))

end Sys2Proof.Machine
end

