-- ==== Sys2Proof/Laws/State.lean ====
section
/-! SUPPORT. One lemma per field of State for each named update, and the mask of the fields an update leaves alone. -/

namespace Sys2Proof.Machine

@[simp] theorem takeFault_cfg (c : Cause) (x y : Int) (info : Nat) (s : State) : (takeFault c x y info s).cfg = s.cfg := rfl
@[simp] theorem takeFault_fb (c : Cause) (x y : Int) (info : Nat) (s : State) : (takeFault c x y info s).fb = s.fb := rfl
@[simp] theorem takeFault_fg (c : Cause) (x y : Int) (info : Nat) (s : State) : (takeFault c x y info s).fg = s.fg := rfl
@[simp] theorem takeFault_fgV (c : Cause) (x y : Int) (info : Nat) (s : State) : (takeFault c x y info s).fgV = s.fgV := rfl
@[simp] theorem takeFault_bg (c : Cause) (x y : Int) (info : Nat) (s : State) : (takeFault c x y info s).bg = s.bg := rfl
@[simp] theorem takeFault_bgV (c : Cause) (x y : Int) (info : Nat) (s : State) : (takeFault c x y info s).bgV = s.bgV := rfl
@[simp] theorem takeFault_fontW (c : Cause) (x y : Int) (info : Nat) (s : State) : (takeFault c x y info s).fontW = s.fontW := rfl
@[simp] theorem takeFault_fontH (c : Cause) (x y : Int) (info : Nat) (s : State) : (takeFault c x y info s).fontH = s.fontH := rfl
@[simp] theorem takeFault_fontBase (c : Cause) (x y : Int) (info : Nat) (s : State) : (takeFault c x y info s).fontBase = s.fontBase := rfl
@[simp] theorem takeFault_fontV (c : Cause) (x y : Int) (info : Nat) (s : State) : (takeFault c x y info s).fontV = s.fontV := rfl
@[simp] theorem takeFault_cp (c : Cause) (x y : Int) (info : Nat) (s : State) : (takeFault c x y info s).cp = s.cp := rfl
@[simp] theorem takeFault_runState (c : Cause) (x y : Int) (info : Nat) (s : State) : (takeFault c x y info s).runState = .fault := rfl
@[simp] theorem takeFault_cause (c : Cause) (x y : Int) (info : Nat) (s : State) : (takeFault c x y info s).cause = c := rfl
@[simp] theorem takeFault_faultX (c : Cause) (x y : Int) (info : Nat) (s : State) : (takeFault c x y info s).faultX = BitVec.ofInt 32 x := rfl
@[simp] theorem takeFault_faultY (c : Cause) (x y : Int) (info : Nat) (s : State) : (takeFault c x y info s).faultY = BitVec.ofInt 32 y := rfl
@[simp] theorem takeFault_faultInfo (c : Cause) (x y : Int) (info : Nat) (s : State) : (takeFault c x y info s).faultInfo = BitVec.ofNat 32 info := rfl
@[simp] theorem takeFault_out (c : Cause) (x y : Int) (info : Nat) (s : State) : (takeFault c x y info s).out = s.out := rfl
@[simp] theorem takeFault_outCount (c : Cause) (x y : Int) (info : Nat) (s : State) : (takeFault c x y info s).outCount = s.outCount := rfl

@[simp] theorem writeFb_cfg (a : Nat) (c : Pixel) (s : State) : (writeFb a c s).cfg = s.cfg := rfl
@[simp] theorem writeFb_fb (a : Nat) (c : Pixel) (s : State) : (writeFb a c s).fb = s.fb.write a c := rfl
@[simp] theorem writeFb_fg (a : Nat) (c : Pixel) (s : State) : (writeFb a c s).fg = s.fg := rfl
@[simp] theorem writeFb_fgV (a : Nat) (c : Pixel) (s : State) : (writeFb a c s).fgV = s.fgV := rfl
@[simp] theorem writeFb_bg (a : Nat) (c : Pixel) (s : State) : (writeFb a c s).bg = s.bg := rfl
@[simp] theorem writeFb_bgV (a : Nat) (c : Pixel) (s : State) : (writeFb a c s).bgV = s.bgV := rfl
@[simp] theorem writeFb_fontW (a : Nat) (c : Pixel) (s : State) : (writeFb a c s).fontW = s.fontW := rfl
@[simp] theorem writeFb_fontH (a : Nat) (c : Pixel) (s : State) : (writeFb a c s).fontH = s.fontH := rfl
@[simp] theorem writeFb_fontBase (a : Nat) (c : Pixel) (s : State) : (writeFb a c s).fontBase = s.fontBase := rfl
@[simp] theorem writeFb_fontV (a : Nat) (c : Pixel) (s : State) : (writeFb a c s).fontV = s.fontV := rfl
@[simp] theorem writeFb_cp (a : Nat) (c : Pixel) (s : State) : (writeFb a c s).cp = s.cp := rfl
@[simp] theorem writeFb_runState (a : Nat) (c : Pixel) (s : State) : (writeFb a c s).runState = s.runState := rfl
@[simp] theorem writeFb_cause (a : Nat) (c : Pixel) (s : State) : (writeFb a c s).cause = s.cause := rfl
@[simp] theorem writeFb_faultX (a : Nat) (c : Pixel) (s : State) : (writeFb a c s).faultX = s.faultX := rfl
@[simp] theorem writeFb_faultY (a : Nat) (c : Pixel) (s : State) : (writeFb a c s).faultY = s.faultY := rfl
@[simp] theorem writeFb_faultInfo (a : Nat) (c : Pixel) (s : State) : (writeFb a c s).faultInfo = s.faultInfo := rfl
@[simp] theorem writeFb_out (a : Nat) (c : Pixel) (s : State) : (writeFb a c s).out = s.out := rfl
@[simp] theorem writeFb_outCount (a : Nat) (c : Pixel) (s : State) : (writeFb a c s).outCount = s.outCount := rfl

@[simp] theorem emit_cfg (v : Word) (s : State) : (emit v s).cfg = s.cfg := rfl
@[simp] theorem emit_fb (v : Word) (s : State) : (emit v s).fb = s.fb := rfl
@[simp] theorem emit_fg (v : Word) (s : State) : (emit v s).fg = s.fg := rfl
@[simp] theorem emit_fgV (v : Word) (s : State) : (emit v s).fgV = s.fgV := rfl
@[simp] theorem emit_bg (v : Word) (s : State) : (emit v s).bg = s.bg := rfl
@[simp] theorem emit_bgV (v : Word) (s : State) : (emit v s).bgV = s.bgV := rfl
@[simp] theorem emit_fontW (v : Word) (s : State) : (emit v s).fontW = s.fontW := rfl
@[simp] theorem emit_fontH (v : Word) (s : State) : (emit v s).fontH = s.fontH := rfl
@[simp] theorem emit_fontBase (v : Word) (s : State) : (emit v s).fontBase = s.fontBase := rfl
@[simp] theorem emit_fontV (v : Word) (s : State) : (emit v s).fontV = s.fontV := rfl
@[simp] theorem emit_cp (v : Word) (s : State) : (emit v s).cp = s.cp := rfl
@[simp] theorem emit_runState (v : Word) (s : State) : (emit v s).runState = s.runState := rfl
@[simp] theorem emit_cause (v : Word) (s : State) : (emit v s).cause = s.cause := rfl
@[simp] theorem emit_faultX (v : Word) (s : State) : (emit v s).faultX = s.faultX := rfl
@[simp] theorem emit_faultY (v : Word) (s : State) : (emit v s).faultY = s.faultY := rfl
@[simp] theorem emit_faultInfo (v : Word) (s : State) : (emit v s).faultInfo = s.faultInfo := rfl
@[simp] theorem emit_out (v : Word) (s : State) : (emit v s).out = s.out ++ [v] := rfl
@[simp] theorem emit_outCount (v : Word) (s : State) : (emit v s).outCount = nextOutCount s := rfl

@[simp] theorem halt_cfg (s : State) : (halt s).cfg = s.cfg := rfl
@[simp] theorem halt_fb (s : State) : (halt s).fb = s.fb := rfl
@[simp] theorem halt_fg (s : State) : (halt s).fg = s.fg := rfl
@[simp] theorem halt_fgV (s : State) : (halt s).fgV = s.fgV := rfl
@[simp] theorem halt_bg (s : State) : (halt s).bg = s.bg := rfl
@[simp] theorem halt_bgV (s : State) : (halt s).bgV = s.bgV := rfl
@[simp] theorem halt_fontW (s : State) : (halt s).fontW = s.fontW := rfl
@[simp] theorem halt_fontH (s : State) : (halt s).fontH = s.fontH := rfl
@[simp] theorem halt_fontBase (s : State) : (halt s).fontBase = s.fontBase := rfl
@[simp] theorem halt_fontV (s : State) : (halt s).fontV = s.fontV := rfl
@[simp] theorem halt_cp (s : State) : (halt s).cp = s.cp := rfl
@[simp] theorem halt_runState (s : State) : (halt s).runState = .halt := rfl
@[simp] theorem halt_cause (s : State) : (halt s).cause = s.cause := rfl
@[simp] theorem halt_faultX (s : State) : (halt s).faultX = s.faultX := rfl
@[simp] theorem halt_faultY (s : State) : (halt s).faultY = s.faultY := rfl
@[simp] theorem halt_faultInfo (s : State) : (halt s).faultInfo = s.faultInfo := rfl
@[simp] theorem halt_out (s : State) : (halt s).out = s.out := rfl
@[simp] theorem halt_outCount (s : State) : (halt s).outCount = s.outCount := rfl

@[simp] theorem setFg_cfg (c : Pixel) (s : State) : (setFg c s).cfg = s.cfg := rfl
@[simp] theorem setFg_fb (c : Pixel) (s : State) : (setFg c s).fb = s.fb := rfl
@[simp] theorem setFg_fg (c : Pixel) (s : State) : (setFg c s).fg = c := rfl
@[simp] theorem setFg_fgV (c : Pixel) (s : State) : (setFg c s).fgV = true := rfl
@[simp] theorem setFg_bg (c : Pixel) (s : State) : (setFg c s).bg = s.bg := rfl
@[simp] theorem setFg_bgV (c : Pixel) (s : State) : (setFg c s).bgV = s.bgV := rfl
@[simp] theorem setFg_fontW (c : Pixel) (s : State) : (setFg c s).fontW = s.fontW := rfl
@[simp] theorem setFg_fontH (c : Pixel) (s : State) : (setFg c s).fontH = s.fontH := rfl
@[simp] theorem setFg_fontBase (c : Pixel) (s : State) : (setFg c s).fontBase = s.fontBase := rfl
@[simp] theorem setFg_fontV (c : Pixel) (s : State) : (setFg c s).fontV = s.fontV := rfl
@[simp] theorem setFg_cp (c : Pixel) (s : State) : (setFg c s).cp = s.cp := rfl
@[simp] theorem setFg_runState (c : Pixel) (s : State) : (setFg c s).runState = s.runState := rfl
@[simp] theorem setFg_cause (c : Pixel) (s : State) : (setFg c s).cause = s.cause := rfl
@[simp] theorem setFg_faultX (c : Pixel) (s : State) : (setFg c s).faultX = s.faultX := rfl
@[simp] theorem setFg_faultY (c : Pixel) (s : State) : (setFg c s).faultY = s.faultY := rfl
@[simp] theorem setFg_faultInfo (c : Pixel) (s : State) : (setFg c s).faultInfo = s.faultInfo := rfl
@[simp] theorem setFg_out (c : Pixel) (s : State) : (setFg c s).out = s.out := rfl
@[simp] theorem setFg_outCount (c : Pixel) (s : State) : (setFg c s).outCount = s.outCount := rfl

@[simp] theorem setBg_cfg (c : Pixel) (s : State) : (setBg c s).cfg = s.cfg := rfl
@[simp] theorem setBg_fb (c : Pixel) (s : State) : (setBg c s).fb = s.fb := rfl
@[simp] theorem setBg_fg (c : Pixel) (s : State) : (setBg c s).fg = s.fg := rfl
@[simp] theorem setBg_fgV (c : Pixel) (s : State) : (setBg c s).fgV = s.fgV := rfl
@[simp] theorem setBg_bg (c : Pixel) (s : State) : (setBg c s).bg = c := rfl
@[simp] theorem setBg_bgV (c : Pixel) (s : State) : (setBg c s).bgV = true := rfl
@[simp] theorem setBg_fontW (c : Pixel) (s : State) : (setBg c s).fontW = s.fontW := rfl
@[simp] theorem setBg_fontH (c : Pixel) (s : State) : (setBg c s).fontH = s.fontH := rfl
@[simp] theorem setBg_fontBase (c : Pixel) (s : State) : (setBg c s).fontBase = s.fontBase := rfl
@[simp] theorem setBg_fontV (c : Pixel) (s : State) : (setBg c s).fontV = s.fontV := rfl
@[simp] theorem setBg_cp (c : Pixel) (s : State) : (setBg c s).cp = s.cp := rfl
@[simp] theorem setBg_runState (c : Pixel) (s : State) : (setBg c s).runState = s.runState := rfl
@[simp] theorem setBg_cause (c : Pixel) (s : State) : (setBg c s).cause = s.cause := rfl
@[simp] theorem setBg_faultX (c : Pixel) (s : State) : (setBg c s).faultX = s.faultX := rfl
@[simp] theorem setBg_faultY (c : Pixel) (s : State) : (setBg c s).faultY = s.faultY := rfl
@[simp] theorem setBg_faultInfo (c : Pixel) (s : State) : (setBg c s).faultInfo = s.faultInfo := rfl
@[simp] theorem setBg_out (c : Pixel) (s : State) : (setBg c s).out = s.out := rfl
@[simp] theorem setBg_outCount (c : Pixel) (s : State) : (setBg c s).outCount = s.outCount := rfl

@[simp] theorem setFont_cfg (w : BitVec 5) (h : BitVec 8) (b : BitVec 32) (s : State) : (setFont w h b s).cfg = s.cfg := rfl
@[simp] theorem setFont_fb (w : BitVec 5) (h : BitVec 8) (b : BitVec 32) (s : State) : (setFont w h b s).fb = s.fb := rfl
@[simp] theorem setFont_fg (w : BitVec 5) (h : BitVec 8) (b : BitVec 32) (s : State) : (setFont w h b s).fg = s.fg := rfl
@[simp] theorem setFont_fgV (w : BitVec 5) (h : BitVec 8) (b : BitVec 32) (s : State) : (setFont w h b s).fgV = s.fgV := rfl
@[simp] theorem setFont_bg (w : BitVec 5) (h : BitVec 8) (b : BitVec 32) (s : State) : (setFont w h b s).bg = s.bg := rfl
@[simp] theorem setFont_bgV (w : BitVec 5) (h : BitVec 8) (b : BitVec 32) (s : State) : (setFont w h b s).bgV = s.bgV := rfl
@[simp] theorem setFont_fontW (w : BitVec 5) (h : BitVec 8) (b : BitVec 32) (s : State) : (setFont w h b s).fontW = w := rfl
@[simp] theorem setFont_fontH (w : BitVec 5) (h : BitVec 8) (b : BitVec 32) (s : State) : (setFont w h b s).fontH = h := rfl
@[simp] theorem setFont_fontBase (w : BitVec 5) (h : BitVec 8) (b : BitVec 32) (s : State) : (setFont w h b s).fontBase = b := rfl
@[simp] theorem setFont_fontV (w : BitVec 5) (h : BitVec 8) (b : BitVec 32) (s : State) : (setFont w h b s).fontV = true := rfl
@[simp] theorem setFont_cp (w : BitVec 5) (h : BitVec 8) (b : BitVec 32) (s : State) : (setFont w h b s).cp = s.cp := rfl
@[simp] theorem setFont_runState (w : BitVec 5) (h : BitVec 8) (b : BitVec 32) (s : State) : (setFont w h b s).runState = s.runState := rfl
@[simp] theorem setFont_cause (w : BitVec 5) (h : BitVec 8) (b : BitVec 32) (s : State) : (setFont w h b s).cause = s.cause := rfl
@[simp] theorem setFont_faultX (w : BitVec 5) (h : BitVec 8) (b : BitVec 32) (s : State) : (setFont w h b s).faultX = s.faultX := rfl
@[simp] theorem setFont_faultY (w : BitVec 5) (h : BitVec 8) (b : BitVec 32) (s : State) : (setFont w h b s).faultY = s.faultY := rfl
@[simp] theorem setFont_faultInfo (w : BitVec 5) (h : BitVec 8) (b : BitVec 32) (s : State) : (setFont w h b s).faultInfo = s.faultInfo := rfl
@[simp] theorem setFont_out (w : BitVec 5) (h : BitVec 8) (b : BitVec 32) (s : State) : (setFont w h b s).out = s.out := rfl
@[simp] theorem setFont_outCount (w : BitVec 5) (h : BitVec 8) (b : BitVec 32) (s : State) : (setFont w h b s).outCount = s.outCount := rfl

@[simp] theorem assertReset_cfg (s : State) : (assertReset s).cfg = s.cfg := rfl
@[simp] theorem assertReset_fb (s : State) : (assertReset s).fb = s.fb := rfl
@[simp] theorem assertReset_fg (s : State) : (assertReset s).fg = 0 := rfl
@[simp] theorem assertReset_fgV (s : State) : (assertReset s).fgV = false := rfl
@[simp] theorem assertReset_bg (s : State) : (assertReset s).bg = 0 := rfl
@[simp] theorem assertReset_bgV (s : State) : (assertReset s).bgV = false := rfl
@[simp] theorem assertReset_fontW (s : State) : (assertReset s).fontW = 0 := rfl
@[simp] theorem assertReset_fontH (s : State) : (assertReset s).fontH = 0 := rfl
@[simp] theorem assertReset_fontBase (s : State) : (assertReset s).fontBase = 0 := rfl
@[simp] theorem assertReset_fontV (s : State) : (assertReset s).fontV = false := rfl
@[simp] theorem assertReset_cp (s : State) : (assertReset s).cp = 0 := rfl
@[simp] theorem assertReset_runState (s : State) : (assertReset s).runState = .run := rfl
@[simp] theorem assertReset_cause (s : State) : (assertReset s).cause = .none := rfl
@[simp] theorem assertReset_faultX (s : State) : (assertReset s).faultX = 0 := rfl
@[simp] theorem assertReset_faultY (s : State) : (assertReset s).faultY = 0 := rfl
@[simp] theorem assertReset_faultInfo (s : State) : (assertReset s).faultInfo = 0 := rfl
@[simp] theorem assertReset_out (s : State) : (assertReset s).out = [] := rfl
@[simp] theorem assertReset_outCount (s : State) : (assertReset s).outCount = 0 := rfl

end Sys2Proof.Machine
end

