-- ==== Sys2Proof/Laws/Draw.lean ====
section
/-! SUPPORT. What every drawing operation can do, said once: it keeps any property of states that legal pixel writes keep, and when it
stops it stops in a fault entry from such a state (spec 20_memory.md R55 to R58, 60_exceptions.md R201, R203, R206). -/

namespace Sys2Proof.Machine

/-- A property that is kept by writing a native value, or a colour that has been set, at a position on the surface. -/
def WriteClosed (P : State → Prop) : Prop :=
  ∀ s x y c, P s → inSurface s x y = true → (native s c ∨ (s.fgV = true ∧ c = s.fg) ∨ (s.bgV = true ∧ c = s.bg)) →
    P (writeFb (pixIndex s x y) c s)

/-- The information that R202 allows a command's own fault: FAULT_INFO 0 for E_RANGE and E_NOFONT, a register number for E_UNSET. The
step rule alone raises E_FETCH. -/
def InfoOk (c : Cause) (info : Nat) : Prop :=
  match c with
  | .none => False
  | .fetch => False
  | .range => info = 0
  | .noFont => info = 0
  | .unset => info = 0 ∨ info = 1
  | .illegal => True
  | .operand => True
  | .fontAddr => True

/-- `e` is a state right after a fault entry from a state with `P`, its information as R202 says. -/
def Stopped (P : State → Prop) (e : State) : Prop :=
  ∃ t c x y info, P t ∧ InfoOk c info ∧ (c ≠ .range → x = 0 ∧ y = 0) ∧ e = takeFault c x y info t

theorem Stopped.cause_ne_none {P : State → Prop} {e : State} (h : Stopped P e) : e.cause ≠ .none := by
  obtain ⟨t, c, x, y, info, _, hi, _, rfl⟩ := h
  rintro rfl
  exact hi

theorem leaves_raise {α : Type} {P : State → Prop} {R : α → Prop} {s : State} {c : Cause} {info : Nat} (h : P s)
    (hi : InfoOk c info) : Leaves R (Stopped P) (raise c info s : Flow α) :=
  ⟨s, c, 0, 0, info, h, hi, fun _ => ⟨rfl, rfl⟩, rfl⟩

theorem leaves_raiseRange {α : Type} {P : State → Prop} {R : α → Prop} {s : State} {x y : Int} (h : P s) :
    Leaves R (Stopped P) (raiseRange x y s : Flow α) :=
  ⟨s, .range, x, y, 0, h, rfl, fun h => absurd rfl h, rfl⟩

section
variable {P : State → Prop} {s : State}

theorem leaves_pixWrite (hP : WriteClosed P) (h : P s) (x y : Int) (c : Pixel)
    (hc : native s c ∨ (s.fgV = true ∧ c = s.fg) ∨ (s.bgV = true ∧ c = s.bg)) :
    Leaves P (Stopped P) (pixWrite x y c s) := by
  unfold pixWrite
  split
  · exact hP s x y c h ‹_› hc
  · exact leaves_raiseRange h

theorem leaves_plot (hP : WriteClosed P) (h : P s) (x y : Int) (ink : Ink) : Leaves P (Stopped P) (plot x y ink s) := by
  cases ink <;> simp only [plot] <;> split
  · exact leaves_pixWrite hP h x y _ (.inr (.inl ⟨‹_›, rfl⟩))
  · exact leaves_raise h (.inl rfl)
  · exact leaves_pixWrite hP h x y _ (.inr (.inr ⟨‹_›, rfl⟩))
  · exact leaves_raise h (.inr rfl)

theorem leaves_span (hP : WriteClosed P) (h : P s) (x y : Int) (n : Nat) : Leaves P (Stopped P) (span x y n s) :=
  leaves_forUp n 0 s (fun _ _ _ _ ha => leaves_plot hP ha _ _ _) h

theorem leaves_vspan (hP : WriteClosed P) (h : P s) (x y : Int) (n : Nat) : Leaves P (Stopped P) (vspan x y n s) :=
  leaves_forUp n 0 s (fun _ _ _ _ ha => leaves_plot hP ha _ _ _) h

theorem leaves_plots (hP : WriteClosed P) (h : P s) (l : List (Int × Int)) : Leaves P (Stopped P) (forEach plotFg l s) :=
  leaves_forEach l s (fun _ _ _ ha => leaves_plot hP ha _ _ _) h

theorem leaves_line (hP : WriteClosed P) (h : P s) (x1 y1 x2 y2 : Int) : Leaves P (Stopped P) (line x1 y1 x2 y2 s) :=
  leaves_plots hP h _

theorem leaves_strokePass (hP : WriteClosed P) (h : P s) (cx cy : Int) (sc : Int → Int) (ps : List (Int × Int)) :
    Leaves P (Stopped P) (strokePass cx cy sc ps s) :=
  leaves_forEach ps s (fun _ _ _ ha => leaves_plots hP ha _) h

theorem leaves_fillPass (hP : WriteClosed P) (h : P s) (cx cy : Int) (sc : Int → Int) (ps : List (Int × Int)) :
    Leaves P (Stopped P) (fillPass cx cy sc ps s) :=
  leaves_forEach ps s (fun _ _ _ ha => leaves_forEach _ _ (fun _ _ _ hb => leaves_span hP hb _ _ _) ha) h

theorem leaves_fillTriangle (hP : WriteClosed P) (h : P s) (p1 p2 p3 : Pt) :
    Leaves P (Stopped P) (fillTriangle p1 p2 p3 s) := by
  simp only [fillTriangle, fillSorted]
  split
  · exact leaves_span hP h _ _ _
  · exact leaves_forUp _ 0 s (fun _ _ _ _ ha => leaves_span hP ha _ _ _) h

theorem leaves_glyphRows (hP : WriteClosed P) (h : P s) (x y : Int) (byteAt : ByteAt) :
    Leaves P (Stopped P) (glyphRows x y byteAt s) := by
  refine leaves_forUp _ 0 s (fun r a _ _ ha => ?_) h
  simp only [glyphRow]
  split
  · exact leaves_forUp _ 0 a (fun _ _ _ _ hb => leaves_plot hP hb _ _ _) ha
  · exact leaves_raise ha trivial

theorem leaves_stringFrom (hP : WriteClosed P) (y : Int) : ∀ (d : List Byte) (col : Int) (s : State), P s →
    Leaves P (Stopped P) (stringFrom y d col s)
  | [], _, _, h => h
  | ch :: rest, col, s, h => by
    simp only [stringFrom]
    split
    · exact h
    · split
      · exact leaves_raise h trivial
      · have hg := leaves_glyphRows hP h col y (tableByte s ch)
        split <;> rename_i heq <;> rw [heq] at hg
        · exact leaves_stringFrom hP y rest _ _ hg
        · exact hg

theorem leaves_drawString (hP : WriteClosed P) (h : P s) (a : Align) (p : Point) (d : List Byte) :
    Leaves P (Stopped P) (drawString a p d s) := by
  simp only [drawString]
  split
  · exact leaves_raise h rfl
  · exact leaves_stringFrom hP _ _ _ _ h

theorem leaves_checkColor (h : P s) (c : Half) :
    Leaves (fun t => t = s ∧ native s c) (Stopped P) (checkColor c s) := by
  simp only [checkColor]
  split
  · exact ⟨rfl, ‹_›⟩
  · exact leaves_raise h trivial

theorem leaves_blitRow (hP : WriteClosed P) (y : Int) : ∀ (l : List Half) (x : Int) (s : State), P s →
    Leaves P (Stopped P) (blitRow y x l s)
  | [], _, _, h => h
  | e :: t, x, s, h => by
    have hw : Leaves P (Stopped P) (andThen (checkColor e s) (pixWrite x y e)) :=
      leaves_andThen (leaves_checkColor h e) fun a ha => by
        obtain ⟨rfl, hn⟩ := ha
        exact leaves_pixWrite hP h x y e (.inl hn)
    simp only [blitRow]
    split <;> rename_i heq <;> rw [heq] at hw
    · exact leaves_blitRow hP y t _ _ hw
    · exact hw

theorem leaves_blit (hP : WriteClosed P) (h : P s) (d : Dir) (p : Point) (w k : Half) (l : List Half) :
    Leaves P (Stopped P) (blit d p w k l s) :=
  leaves_forUp _ 0 s (fun _ _ _ _ ha => leaves_blitRow hP _ _ _ _ ha) h

end

theorem inSurface_iff (s : State) (x y : Int) :
    inSurface s x y = true ↔ 0 ≤ x ∧ x < s.cfg.width ∧ 0 ≤ y ∧ y < s.cfg.height := by
  simp [inSurface, and_assoc]

/-- The index of a position on the surface is that of a pixel (R50, R51). -/
theorem pixIndex_lt (s : State) (x y : Int) (h : inSurface s x y = true) : pixIndex s x y < pixelCount s := by
  obtain ⟨h0, h1, h2, h3⟩ := (inSurface_iff s x y).1 h
  obtain ⟨a, rfl⟩ := Int.eq_ofNat_of_zero_le h0
  obtain ⟨b, rfl⟩ := Int.eq_ofNat_of_zero_le h2
  have hb : b + 1 ≤ s.cfg.height := by omega
  have hm : s.cfg.width * (b + 1) ≤ s.cfg.width * s.cfg.height := Nat.mul_le_mul_left _ hb
  have he : pixIndex s a b = s.cfg.width * b + a := by
    simp only [pixIndex]
    omega
  rw [he, pixelCount]
  rw [Nat.mul_add] at hm
  omega

/-- Every pixel index is that of a position on the surface (R51). -/
theorem pixIndex_surj (s : State) (i : Nat) (h : i < pixelCount s) :
    ∃ x y : Int, inSurface s x y = true ∧ pixIndex s x y = i := by
  have hW : 0 < s.cfg.width := by
    rcases Nat.eq_zero_or_pos s.cfg.width with h0 | h0
    · simp [pixelCount, h0] at h
    · exact h0
  refine ⟨(i % s.cfg.width : Nat), (i / s.cfg.width : Nat), ?_, ?_⟩
  · rw [inSurface_iff]
    have h1 := Nat.mod_lt i hW
    have h2 : i / s.cfg.width < s.cfg.height := (Nat.div_lt_iff_lt_mul hW).2 (by rwa [Nat.mul_comm, ← pixelCount])
    exact ⟨Int.natCast_nonneg _, by exact_mod_cast h1, Int.natCast_nonneg _, by exact_mod_cast h2⟩
  · have := Nat.div_add_mod i s.cfg.width
    simp only [pixIndex]
    exact_mod_cast congrArg Int.toNat (congrArg Int.ofNat this)

/-- Different positions on the surface have different indices (R51). -/
theorem pixIndex_inj (s : State) {x y x' y' : Int} (h : inSurface s x y = true) (h' : inSurface s x' y' = true)
    (he : pixIndex s x y = pixIndex s x' y') : x = x' ∧ y = y' := by
  obtain ⟨h0, h1, h2, h3⟩ := (inSurface_iff s x y).1 h
  obtain ⟨g0, g1, g2, g3⟩ := (inSurface_iff s x' y').1 h'
  have hy0 : 0 ≤ (s.cfg.width : Int) * y := mul_nonneg (by omega) h2
  have hy1 : 0 ≤ (s.cfg.width : Int) * y' := mul_nonneg (by omega) g2
  simp only [pixIndex] at he
  have hz : (s.cfg.width : Int) * y + x = s.cfg.width * y' + x' := by omega
  have hyy : y = y' := by
    have e1 : ((s.cfg.width : Int) * y + x) / s.cfg.width = y := by
      rw [Int.add_comm, Int.add_mul_ediv_left _ _ (by omega), Int.ediv_eq_zero_of_lt h0 h1]
      omega
    have e2 : ((s.cfg.width : Int) * y' + x') / s.cfg.width = y' := by
      rw [Int.add_comm, Int.add_mul_ediv_left _ _ (by omega), Int.ediv_eq_zero_of_lt g0 g1]
      omega
    rw [← e1, ← e2, hz]
  subst hyy
  exact ⟨by omega, rfl⟩

@[simp] theorem pixIndex_writeFb (s : State) (x y : Int) (a : Nat) (c : Pixel) :
    pixIndex (writeFb a c s) x y = pixIndex s x y := rfl

@[simp] theorem inSurface_writeFb (s : State) (x y : Int) (a : Nat) (c : Pixel) :
    inSurface (writeFb a c s) x y = inSurface s x y := rfl

theorem leaves_fillAll {P : State → Prop} (hP : WriteClosed P) {s : State} (h : P s) (c : Pixel) (hc : native s c) :
    Leaves P (Stopped P) (fillAll c s) := by
  have := leaves_forUp (R := fun t => P t ∧ t.cfg = s.cfg) (E := Stopped P) (body := fun i t => .ok (writeFb i c t))
    (s.cfg.width * s.cfg.height) 0 s (fun i t _ hi ht => by
      have hi' : i < pixelCount t := by
        rw [pixelCount, ht.2]
        omega
      obtain ⟨x, y, hs, rfl⟩ := pixIndex_surj t i hi'
      exact ⟨hP t x y c ht.1 hs (.inl (by simpa [native, ht.2] using hc)), ht.2⟩) ⟨h, rfl⟩
  exact this.mono (fun _ ha => ha.1) fun _ he => he

end Sys2Proof.Machine
end

