-- ==== Sys2Proof/Laws/Exec.lean ====
section
/-! SUPPORT. What a command can do, said once per kind of command: the drawing commands, the setters, the emitters and END. -/

namespace Sys2Proof.Machine

/-- The words of a command's packet, as the step rule counts them (spec 30_encoding.md R85). -/
def packetWords : Instr → Nat
  | .setfont _ _ _ => 3
  | .setpixel _ _ => 2
  | .getpixel _ => 2
  | .hline _ _ => 2
  | .vline _ _ => 2
  | .line _ _ => 3
  | .circle _ _ => 2
  | .fcircle _ _ => 2
  | .ellipse _ _ _ => 3
  | .fellipse _ _ _ => 3
  | .poly vs => 1 + vs.length
  | .fpoly vs => 1 + vs.length
  | .ftri _ _ _ => 4
  | .glyph _ d => 2 + ceil4 d.length
  | .stringL _ d => 2 + ceil4 d.length
  | .stringC _ d => 2 + ceil4 d.length
  | .stringR _ d => 2 + ceil4 d.length
  | .blitDn _ w h _ => 3 + ceil2 (w.toNat * h.toNat)
  | .blitUp _ w h _ => 3 + ceil2 (w.toNat * h.toNat)
  | .readbackDn _ _ _ => 3
  | .readbackUp _ _ _ => 3
  | _ => 1

theorem packetWords_pos (i : Instr) : 1 ≤ packetWords i := by
  cases i <;> simp only [packetWords] <;> omega

/-- What a drawing command can do: it keeps any property that legal pixel writes keep, and stops only in a fault entry. -/
theorem exec_draws {P : State → Prop} (hP : WriteClosed P) {s : State} (h : P s) (i : Instr) (hi : leavesPixels i = false) :
    ∃ f, exec i s = finish (packetWords i) f ∧ Leaves P (Stopped P) f := by
  cases i <;> simp only [leavesPixels, Bool.true_eq_false] at hi
  case setpixel p c =>
    exact ⟨_, rfl, leaves_andThen (leaves_checkColor h c) fun a ha => by
      obtain ⟨rfl, hn⟩ := ha
      exact leaves_pixWrite hP h _ _ c (.inl hn)⟩
  case fill c =>
    exact ⟨_, rfl, leaves_andThen (leaves_checkColor h c) fun a ha => by
      obtain ⟨rfl, hn⟩ := ha
      exact leaves_fillAll hP h c hn⟩
  case hline p n => exact ⟨_, rfl, leaves_span hP h _ _ _⟩
  case vline p n => exact ⟨_, rfl, leaves_vspan hP h _ _ _⟩
  case line p q => exact ⟨_, rfl, leaves_line hP h _ _ _ _⟩
  case circle c r => exact ⟨_, rfl, leaves_strokePass hP h _ _ _ _⟩
  case fcircle c r =>
    exact ⟨_, rfl, leaves_andThen (leaves_fillPass hP h _ _ _ _) fun a ha => leaves_strokePass hP ha _ _ _ _⟩
  case ellipse c rx ry =>
    refine ⟨_, rfl, ?_⟩
    split
    · exact h
    · exact leaves_strokePass hP h _ _ _ _
  case fellipse c rx ry =>
    refine ⟨_, rfl, ?_⟩
    split
    · exact h
    · exact leaves_andThen (leaves_fillPass hP h _ _ _ _) fun a ha => leaves_strokePass hP ha _ _ _ _
  case poly vs =>
    refine ⟨_, rfl, ?_⟩
    split
    · exact h
    · exact leaves_forEach _ s (fun _ _ _ ha => leaves_line hP ha _ _ _ _) h
  case fpoly vs =>
    refine ⟨_, rfl, ?_⟩
    split
    · exact h
    · exact leaves_forEach _ s (fun _ _ _ ha => leaves_fillTriangle hP ha _ _ _) h
  case ftri p q r => exact ⟨_, rfl, leaves_fillTriangle hP h _ _ _⟩
  case glyph p d =>
    refine ⟨_, rfl, ?_⟩
    split
    · exact leaves_raise h rfl
    · split
      · exact leaves_raise h trivial
      · exact leaves_glyphRows hP h _ _ _
  case stringL p d => exact ⟨_, rfl, leaves_drawString hP h _ _ _⟩
  case stringC p d => exact ⟨_, rfl, leaves_drawString hP h _ _ _⟩
  case stringR p d => exact ⟨_, rfl, leaves_drawString hP h _ _ _⟩
  case blitDn p w d l => exact ⟨_, rfl, leaves_blit hP h _ _ _ _ _⟩
  case blitUp p w d l => exact ⟨_, rfl, leaves_blit hP h _ _ _ _ _⟩

/-- A property that appending a word to OUT keeps. -/
def EmitClosed (P : State → Prop) : Prop := ∀ s v, P s → P (emit v s)

theorem leaves_pixRead {P : State → Prop} {s : State} (h : P s) (x y : Int) :
    Leaves (fun _ => inSurface s x y = true) (Stopped P) (pixRead x y s) := by
  unfold pixRead
  split
  · assumption
  · exact leaves_raiseRange h

theorem leaves_readback {P : State → Prop} (hP : EmitClosed P) {s : State} (h : P s) (d : Dir) (p : Point) (w k : Half) :
    Leaves P (Stopped P) (readback d p w k s) := by
  have hstep : ∀ (x y : Int) (a : Held), P a.2 → Leaves (fun b : Held => P b.2) (Stopped P) (readStep x y a) := by
    intro x y a ha
    have hr := leaves_pixRead ha x y
    simp only [readStep]
    split <;> rename_i heq <;> rw [heq] at hr
    · exact hr
    · split
      · exact ha
      · exact hP _ _ ha
  have hloop := leaves_forUp (R := fun b : Held => P b.2) (E := Stopped P)
    (body := fun j => forUp (fun i => readStep (px p + i) (destRow d (py p) (size k) j)) 0 (size w)) (size k) 0 (none, s)
    (fun j a _ _ ha => leaves_forUp _ 0 a (fun _ _ _ _ hb => hstep _ _ _ hb) ha) h
  simp only [readback]
  split <;> rename_i heq <;> rw [heq] at hloop
  · simp only [leaves_ok, flushHeld]
    split
    · exact hloop
    · exact hP _ _ hloop
  · exact hloop

/-- What an emitting command can do: it keeps any property that appending to OUT keeps, and stops only in a fault entry. -/
theorem exec_emits {P : State → Prop} (hP : EmitClosed P) {s : State} (h : P s) (i : Instr) (hi : emits i = true) :
    ∃ f, exec i s = finish (packetWords i) f ∧ Leaves P (Stopped P) f := by
  have hneed : ∀ (w : Word) (act : State → Flow State), Leaves P (Stopped P) (act s) → Leaves P (Stopped P) (needRead w act s) := by
    intro w act ha
    simp only [needRead]
    split
    · exact ha
    · exact leaves_raise h trivial
  cases i <;> simp only [emits, Bool.false_eq_true] at hi
  case fromrgb r g b => exact ⟨.ok _, rfl, hP _ _ h⟩
  case torgb c =>
    exact ⟨_, rfl, leaves_andThen (leaves_checkColor h c) fun a ha => by
      obtain ⟨rfl, _⟩ := ha
      exact hP _ _ h⟩
  case getpixel p =>
    refine ⟨_, rfl, hneed _ _ ?_⟩
    have hr := leaves_pixRead h (px p) (py p)
    simp only [emitPixel]
    split <;> rename_i heq <;> rw [heq] at hr
    · exact hP _ _ h
    · exact hr
  case readbackDn p w d => exact ⟨_, rfl, hneed _ _ (leaves_readback hP h _ _ _ _)⟩
  case readbackUp p w d => exact ⟨_, rfl, hneed _ _ (leaves_readback hP h _ _ _ _)⟩

/-- `u` is `s` but for its pixels. -/
def SameButFb (s u : State) : Prop := u = { s with fb := u.fb }

/-- `u` is `s` but for its output. -/
def SameButOut (s u : State) : Prop := u = { s with out := u.out, outCount := u.outCount }

theorem writeClosed_sameButFb (s : State) : WriteClosed (SameButFb s) := by
  intro t x y c ht _ _
  simp only [SameButFb] at ht ⊢
  rw [ht]
  rfl

theorem emitClosed_sameButOut (s : State) : EmitClosed (SameButOut s) := by
  intro t v ht
  simp only [SameButOut] at ht ⊢
  rw [ht]
  rfl

end Sys2Proof.Machine
end

