-- ==== Sys2Proof/Laws/Paint.lean ====
section
/-! SUPPORT. What a list of plots does, said once: when every point can be drawn, exactly the pixels of the points change; the first
point that cannot be drawn stops the list (spec 20_memory.md R55, R57, 60_exceptions.md R203). And every FG shape as a list of points. -/

namespace Sys2Proof.Machine

/-! ## Lists of pixel writes -/

/-- The state after writing the (index, colour) pairs in order. -/
def writes : List (Nat × Pixel) → State → State
  | [], s => s
  | e :: l, s => writes l (writeFb e.1 e.2 s)

theorem writes_only_fb : ∀ (l : List (Nat × Pixel)) (s : State), writes l s = { s with fb := (writes l s).fb }
  | [], _ => rfl
  | _ :: l, _ => by
    rw [writes, writes_only_fb l]
    rfl

/-- A command of `len` words that only wrote pixels. -/
theorem finish_writes (len : Nat) (l : List (Nat × Pixel)) (s : State) :
    finish len (.ok (writes l s)) = .next { s with fb := (writes l s).fb, cp := s.cp + BitVec.ofNat 32 len } := by
  rw [finish, writes_only_fb]

theorem writes_append : ∀ (l m : List (Nat × Pixel)) (s : State), writes (l ++ m) s = writes m (writes l s)
  | [], _, _ => rfl
  | _ :: l, m, _ => writes_append l m _

theorem writes_wf : ∀ (l : List (Nat × Pixel)) (s : State), s.fb.wf = true → (writes l s).fb.wf = true
  | [], _, h => h
  | _ :: l, _, h => writes_wf l _ (Memory.wf_write _ _ _ h)

@[simp] theorem writes_cfg (l : List (Nat × Pixel)) (s : State) : (writes l s).cfg = s.cfg := by
  rw [writes_only_fb]

@[simp] theorem inSurface_writes (l : List (Nat × Pixel)) (s : State) (x y : Int) : inSurface (writes l s) x y = inSurface s x y := by
  simp only [inSurface, writes_cfg]

@[simp] theorem pixIndex_writes (l : List (Nat × Pixel)) (s : State) (x y : Int) : pixIndex (writes l s) x y = pixIndex s x y := by
  simp only [pixIndex, writes_cfg]

theorem readFb_writeFb (s : State) (h : s.fb.wf = true) (a b : Nat) (c : Pixel) :
    readFb (writeFb a c s) b = if b = a then c else readFb s b := Memory.read_write _ _ _ _ h

/-- Writes that give each index one colour leave that colour there, and every other unit unchanged. -/
theorem readFb_writes (f : Nat → Pixel) : ∀ (l : List (Nat × Pixel)) (s : State), s.fb.wf = true → (∀ e ∈ l, e.2 = f e.1) →
    ∀ a, readFb (writes l s) a = if a ∈ l.map (·.1) then f a else readFb s a
  | [], _, _, _, _ => by simp [writes]
  | e :: l, s, h, hf, a => by
    rw [writes, readFb_writes f l _ (Memory.wf_write _ _ _ h) (fun e' he => hf e' (by simp [he])), readFb_writeFb s h]
    have he : e.2 = f e.1 := hf e (by simp)
    by_cases h1 : a ∈ l.map (·.1) <;> by_cases h2 : a = e.1 <;> simp_all

theorem readFb_writes_other (l : List (Nat × Pixel)) (s : State) (h : s.fb.wf = true) (a : Nat) (ha : a ∉ l.map (·.1)) :
    readFb (writes l s) a = readFb s a := by
  induction l generalizing s with
  | nil => rfl
  | cons e l ih =>
    simp only [List.map_cons, List.mem_cons, not_or] at ha
    rw [writes, ih _ (Memory.wf_write _ _ _ h) ha.2, readFb_writeFb s h, if_neg ha.1]

/-- Writes that give no index two colours: each of them is there afterwards. -/
theorem readFb_writes_mem : ∀ (l : List (Nat × Pixel)) (s : State), s.fb.wf = true →
    (∀ e ∈ l, ∀ e' ∈ l, e.1 = e'.1 → e.2 = e'.2) → ∀ e ∈ l, readFb (writes l s) e.1 = e.2
  | [], _, _, _, _, he => by simp at he
  | d :: l, s, h, hf, e, he => by
    by_cases hm : e.1 ∈ l.map (·.1)
    · obtain ⟨e', he', h1⟩ := List.mem_map.1 hm
      have h2 : e'.2 = e.2 := hf e' (by simp [he']) e he h1
      rw [writes, ← h1, ← h2]
      exact readFb_writes_mem l _ (Memory.wf_write _ _ _ h) (fun a ha b hb => hf a (by simp [ha]) b (by simp [hb])) e' he'
    · rw [writes, readFb_writes_other l _ (Memory.wf_write _ _ _ h) _ hm, readFb_writeFb s h]
      have : e = d := by
        rcases List.mem_cons.1 he with h1 | h1
        · exact h1
        · exact absurd (List.mem_map_of_mem h1) hm
      rw [this, if_pos rfl]

/-! ## Lists of plots -/

/-- A plot with its ink. -/
abbrev Dot := Int × Int × Ink

/-- The colour register that an ink reads. -/
def inkColour (s : State) : Ink → Pixel
  | .fg => s.fg
  | .bg => s.bg

/-- The ink's valid bit. -/
def inkSet (s : State) : Ink → Bool
  | .fg => s.fgV
  | .bg => s.bgV

/-- A dot that `plot` writes. -/
def dotOk (s : State) (q : Dot) : Prop := inkSet s q.2.2 = true ∧ inSurface s q.1 q.2.1 = true

/-- The write of a dot. -/
def dotWrite (s : State) (q : Dot) : Nat × Pixel := (pixIndex s q.1 q.2.1, inkColour s q.2.2)

theorem plot_ok (s : State) (q : Dot) (h : dotOk s q) :
    plot q.1 q.2.1 q.2.2 s = .ok (writeFb (dotWrite s q).1 (dotWrite s q).2 s) := by
  obtain ⟨x, y, ink⟩ := q
  obtain ⟨h1, h2⟩ := h
  cases ink <;> simp_all [plot, pixWrite, inkSet, inkColour, dotWrite]

/-- Dots that can all be drawn are written, in order, and nothing else happens. -/
theorem forEach_plot_ok : ∀ (l : List Dot) (s : State), (∀ q ∈ l, dotOk s q) →
    forEach (fun q : Dot => plot q.1 q.2.1 q.2.2) l s = .ok (writes (l.map (dotWrite s)) s)
  | [], _, _ => rfl
  | q :: l, s, h => by
    rw [forEach_cons, plot_ok s q (h q (by simp)), andThen_ok]
    exact forEach_plot_ok l (writeFb _ _ s) fun q' hq => h q' (by simp [hq])

/-- The fault entry of a dot that cannot be drawn, from the state reached: the colour check comes first (R57, R204). -/
def dotStop (s : State) (q : Dot) (u : State) : State :=
  if inkSet s q.2.2 then takeFault .range q.1 q.2.1 0 u
  else takeFault .unset 0 0 (match q.2.2 with | .fg => fgNumber | .bg => bgNumber) u

/-- The first dot that cannot be drawn stops the list there, the dots before it written. -/
theorem forEach_plot_stop (l m : List Dot) (q : Dot) (s : State) (h : ∀ q ∈ l, dotOk s q) (hq : ¬dotOk s q) :
    forEach (fun q : Dot => plot q.1 q.2.1 q.2.2) (l ++ q :: m) s = .error (dotStop s q (writes (l.map (dotWrite s)) s)) := by
  rw [forEach_append, forEach_plot_ok l s h, andThen_ok, forEach_cons]
  obtain ⟨x, y, ink⟩ := q
  suffices hp : plot x y ink (writes (l.map (dotWrite s)) s) = .error (dotStop s (x, y, ink) (writes (l.map (dotWrite s)) s)) by
    simp only [hp, andThen_error]
  have e : ∀ c, inkSet (writes (l.map (dotWrite s)) s) c = inkSet s c := fun c => by
    rw [writes_only_fb]
    cases c <;> rfl
  have hfg := e .fg
  have hbg := e .bg
  simp only [inkSet] at hfg hbg
  cases ink <;> simp_all [plot, pixWrite, raise, raiseRange, dotStop, dotOk, inkSet] <;> split <;> simp_all

/-- Pixel writes that give no position two colours leave each of them. -/
theorem wrote_of_writes (l : List (Int × Int × Pixel)) (s : State) (hw : s.fb.wf = true)
    (hf : ∀ q ∈ l, ∀ q' ∈ l, pixIndex s q.1 q.2.1 = pixIndex s q'.1 q'.2.1 → q.2.2 = q'.2.2) :
    Wrote s (writes (l.map fun q => (pixIndex s q.1 q.2.1, q.2.2)) s) l := by
  refine ⟨writes_only_fb _ _, writes_wf _ _ hw, fun q hq => ?_, fun a ha => readFb_writes_other _ _ hw a ?_⟩
  · refine readFb_writes_mem _ s hw ?_ (pixIndex s q.1 q.2.1, q.2.2) (List.mem_map_of_mem hq)
    intro e he e' he' h
    obtain ⟨r, hr, rfl⟩ := List.mem_map.1 he
    obtain ⟨r', hr', rfl⟩ := List.mem_map.1 he'
    exact hf r hr r' hr' h
  · simp only [List.map_map, List.mem_map, Function.comp_apply, not_exists, not_and]
    exact fun q hq => ha q hq

/-- A point in FG as a dot. -/
def fgDot (p : Int × Int) : Dot := (p.1, p.2, .fg)

theorem forEach_plotFg_eq (l : List (Int × Int)) (s : State) :
    forEach plotFg l s = forEach (fun q : Dot => plot q.1 q.2.1 q.2.2) (l.map fgDot) s :=
  (forEach_map (fun q : Dot => plot q.1 q.2.1 q.2.2) fgDot l s).symm

/-- Points that can all be drawn in FG. -/
theorem forEach_plotFg_ok (l : List (Int × Int)) (s : State) (h : ∀ p ∈ l, s.fgV = true ∧ inSurface s p.1 p.2 = true) :
    forEach plotFg l s = .ok (writes (l.map fun p => (pixIndex s p.1 p.2, s.fg)) s) := by
  rw [forEach_plotFg_eq, forEach_plot_ok]
  · simp [Function.comp_def, dotWrite, fgDot, inkColour]
  · simp only [List.mem_map, forall_exists_index, and_imp, forall_apply_eq_imp_iff₂]
    exact fun p hp => h p hp

/-- The first point that lies outside the surface stops the list there. -/
theorem forEach_plotFg_range (l m : List (Int × Int)) (p : Int × Int) (s : State) (hfg : s.fgV = true)
    (h : ∀ p ∈ l, inSurface s p.1 p.2 = true) (hp : inSurface s p.1 p.2 = false) :
    forEach plotFg (l ++ p :: m) s =
      .error (takeFault .range p.1 p.2 0 (writes (l.map fun p => (pixIndex s p.1 p.2, s.fg)) s)) := by
  rw [forEach_append, forEach_plotFg_ok l s fun p hp => ⟨hfg, h p hp⟩, andThen_ok, forEach_cons]
  have h1 : (writes (l.map fun p => (pixIndex s p.1 p.2, s.fg)) s).fgV = true := by rw [writes_only_fb]; exact hfg
  have h2 : inSurface (writes (l.map fun p => (pixIndex s p.1 p.2, s.fg)) s) p.1 p.2 = false := by rw [writes_only_fb]; exact hp
  simp [plotFg, plot, pixWrite, raiseRange, h1, h2]

/-- With FG unset the first point stops the list, wherever it lies. -/
theorem forEach_plotFg_unset (p : Int × Int) (l : List (Int × Int)) (s : State) (hfg : s.fgV = false) :
    forEach plotFg (p :: l) s = .error (takeFault .unset 0 0 0 s) := by
  simp [forEach_cons, plotFg, plot, hfg, raise, fgNumber]

/-- A command whose plots are the points of a drawable region paints that region. -/
theorem painted_of_points {P : Region} (s : State) (len : Nat) (l : List (Int × Int)) (hw : s.fb.wf = true)
    (hl : ∀ x y, P x y ↔ (x, y) ∈ l) (hd : Drawable s P) :
    ∃ t, finish len (forEach plotFg l s) = .next t ∧ Painted s t len P := by
  rw [forEach_plotFg_ok l s fun p hp => hd p.1 p.2 ((hl p.1 p.2).2 hp)]
  have hr := readFb_writes (fun _ => s.fg) (l.map fun p => (pixIndex s p.1 p.2, s.fg)) s hw
    (by simp only [List.mem_map]; rintro _ ⟨_, _, rfl⟩; rfl)
  refine ⟨_, rfl, ?_, writes_wf _ s hw, fun x y h => ?_, fun a h => ?_⟩
  · rw [writes_only_fb]
  · refine (hr _).trans (if_pos ?_)
    simp only [List.map_map, List.mem_map, Function.comp_apply]
    exact ⟨(x, y), (hl x y).1 h, rfl⟩
  · refine (hr _).trans (if_neg ?_)
    simp only [List.map_map, List.mem_map, Function.comp_apply, not_exists, not_and, Prod.forall]
    exact fun x y hm => h x y ((hl x y).2 hm)

/-! ## The shapes as lists of points -/

theorem span_eq (x y : Int) (n : Nat) (s : State) : span x y n s = forEach plotFg (runOrder x y n) s := by
  rw [span, forUp_eq_forEach, ← List.range_eq_range', runOrder, forEach_map]
  rfl

theorem vspan_eq (x y : Int) (n : Nat) (s : State) : vspan x y n s = forEach plotFg (columnOrder x y n) s := by
  rw [vspan, forUp_eq_forEach, ← List.range_eq_range', columnOrder, forEach_map]
  rfl

theorem mem_runOrder (x y : Int) (n : Nat) (p : Int × Int) : p ∈ runOrder x y n ↔ p.2 = y ∧ x ≤ p.1 ∧ p.1 < x + n := by
  obtain ⟨a, b⟩ := p
  simp only [runOrder, List.mem_map, List.mem_range, Prod.mk.injEq]
  constructor
  · rintro ⟨i, hi, rfl, rfl⟩
    omega
  · rintro ⟨rfl, h1, h2⟩
    exact ⟨(a - x).toNat, by omega, by omega, rfl⟩

theorem mem_columnOrder (x y : Int) (n : Nat) (p : Int × Int) : p ∈ columnOrder x y n ↔ p.1 = x ∧ y ≤ p.2 ∧ p.2 < y + n := by
  obtain ⟨a, b⟩ := p
  simp only [columnOrder, List.mem_map, List.mem_range, Prod.mk.injEq]
  constructor
  · rintro ⟨i, hi, rfl, rfl⟩
    omega
  · rintro ⟨rfl, h1, h2⟩
    exact ⟨(b - y).toNat, by omega, rfl, by omega⟩

/-- The points of the stroke pass, in order (R151, R156). -/
def strokePoints (cx cy : Int) (sc : Int → Int) (ps : List (Int × Int)) : List (Int × Int) :=
  ps.flatMap fun q => stroke8 cx cy (sc q.1) (sc q.2) q.1 q.2

theorem strokePass_eq (cx cy : Int) (sc : Int → Int) (ps : List (Int × Int)) (s : State) :
    strokePass cx cy sc ps s = forEach plotFg (strokePoints cx cy sc ps) s := forEach_flatMap _ _ _ _

/-- The points of the span pass, in order (R152, R157). -/
def fillPoints (cx cy : Int) (sc : Int → Int) (ps : List (Int × Int)) : List (Int × Int) :=
  ps.flatMap fun q => (fill4 cx cy (sc q.1) (sc q.2) q.1 q.2).flatMap fun f => runOrder f.1 f.2.1 (2 * f.2.2 + 1).toNat

theorem fillPass_eq (cx cy : Int) (sc : Int → Int) (ps : List (Int × Int)) (s : State) :
    fillPass cx cy sc ps s = forEach plotFg (fillPoints cx cy sc ps) s := by
  rw [fillPass, fillPoints, ← forEach_flatMap]
  refine forEach_congr _ _ fun q _ a => ?_
  rw [← forEach_flatMap]
  exact forEach_congr _ _ fun f _ a => span_eq _ _ _ _

/-- The points from the smaller to the larger of two columns. -/
def betweenPoints (p q y : Int) : List (Int × Int) := runOrder (min p q) y ((max p q - min p q) + 1).toNat

theorem spanBetween_eq (p q y : Int) (s : State) : spanBetween p q y s = forEach plotFg (betweenPoints p q y) s := span_eq _ _ _ _

theorem mem_betweenPoints (a b y : Int) (p : Int × Int) :
    p ∈ betweenPoints a b y ↔ p.2 = y ∧ min a b ≤ p.1 ∧ p.1 ≤ max a b := by
  rw [betweenPoints, mem_runOrder]
  omega

/-- The points of a triangle with sorted vertices, in order (R168). -/
def sortedPoints (a b c : Pt) : List (Int × Int) :=
  if a.2 = c.2 then betweenPoints (min (min a.1 b.1) c.1) (max (max a.1 b.1) c.1) a.2
  else
    (List.range ((c.2 - a.2) + 1).toNat).flatMap fun i : Nat =>
      betweenPoints (edgeX a c (a.2 + i)) (shortEdgeX a b c (a.2 + i)) (a.2 + i)

theorem fillSorted_eq (a b c : Pt) (s : State) : fillSorted a b c s = forEach plotFg (sortedPoints a b c) s := by
  simp only [fillSorted, sortedPoints]
  split
  · exact spanBetween_eq _ _ _ _
  · rw [forUp_eq_forEach, ← List.range_eq_range', ← forEach_flatMap]
    exact forEach_congr _ _ fun _ _ _ => spanBetween_eq _ _ _ _

/-- The points of `FillTriangle`, in order (R168). -/
def trianglePoints (p1 p2 p3 : Pt) : List (Int × Int) :=
  sortedPoints (sortY p1 p2 p3).1 (sortY p1 p2 p3).2.1 (sortY p1 p2 p3).2.2

theorem fillTriangle_eq (p1 p2 p3 : Pt) (s : State) : fillTriangle p1 p2 p3 s = forEach plotFg (trianglePoints p1 p2 p3) s :=
  fillSorted_eq _ _ _ _

/-- The points of a polygon's outline, in order (R165). -/
def outlinePoints (vs : List Pt) : List (Int × Int) :=
  (polyEdges vs).flatMap fun e => linePoints e.1.1 e.1.2 e.2.1 e.2.2

theorem outline_eq (vs : List Pt) (s : State) :
    forEach (fun e : Pt × Pt => line e.1.1 e.1.2 e.2.1 e.2.2) (polyEdges vs) s = forEach plotFg (outlinePoints vs) s :=
  forEach_flatMap _ _ _ _

/-- The points of a fan around `m`, in order (R166). -/
def fanPoints (vs : List Pt) (m : Pt) : List (Int × Int) := (polyEdges vs).flatMap fun e => trianglePoints e.1 e.2 m

theorem fan_eq (vs : List Pt) (m : Pt) (s : State) :
    forEach (fun e : Pt × Pt => fillTriangle e.1 e.2 m) (polyEdges vs) s = forEach plotFg (fanPoints vs m) s := by
  rw [fanPoints, ← forEach_flatMap]
  exact forEach_congr _ _ fun _ _ _ => fillTriangle_eq _ _ _ _

theorem runOrder_succ (x y : Int) (n : Nat) : runOrder x y (n + 1) = (x, y) :: runOrder (x + 1) y n := by
  simp only [runOrder, List.range_succ_eq_map, List.map_cons, List.map_map]
  refine congrArg₂ _ (by simp) (List.map_congr_left fun i _ => ?_)
  simp only [Function.comp_apply, Nat.cast_succ, Prod.mk.injEq, and_true]
  omega

/-- Edge `k` of the outline joins vertex `k` to the next one, the last one to the first (R165). -/
theorem mem_polyEdges (vs : List Pt) (e : Pt × Pt) :
    e ∈ polyEdges vs ↔ ∃ k < vs.length, e = (vs.getD k (0, 0), vs.getD ((k + 1) % vs.length) (0, 0)) := by
  have hto : ∀ (first : Pt) (l : List Pt), edgesTo first l = l.zip (l.tail ++ [first]) ∨ l = [] := by
    intro first l
    induction l with
    | nil => exact .inr rfl
    | cons v t ih =>
      left
      cases t with
      | nil => rfl
      | cons w t => simpa [edgesTo] using ih
  cases vs with
  | nil => simp [polyEdges]
  | cons v t =>
    have h := (hto v (v :: t)).resolve_right (by simp)
    rw [polyEdges, h, List.mem_iff_getElem?]
    simp only [List.tail_cons]
    constructor
    · rintro ⟨k, hk⟩
      obtain ⟨h1, h2⟩ := List.getElem?_zip_eq_some.1 hk
      obtain ⟨hk1, _⟩ := List.getElem?_eq_some_iff.1 h1
      refine ⟨k, hk1, Prod.ext ?_ ?_⟩
      · simp [List.getD, h1]
      · rcases Nat.lt_or_ge (k + 1) (v :: t).length with hlt | hge
        · rw [Nat.mod_eq_of_lt hlt]
          rw [List.getElem?_append_left (by simpa using hlt)] at h2
          simp [List.getD, h2]
        · have hke : k = t.length := by simp at hk1 hge; omega
          subst hke
          rw [List.getElem?_append_right (Nat.le_refl _)] at h2
          simp at h2
          simp [h2]
    · rintro ⟨k, hk, rfl⟩
      refine ⟨k, List.getElem?_zip_eq_some.2 ⟨?_, ?_⟩⟩
      · simp [List.getD, List.getElem?_eq_getElem hk]
      · rcases Nat.lt_or_ge (k + 1) (v :: t).length with hlt | hge
        · rw [Nat.mod_eq_of_lt hlt, List.getElem?_append_left (by simpa using hlt)]
          simp at hlt
          simp [List.getD, hlt]
        · have hke : k = t.length := by simp at hk hge; omega
          subst hke
          rw [List.getElem?_append_right (Nat.le_refl _)]
          simp

end Sys2Proof.Machine
end

