-- ==== Sys2Proof/Laws/Blocks.lean ====
section
/-! SUPPORT. What the block operations do when nothing stops them, said once each: the rows of a glyph, the rows of a BLIT and the rows
of a READBACK (spec 45_glyph.md R182, 46_image.md R190, R193). -/

namespace Sys2Proof.Machine

/-! ## Glyph rows -/

/-- The row string of `n` bytes that are all there: bit `8*n - 1 - c` is bit `7 - c mod 8` of byte `c div 8` (R181, R182). -/
theorem rowBits_ok (byteAt : ByteAt) (b : Nat → Byte) : ∀ (n j acc : Nat), (∀ i < n, byteAt (j + i) = .ok (b (j + i))) →
    ∃ v, rowBits byteAt j n acc = .ok v ∧ v / 2 ^ (8 * n) = acc ∧
      ∀ c < 8 * n, v.testBit (8 * n - 1 - c) = (b (j + c / 8)).getLsbD (7 - c % 8)
  | 0, _, acc, _ => ⟨acc, rfl, by simp, by omega⟩
  | n + 1, j, acc, h => by
    have h0 : byteAt j = .ok (b j) := by simpa using h 0 (by omega)
    obtain ⟨v, h1, h2, h3⟩ := rowBits_ok byteAt b n (j + 1) (acc * 256 + (b j).toNat) fun i hi => by
      have := h (i + 1) (by omega)
      rwa [show j + (i + 1) = j + 1 + i by omega] at this
    have hb := (b j).isLt
    refine ⟨v, by rw [rowBits, h0]; exact h1, ?_, fun c hc => ?_⟩
    · rw [show 8 * (n + 1) = 8 * n + 8 by omega, Nat.pow_add, ← Nat.div_div_eq_div_mul, h2]
      omega
    · rcases Nat.lt_or_ge c 8 with hlt | hge
      · rw [show 8 * (n + 1) - 1 - c = (7 - c) + 8 * n by omega, ← Nat.testBit_div_two_pow, h2,
          show c / 8 = 0 by omega, Nat.mod_eq_of_lt hlt, Nat.add_zero, BitVec.getLsbD,
          show acc * 256 + (b j).toNat = 2 ^ 8 * acc + (b j).toNat by omega, Nat.testBit_two_pow_mul_add _ hb,
          if_pos (by omega)]
      · have := h3 (c - 8) (by omega)
        rw [show 8 * n - 1 - (c - 8) = 8 * (n + 1) - 1 - c by omega, show j + 1 + (c - 8) / 8 = j + c / 8 by omega,
          show (c - 8) % 8 = c % 8 by omega] at this
        exact this

/-- The write of pixel (r, c) of a glyph at (x, y) whose bytes are `b` (R182). -/
def glyphWrite (s : State) (x y : Int) (b : Nat → Byte) (r c : Nat) : Nat × Pixel :=
  (pixIndex s (x + c) (y + r), glyphColour s (glyphBit b (bytesPerRow s) r c))

/-- The writes of a whole glyph, in order. -/
def glyphWrites (s : State) (x y : Int) (b : Nat → Byte) : List (Nat × Pixel) :=
  (List.range s.fontH.toNat).flatMap fun r => (List.range s.fontW.toNat).map fun c => glyphWrite s x y b r c

/-- A glyph whose bytes are all there and whose pixels can all be drawn is written, row by row (R182). -/
theorem glyphRows_ok (x y : Int) (byteAt : ByteAt) (b : Nat → Byte) (s : State)
    (hb : ∀ j < glyphBytes s, byteAt j = .ok (b j))
    (hd : ∀ r c, r < s.fontH.toNat → c < s.fontW.toNat →
      inSurface s (x + c) (y + r) = true ∧ glyphColourSet s (glyphBit b (bytesPerRow s) r c)) :
    glyphRows x y byteAt s = .ok (writes (glyphWrites s x y b) s) := by
  have hrow : ∀ (r : Nat) (l : List (Nat × Pixel)), r < s.fontH.toNat → glyphRow x y byteAt r (writes l s) =
      .ok (writes (l ++ (List.range s.fontW.toNat).map fun c => glyphWrite s x y b r c) s) := by
    intro r l hr
    have hbpr : bytesPerRow (writes l s) = bytesPerRow s := by rw [writes_only_fb, bytesPerRow, bytesPerRow]
    have hw : (writes l s).fontW = s.fontW := by rw [writes_only_fb]
    obtain ⟨v, h1, _, h3⟩ := rowBits_ok byteAt b (bytesPerRow s) (r * bytesPerRow s) 0 fun i hi => hb _ (by
      have : (r + 1) * bytesPerRow s ≤ s.fontH.toNat * bytesPerRow s := Nat.mul_le_mul_right _ hr
      rw [Nat.add_mul] at this
      rw [glyphBytes]
      omega)
    have hW : s.fontW.toNat ≤ 8 * bytesPerRow s := by rw [bytesPerRow]; omega
    have hink : ∀ c < s.fontW.toNat, inkAt v (bytesPerRow s) c = if glyphBit b (bytesPerRow s) r c then .fg else .bg := by
      intro c hc
      rw [inkAt, h3 c (by omega), glyphBit]
    simp only [glyphRow, hbpr, hw, h1]
    rw [forUp_eq_forEach, ← List.range_eq_range']
    rw [← forEach_map (fun q : Dot => plot q.1 q.2.1 q.2.2)
      (fun c : Nat => ((x + c, y + r, inkAt v (bytesPerRow s) c) : Dot))]
    rw [forEach_plot_ok, writes_append, List.map_map]
    · congr 2
      refine List.map_congr_left fun c hc => ?_
      rw [Function.comp_apply, dotWrite, glyphWrite, hink c (by simpa using hc)]
      rw [writes_only_fb]
      cases glyphBit b (bytesPerRow s) r c <;> rfl
    · intro q hq
      obtain ⟨c, hc, rfl⟩ := List.mem_map.1 hq
      have hc : c < s.fontW.toNat := by simpa using hc
      obtain ⟨g1, g2⟩ := hd r c hr hc
      rw [dotOk]
      simp only
      rw [writes_only_fb, hink c hc]
      refine ⟨?_, g1⟩
      cases hbit : glyphBit b (bytesPerRow s) r c <;> simpa [hbit, glyphColourSet, inkSet] using g2
  have hloop : ∀ (n i : Nat) (l : List (Nat × Pixel)), i + n ≤ s.fontH.toNat → forUp (glyphRow x y byteAt) i n (writes l s) =
      .ok (writes (l ++ (List.range' i n).flatMap fun r => (List.range s.fontW.toNat).map fun c => glyphWrite s x y b r c) s) := by
    intro n
    induction n with
    | zero => intro i l _; simp [forUp]
    | succ n ih =>
      intro i l h
      rw [forUp_succ, hrow i l (by omega), andThen_ok, ih (i + 1) _ (by omega), List.range'_succ, List.flatMap_cons,
        List.append_assoc]
  have := hloop s.fontH.toNat 0 [] (by omega)
  rw [← List.range_eq_range'] at this
  exact this

/-! ## The rows of a BLIT -/

/-- The writes of one row of a BLIT. -/
def blitRowWrites (s : State) (y x : Int) (l : List Half) : List (Nat × Pixel) :=
  (List.range l.length).map fun i : Nat => (pixIndex s (x + i) y, l.getD i 0)

theorem blitRow_ok (y : Int) (s : State) : ∀ (l : List Half) (x : Int) (ws : List (Nat × Pixel)),
    (∀ e ∈ l, native s e) → (∀ i < l.length, inSurface s (x + i) y = true) →
    blitRow y x l (writes ws s) = .ok (writes (ws ++ blitRowWrites s y x l) s)
  | [], x, ws, _, _ => by simp [blitRow, blitRowWrites]
  | e :: t, x, ws, hn, hs => by
    have h1 : native (writes ws s) e := by rw [native, writes_cfg]; exact hn e (by simp)
    have h2 : inSurface (writes ws s) x y = true := by
      have := hs 0 (by simp)
      simpa using this
    have h3 : andThen (checkColor e (writes ws s)) (pixWrite x y e) = .ok (writes (ws ++ [(pixIndex s x y, e)]) s) := by
      have h1' : e.toNat < 2 ^ (writes ws s).cfg.pixfmt.bpp := h1
      rw [checkColor, if_pos h1', andThen_ok, pixWrite, if_pos h2, writes_append, pixIndex_writes]
      rfl
    simp only [blitRow, h3]
    rw [blitRow_ok y s t (x + 1) _ (fun e' he => hn e' (by simp [he])) fun i hi => by
      have := hs (i + 1) (by simpa using hi)
      rwa [Nat.cast_succ, show x + ((i : Int) + 1) = x + 1 + i by ring] at this]
    rw [List.append_assoc]
    refine congrArg _ (congrArg (fun l => writes (ws ++ l) s) ?_)
    simp only [blitRowWrites, List.length_cons, List.range_succ_eq_map, List.map_cons, List.map_map, List.singleton_append]
    refine congrArg₂ _ (by simp) (List.map_congr_left fun i _ => ?_)
    simp only [Function.comp_apply, List.getD_cons_succ, Nat.cast_succ, Prod.mk.injEq, and_true]
    congr 1
    ring

/-- The writes of a whole BLIT, in order. -/
def blitWrites (s : State) (d : Dir) (p : Point) (w h : Nat) (l : List Half) : List (Nat × Pixel) :=
  (List.range h).flatMap fun j => blitRowWrites s (destRow d (py p) h j) (px p) (sourceRow w j l)

theorem length_sourceRow {w j h : Nat} {l : List Half} (hl : l.length = w * h) (hj : j < h) : (sourceRow w j l).length = w := by
  have : w * (j + 1) ≤ w * h := Nat.mul_le_mul_left _ hj
  rw [Nat.mul_add] at this
  rw [sourceRow, List.length_take, List.length_drop, hl, Nat.mul_comm j w]
  omega

theorem blit_ok (d : Dir) (p : Point) (w h : Half) (l : List Half) (s : State) (hl : l.length = w.toNat * h.toNat)
    (hn : ∀ e ∈ l, native s e)
    (hs : ∀ j i : Nat, j < h.toNat → i < w.toNat → inSurface s (px p + i) (destRow d (py p) h.toNat j) = true) :
    blit d p w h l s = .ok (writes (blitWrites s d p w.toNat h.toNat l) s) := by
  have hloop : ∀ (n i : Nat) (ws : List (Nat × Pixel)), i + n ≤ h.toNat →
      forUp (fun j => blitRow (destRow d (py p) (size h) j) (px p) (sourceRow (size w) j l)) i n (writes ws s) =
      .ok (writes (ws ++ (List.range' i n).flatMap fun j =>
        blitRowWrites s (destRow d (py p) h.toNat j) (px p) (sourceRow w.toNat j l)) s) := by
    intro n
    induction n with
    | zero => intro i ws _; simp [forUp]
    | succ n ih =>
      intro i ws hi
      have hr := blitRow_ok (destRow d (py p) h.toNat i) s (sourceRow w.toNat i l) (px p) ws
        (fun e he => hn e (List.mem_of_mem_drop (List.mem_of_mem_take he)))
        (fun k hk => hs i k (by omega) (by rwa [length_sourceRow hl (by omega)] at hk))
      rw [forUp_succ]
      simp only [size] at ih ⊢
      rw [hr, andThen_ok, ih (i + 1) _ (by omega), List.range'_succ, List.flatMap_cons, List.append_assoc]
  have := hloop h.toNat 0 [] (by omega)
  rw [← List.range_eq_range'] at this
  exact this

/-! ## Words emitted -/

/-- The state after emitting the words in order. -/
def emitAll (ws : List Word) (s : State) : State := ws.foldl (fun s v => emit v s) s

theorem emitAll_out : ∀ (ws : List Word) (s : State),
    emitAll ws s = { s with out := s.out ++ ws, outCount := (emitAll ws s).outCount } ∧
      (s.outCount.toNat + ws.length < 2 ^ 32 → (emitAll ws s).outCount = s.outCount + BitVec.ofNat 32 ws.length)
  | [], s => by simp [emitAll]
  | v :: ws, s => by
    obtain ⟨h1, h2⟩ := emitAll_out ws (emit v s)
    have hc : emitAll (v :: ws) s = emitAll ws (emit v s) := rfl
    rw [hc]
    constructor
    · rw [h1]
      simp [emit]
    · intro h
      simp only [List.length_cons] at h
      have e1 : (emit v s).outCount = s.outCount + 1 := by simp [emit, nextOutCount, show s.outCount.toNat + 1 < 4294967296 by omega]
      have e2 : (emit v s).outCount.toNat = s.outCount.toNat + 1 := by
        rw [e1, BitVec.toNat_add]
        have : (1 : BitVec 32).toNat = 1 := rfl
        omega
      rw [h2 (by omega), e1]
      apply BitVec.eq_of_toNat_eq
      simp
      omega

/-- A command that emits the words `ws` and completes. -/
theorem emitted_of_emitAll (ws : List Word) (s : State) (len : Nat) :
    ∃ t, finish len (.ok (emitAll ws s)) = .next t ∧ Emitted s t len ws := by
  obtain ⟨h1, h2⟩ := emitAll_out ws s
  refine ⟨_, rfl, ?_, h2⟩
  rw [h1]

/-- The words that reading pixels `l` emits, given the element held alone before them. -/
def heldWords : Option Pixel → List Pixel → List Word
  | none, l => packHalfRun l
  | some v, l => packHalfRun (v :: l)

/-- Reading on-surface positions, two elements a word, and flushing the one left over (R193). -/
theorem readStep_all (s : State) : ∀ (l : List (Int × Int)) (held : Option Pixel) (ws : List Word),
    (∀ q ∈ l, inSurface s q.1 q.2 = true) →
    ∃ a, forEach (fun q => readStep q.1 q.2) l (held, emitAll ws s) = .ok a ∧
      flushHeld a = emitAll (ws ++ heldWords held (l.map fun q => readFb s (pixIndex s q.1 q.2))) s
  | [], held, ws, _ => by
    refine ⟨_, rfl, ?_⟩
    cases held with
    | none => simp [flushHeld, heldWords, packHalfRun]
    | some v =>
      have hv : packHalves v 0 = v.setWidth 32 := by
        apply BitVec.eq_of_toNat_eq
        have := v.isLt
        simp [packHalves]
      simp only [flushHeld, heldWords, List.map_nil, packHalfRun, emitAll, List.foldl_append, List.foldl_cons, List.foldl_nil, hv]
  | q :: l, held, ws, h => by
    have hq := h q (by simp)
    have hr : pixRead q.1 q.2 (emitAll ws s) = .ok (readFb s (pixIndex s q.1 q.2)) := by
      rw [(emitAll_out ws s).1]
      exact if_pos hq
    rw [forEach_cons]
    cases held with
    | none =>
      simp only [readStep, hr, andThen_ok]
      obtain ⟨a, h1, h2⟩ := readStep_all s l (some (readFb s (pixIndex s q.1 q.2))) ws fun q' hq' => h q' (by simp [hq'])
      exact ⟨a, h1, h2⟩
    | some v =>
      simp only [readStep, hr, andThen_ok]
      have he : emit (packHalves v (readFb s (pixIndex s q.1 q.2))) (emitAll ws s) =
          emitAll (ws ++ [packHalves v (readFb s (pixIndex s q.1 q.2))]) s := by
        simp [emitAll]
      rw [he]
      obtain ⟨a, h1, h2⟩ := readStep_all s l none (ws ++ [packHalves v (readFb s (pixIndex s q.1 q.2))])
        fun q' hq' => h q' (by simp [hq'])
      refine ⟨a, h1, ?_⟩
      rw [h2, List.append_assoc]
      rfl

theorem destRow_eq (d : Dir) (y : Int) (h j : Nat) : destRow d y h j = blockRow d y h j := by
  cases d
  · rfl
  · simp only [destRow, blockRow]
    ring

/-- A READBACK of a block on the surface emits its pixels, row by row, two to a word (R193). -/
theorem readback_ok (d : Dir) (p : Point) (w h : Half) (s : State)
    (hs : ∀ j i : Nat, j < h.toNat → i < w.toNat → inSurface s (px p + i) (destRow d (py p) h.toNat j) = true) :
    readback d p w h s = .ok (emitAll (packHalfRun (blockPixels s d p w.toNat h.toNat)) s) := by
  have hflat : forUp (fun j => forUp (fun i => readStep (px p + i) (destRow d (py p) (size h) j)) 0 (size w)) 0 (size h) (none, s) =
      forEach (fun q : Int × Int => readStep q.1 q.2) ((List.range h.toNat).flatMap fun j : Nat => (List.range w.toNat).map fun i : Nat =>
        (px p + i, destRow d (py p) h.toNat j)) (none, s) := by
    rw [forUp_eq_forEach, ← List.range_eq_range', ← forEach_flatMap]
    refine forEach_congr _ _ fun j _ a => ?_
    rw [forUp_eq_forEach, ← List.range_eq_range', forEach_map]
    rfl
  obtain ⟨a, h1, h2⟩ := readStep_all s ((List.range h.toNat).flatMap fun j : Nat => (List.range w.toNat).map fun i : Nat =>
        (px p + i, destRow d (py p) h.toNat j)) none [] (by
    intro q hq
    obtain ⟨j, hj, hq⟩ := List.mem_flatMap.1 hq
    obtain ⟨i, hi, rfl⟩ := List.mem_map.1 hq
    exact hs j i (by simpa using hj) (by simpa using hi))
  have h1' : forEach (fun q : Int × Int => readStep q.1 q.2) ((List.range h.toNat).flatMap fun j : Nat => (List.range w.toNat).map fun i : Nat =>
        (px p + i, destRow d (py p) h.toNat j)) (none, s) = .ok a := h1
  rw [readback, hflat, h1']
  simp only [h2, List.nil_append, heldWords, blockPixels, List.map_flatMap, List.map_map, Function.comp_def, destRow_eq]

end Sys2Proof.Machine
end

