-- ==== Sys2Proof/Laws/Decode.lean ====
section
/-! SUPPORT. What the decoder can answer, said once (spec 30_encoding.md R81 lines 1 to 10). -/

namespace Sys2Proof

theorem hasWords_eq {α : Type} (l : List α) (n : Nat) : hasWords l n = decide (n ≤ l.length) := by
  by_cases h : n ≤ l.length
  · simp [h, (hasWords_iff l n).2 h]
  · simp [h, mt (hasWords_iff l n).1 h]

/-- The decoder answers the command of a header that is in the map, may be run, has its reserved fields as required, and whose
packet lies inside the list. -/
theorem decode_ok {hr : Bool} {h : Word} {ks : List Word} {op : Opcode} (ho : opcodeOf (opField h) = some op)
    (hread : needsRead op = true → hr = true) (hres : reservedOk op h = true) (hF : fixedLen op ≤ ks.length + 1)
    (hL : packetLen op (nField h) ks ≤ ks.length + 1) : decode hr (h :: ks) = .ok (build op h ks) := by
  have h1 : (needsRead op && !hr) = false := by
    cases hn : needsRead op <;> simp_all
  have h2 : fixedLen op - 1 ≤ ks.length := by omega
  have h3 : packetLen op (nField h) ks - 1 ≤ ks.length := by omega
  simp [decode, ho, h1, hres, hasWords_eq, h2, h3]

theorem fixedLen_pos (op : Opcode) : 1 ≤ fixedLen op := by
  cases op <;> simp [fixedLen]

theorem packetLen_pos (op : Opcode) (n : Half) (ks : List Word) : 1 ≤ packetLen op n ks := by
  cases op <;> simp only [packetLen, fixedLen] <;> omega

/-- Everything that a decoder's answer says of the words. -/
theorem decode_inv {hr : Bool} {ws : List Word} {i : Instr} (hd : decode hr ws = .ok i) :
    ∃ h ks op, ws = h :: ks ∧ opcodeOf (opField h) = some op ∧ (needsRead op = true → hr = true) ∧ reservedOk op h = true ∧
      fixedLen op ≤ ks.length + 1 ∧ packetLen op (nField h) ks ≤ ks.length + 1 ∧ i = build op h ks := by
  cases ws with
  | nil => simp [decode] at hd
  | cons h ks =>
    simp only [decode] at hd
    split at hd
    · cases hd
    · rename_i op ho
      split at hd
      · cases hd
      · rename_i hread
        split at hd
        · cases hd
        · rename_i hres
          split at hd
          · cases hd
          · rename_i hF
            split at hd
            · cases hd
            · rename_i hL
              have h1 := fixedLen_pos op
              have h2 := packetLen_pos op (nField h) ks
              refine ⟨h, ks, op, rfl, ho, ?_, ?_, ?_, ?_, ?_⟩
              · intro hn
                cases hr <;> simp_all
              · simpa using hres
              · simp only [hasWords_eq, Bool.not_eq_true', decide_eq_false_iff_not, not_not] at hF
                omega
              · simp only [hasWords_eq, Bool.not_eq_true', decide_eq_false_iff_not, not_not] at hL
                omega
              · exact (Except.ok.inj hd).symm

end Sys2Proof
end

