-- ==== Sys2Proof/Laws/Orders.lean ====
section
/-! SUPPORT. The Plot calls of every command that draws in FG alone, in order: the loops of the meanings plot the lists of Safety.lean, and
those lists cover the regions (spec files 42 to 44, 00_scope.md R10). -/

namespace Sys2Proof.Machine

/-! ## Lines -/

/-- The minor offset is the one within half a step of the exact quotient (R144(d)). -/
theorem minorOffset_eq (D a k m : Int) (hD : 0 < D) (h1 : -D < 2 * (k * a - D * m)) (h2 : 2 * (k * a - D * m) ≤ D) :
    minorOffset D a k = m := by
  rw [minorOffset, if_neg (by omega)]
  have : 2 * k * a + D - 1 = (2 * (k * a - D * m) + D - 1) + (2 * D) * m := by ring
  rw [this, Int.add_mul_ediv_left _ _ (by omega), Int.ediv_eq_zero_of_lt (by omega) (by omega)]
  omega

/-- The Bresenham walk in closed form, from any point of it on (R143, R144(d)). -/
theorem walk_eq (D a st us vs : Int) (hD : 0 < D) (ha : 0 ≤ a) (haD : a ≤ D) : ∀ (n : Nat) (k m : Int),
    -D < 2 * (k * a - D * m) → 2 * (k * a - D * m) ≤ D →
    walk D a st n (us + k) (vs + st * m) (k * a - D * m) =
      (List.range n).map fun i : Nat => (us + k + i, vs + st * minorOffset D a (k + i))
  | 0, _, _, _, _ => rfl
  | n + 1, k, m, h1, h2 => by
    have hm := minorOffset_eq D a k m hD h1 h2
    have htail : ∀ f : Nat → Int × Int, (List.range n).map (f ∘ Nat.succ) = (List.range n).map fun i => f (i + 1) := fun _ => rfl
    rw [walk, List.range_succ_eq_map, List.map_cons, List.map_map, htail]
    congr 1
    · simp [hm]
    · split
      · rw [show us + k + 1 = us + (k + 1) by ring, show vs + st * m + st = vs + st * (m + 1) by ring,
          show k * a - D * m + a - D = (k + 1) * a - D * (m + 1) by ring,
          walk_eq D a st us vs hD ha haD n (k + 1) (m + 1)]
        · refine List.map_congr_left fun i _ => ?_
          rw [Nat.cast_succ, show us + (k + 1) + (i : Int) = us + k + ((i : Int) + 1) by ring, show k + 1 + (i : Int) = k + ((i : Int) + 1) by ring]
        · rw [show (k + 1) * a - D * (m + 1) = k * a - D * m + a - D by ring]
          omega
        · rw [show (k + 1) * a - D * (m + 1) = k * a - D * m + a - D by ring]
          omega
      · rw [show us + k + 1 = us + (k + 1) by ring, show k * a - D * m + a = (k + 1) * a - D * m by ring,
          walk_eq D a st us vs hD ha haD n (k + 1) m]
        · refine List.map_congr_left fun i _ => ?_
          rw [Nat.cast_succ, show us + (k + 1) + (i : Int) = us + k + ((i : Int) + 1) by ring, show k + 1 + (i : Int) = k + ((i : Int) + 1) by ring]
        · rw [show (k + 1) * a - D * m = k * a - D * m + a by ring]
          omega
        · rw [show (k + 1) * a - D * m = k * a - D * m + a by ring]
          omega

theorem walk_eq_walkOrder (us vs ue ve : Int) (h : us ≤ ue) (hm : |ve - vs| ≤ ue - us) :
    walk (ue - us) |ve - vs| (ve - vs).sign ((ue - us).toNat + 1) us vs 0 = walkOrder us vs ue ve := by
  rcases eq_or_lt_of_le h with rfl | hlt
  · have hv : ve = vs := by
      have h0 : |ve - vs| = 0 := le_antisymm (by omega) (abs_nonneg _)
      have := abs_eq_zero.1 h0
      omega
    subst hv
    simp [walk, walkOrder]
  · have := walk_eq (ue - us) |ve - vs| (ve - vs).sign us vs (by omega) (abs_nonneg _) hm ((ue - us).toNat + 1) 0 0 (by omega) (by omega)
    simpa [walkOrder] using this

theorem majorWalk_eq (u1 v1 u2 v2 : Int) (h : |v2 - v1| ≤ |u2 - u1|) : majorWalk u1 v1 u2 v2 = majorOrder u1 v1 u2 v2 := by
  have e1 : ((u2 - u1).natAbs : Int) = |u2 - u1| := Int.natCast_natAbs _
  have e2 : ((v2 - v1).natAbs : Int) = |v2 - v1| := Int.natCast_natAbs _
  rw [majorWalk, majorOrder]
  simp only [e1, e2]
  by_cases hc : u1 ≤ u2
  · have e3 : |u2 - u1| = u2 - u1 := abs_of_nonneg (by omega)
    rw [if_neg (by omega), if_pos hc, e3, ← walk_eq_walkOrder _ _ _ _ hc (by omega), show (u2 - u1).natAbs = (u2 - u1).toNat by omega]
  · have e3 : |u2 - u1| = u1 - u2 := by
      rw [abs_sub_comm]
      exact abs_of_nonneg (by omega)
    have e4 := abs_sub_comm v1 v2
    rw [if_pos (by omega), if_neg hc, e3, ← walk_eq_walkOrder _ _ _ _ (by omega) (by omega), show (u2 - u1).natAbs = (u1 - u2).toNat by omega, e4]

/-- `Line` plots its closed form, in order (R143, R144). -/
theorem linePoints_eq (x1 y1 x2 y2 : Int) : linePoints x1 y1 x2 y2 = lineOrder x1 y1 x2 y2 := by
  have e1 : ((x2 - x1).natAbs : Int) = |x2 - x1| := Int.natCast_natAbs _
  have e2 : ((y2 - y1).natAbs : Int) = |y2 - y1| := Int.natCast_natAbs _
  rw [linePoints, lineOrder]
  by_cases hc : |x2 - x1| ≥ |y2 - y1|
  · rw [if_pos (by omega), if_pos hc, majorWalk_eq _ _ _ _ hc]
  · rw [if_neg (by omega), if_neg hc, majorWalk_eq _ _ _ _ (by omega)]

theorem mem_walkOrder {us vs ue ve : Int} (h : us ≤ ue) (u v : Int) : (u, v) ∈ walkOrder us vs ue ve ↔ WalkPoint us vs ue ve u v := by
  simp only [walkOrder, List.mem_map, List.mem_range, Prod.mk.injEq, WalkPoint]
  constructor
  · rintro ⟨k, hk, rfl, rfl⟩
    exact ⟨by omega, by omega, by rw [show us + (k : Int) - us = k by ring]⟩
  · rintro ⟨h1, h2, rfl⟩
    exact ⟨(u - us).toNat, by omega, by omega, by rw [show (((u - us).toNat : Nat) : Int) = u - us by omega]⟩

theorem mem_majorOrder (u1 v1 u2 v2 u v : Int) : (u, v) ∈ majorOrder u1 v1 u2 v2 ↔ MajorPoint u1 v1 u2 v2 u v := by
  rw [majorOrder, MajorPoint]
  split
  · exact mem_walkOrder ‹_› u v
  · exact mem_walkOrder (by omega) u v

theorem mem_lineOrder (x1 y1 x2 y2 x y : Int) : LineRegion x1 y1 x2 y2 x y ↔ (x, y) ∈ lineOrder x1 y1 x2 y2 := by
  rw [LineRegion, lineOrder]
  split
  · exact (mem_majorOrder _ _ _ _ _ _).symm
  · rw [← mem_majorOrder]
    simp

/-! ## Curves -/

theorem strokePoints_eq (cx cy : Int) (r : Nat) (sc : Int → Int) : strokePoints cx cy sc (octant r) = strokeOrder cx cy r sc := rfl

theorem fillPoints_eq (cx cy : Int) (r : Nat) (sc : Int → Int) : fillPoints cx cy sc (octant r) = fillOrder cx cy r sc := by
  simp only [fillPoints, fillOrder, fill4, List.flatMap_cons, List.flatMap_nil, List.append_nil, List.append_assoc]

/-- The pairs of the octant generator lie between 0 and its start (R150). -/
theorem octantFrom_bounds : ∀ (fuel : Nat) (u v D : Int) (q : Int × Int), q ∈ octantFrom fuel u v D → u ≤ q.1 ∧ q.1 ≤ q.2 ∧ q.2 ≤ v
  | 0, _, _, _, _, h => by simp [octantFrom] at h
  | n + 1, u, v, D, q, h => by
    rw [octantFrom] at h
    split at h
    · rcases List.mem_cons.1 h with rfl | h
      · simp_all
      · split at h <;> have := octantFrom_bounds n _ _ _ q h <;> omega
    · simp at h

theorem mem_strokeOrder (cx cy : Int) (r : Nat) (sc : Int → Int) (hsc : ∀ t, 0 ≤ t → 0 ≤ sc t) (x y : Int) :
    StrokeRegion cx cy r sc x y ↔ (x, y) ∈ strokeOrder cx cy r sc := by
  simp only [StrokeRegion, strokeOrder, List.mem_flatMap]
  refine exists_congr fun q => and_congr_right fun hq => ?_
  have hb := octantFrom_bounds _ _ _ _ q hq
  have h1 := hsc q.1 (by omega)
  have h2 := hsc q.2 (by omega)
  simp only [List.mem_cons, Prod.mk.injEq, List.not_mem_nil, or_false]
  generalize sc q.1 = a at *
  generalize sc q.2 = b at *
  simp only [abs_eq h1, abs_eq h2, abs_eq (show 0 ≤ q.1 by omega), abs_eq (show 0 ≤ q.2 by omega)]
  constructor
  · rintro (⟨h | h, h' | h'⟩ | ⟨h | h, h' | h'⟩) <;> omega
  · omega

theorem mem_fillOrder (cx cy : Int) (r : Nat) (sc : Int → Int) (hsc : ∀ t, 0 ≤ t → 0 ≤ sc t) (x y : Int) :
    FillRegion cx cy r sc x y ↔ (x, y) ∈ fillOrder cx cy r sc := by
  simp only [FillRegion, fillOrder, List.mem_flatMap]
  refine exists_congr fun q => and_congr_right fun hq => ?_
  have hb := octantFrom_bounds _ _ _ _ q hq
  have h1 := hsc q.1 (by omega)
  have h2 := hsc q.2 (by omega)
  simp only [List.mem_append, mem_runOrder]
  generalize sc q.1 = a at *
  generalize sc q.2 = b at *
  simp only [abs_le, abs_eq (show 0 ≤ q.1 by omega), abs_eq (show 0 ≤ q.2 by omega)]
  constructor
  · rintro (⟨h | h, h'⟩ | ⟨h | h, h'⟩) <;> omega
  · omega

theorem fillRegion_of_stroke {cx cy : Int} {r : Nat} {sc : Int → Int} {x y : Int} (h : StrokeRegion cx cy r sc x y) :
    FillRegion cx cy r sc x y := by
  obtain ⟨q, hq, h | h⟩ := h
  · exact ⟨q, hq, .inl ⟨h.2, le_of_eq h.1⟩⟩
  · exact ⟨q, hq, .inr ⟨h.2, le_of_eq h.1⟩⟩

/-! ## Triangles -/

theorem mem_sortedPoints (a b c : Pt) (h1 : a.2 ≤ b.2) (h2 : b.2 ≤ c.2) (x y : Int) :
   (x, y) ∈ sortedPoints a b c ↔ TriangleRegion a b c x y := by
  rw [sortedPoints, TriangleRegion]
  by_cases hac : a.2 = c.2
  · rw [if_pos hac, if_pos (by omega), mem_betweenPoints]
    simp only
    omega
  · rw [if_neg hac, if_neg (by omega)]
    simp only [List.mem_flatMap, List.mem_range, mem_betweenPoints]
    have hm : ∀ v, TriangleMeets a b c y v ↔ (a.2 ≤ y ∧ y ≤ c.2 ∧ (v = edgeX a c y ∨ v = shortEdgeX a b c y)) := by
      intro v
      simp only [TriangleMeets, EdgeMeets]
      have eab : a.2 < b.2 → edgeX a b b.2 = b.1 := by
        intro h; rw [edgeX, Int.mul_ediv_cancel _ (by omega)]; ring
      have ebc : edgeX b c b.2 = b.1 := by
        rw [edgeX]; simp
      have eac : edgeX a c a.2 = a.1 := by rw [edgeX]; simp
      have ea1 : edgeX a c c.2 = c.1 := by rw [edgeX, Int.mul_ediv_cancel _ (by omega)]; ring
      rw [shortEdgeX]
      have g : ∀ p q : Pt, p.1 + (q.1 - p.1) * (y - p.2) / (q.2 - p.2) = edgeX p q y := fun _ _ => rfl
      rw [g, g, g, g, g, g]
      constructor
      · rintro ((⟨k1, k2, k3, k4⟩ | k) | (⟨k1, k2, k3, k4⟩ | k) | (⟨k1, k2, k3, k4⟩ | k))
        · refine ⟨by omega, by omega, .inr ?_⟩
          rcases lt_or_eq_of_le k3 with h | h
          · rw [if_pos h, k4]
          · subst h; rw [if_neg (by omega), if_pos rfl, k4, eab k1]
        · omega
        · refine ⟨by omega, by omega, .inr ?_⟩
          rcases lt_or_eq_of_le k2 with h | h
          · rw [if_neg (by omega), if_neg (by omega), k4]
          · subst h; rw [if_neg (by omega), if_pos rfl, k4, ebc]
        · omega
        · exact ⟨by omega, by omega, .inl k4⟩
        · omega
      · rintro ⟨k1, k2, k | k⟩
        · right; right; left; exact ⟨by omega, k1, k2, k⟩
        · split at k
          · left; left; exact ⟨by omega, by omega, by omega, k⟩
          · split at k
            · rename_i hyb
              by_cases hab : a.2 < b.2
              · left; left; refine ⟨by omega, by omega, by omega, ?_⟩; rw [hyb, eab hab, k]
              · right; left; left; refine ⟨by omega, by omega, by omega, ?_⟩; rw [hyb, ebc, k]
            · right; left; left; exact ⟨by omega, by omega, by omega, k⟩
    simp only [hm]
    constructor
    · rintro ⟨i, hi, rfl, h3, h4⟩
      generalize edgeX a c (a.2 + i) = e at *
      generalize shortEdgeX a b c (a.2 + i) = f at *
      refine ⟨min e f, max e f, ⟨by omega, by omega, by omega⟩, ⟨by omega, by omega, by omega⟩, h3, h4⟩
    · rintro ⟨l, r, ⟨k1, k2, k3⟩, ⟨_, _, k4⟩, k5, k6⟩
      refine ⟨(y - a.2).toNat, by omega, ?_⟩
      rw [show a.2 + ((y - a.2).toNat : Int) = y by omega]
      omega

theorem edgeMeets_comm (p q : Pt) (y v) : EdgeMeets p q y v ↔ EdgeMeets q p y v := by
  simp only [EdgeMeets]; tauto

theorem triangleRegion_swap12 (a b c : Pt) (x y) : TriangleRegion a b c x y ↔ TriangleRegion b a c x y := by
  simp only [TriangleRegion, TriangleMeets, edgeMeets_comm b a]
  have h : (a.2 = b.2 ∧ b.2 = c.2) ↔ (b.2 = a.2 ∧ a.2 = c.2) := by omega
  by_cases hc : (a.2 = b.2 ∧ b.2 = c.2)
  · rw [if_pos hc, if_pos (h.1 hc)]; omega
  · rw [if_neg hc, if_neg (mt h.2 hc)]
    have : ∀ v, (EdgeMeets a b y v ∨ EdgeMeets b c y v ∨ EdgeMeets a c y v) ↔
        (EdgeMeets a b y v ∨ EdgeMeets a c y v ∨ EdgeMeets b c y v) := by intro v; tauto
    simp only [this]

theorem triangleRegion_swap23 (a b c : Pt) (x y) : TriangleRegion a b c x y ↔ TriangleRegion a c b x y := by
  simp only [TriangleRegion, TriangleMeets, edgeMeets_comm c b]
  have h : (a.2 = b.2 ∧ b.2 = c.2) ↔ (a.2 = c.2 ∧ c.2 = b.2) := by omega
  by_cases hc : (a.2 = b.2 ∧ b.2 = c.2)
  · rw [if_pos hc, if_pos (h.1 hc)]; omega
  · rw [if_neg hc, if_neg (mt h.2 hc)]
    have : ∀ v, (EdgeMeets a b y v ∨ EdgeMeets b c y v ∨ EdgeMeets a c y v) ↔
        (EdgeMeets a c y v ∨ EdgeMeets b c y v ∨ EdgeMeets a b y v) := by intro v; tauto
    simp only [this]

theorem mem_trianglePoints (a b c : Pt) (x y : Int) : TriangleRegion a b c x y ↔ (x, y) ∈ trianglePoints a b c := by
  unfold trianglePoints sortY orderY
  simp only
  by_cases h1 : a.2 > b.2
  · simp only [h1, if_true]
    by_cases h2 : a.2 > c.2
    · simp only [h2, if_true]
      by_cases h3 : b.2 > c.2
      · simp only [h3, if_true]
        rw [mem_sortedPoints _ _ _ (by omega) (by omega), triangleRegion_swap12, triangleRegion_swap23, triangleRegion_swap12]
      · simp only [h3, if_false]
        rw [mem_sortedPoints _ _ _ (by omega) (by omega), triangleRegion_swap12, triangleRegion_swap23]
    · simp only [h2, if_false, show ¬ b.2 > a.2 by omega]
      rw [mem_sortedPoints _ _ _ (by omega) (by omega), triangleRegion_swap12]
  · simp only [h1, if_false]
    by_cases h2 : b.2 > c.2
    · simp only [h2, if_true]
      by_cases h3 : a.2 > c.2
      · simp only [h3, if_true]
        rw [mem_sortedPoints _ _ _ (by omega) (by omega), triangleRegion_swap23, triangleRegion_swap12]
      · simp only [h3, if_false]
        rw [mem_sortedPoints _ _ _ (by omega) (by omega), triangleRegion_swap23]
    · simp only [h2, if_false, h1]
      rw [mem_sortedPoints _ _ _ (by omega) (by omega)]

theorem mem_edgeColumns (p q : Pt) (y v : Int) : v ∈ edgeColumns p q y ↔ EdgeMeets p q y v := by
  rw [edgeColumns, EdgeMeets]
  split
  · rw [List.mem_singleton]
    omega
  · split
    · rw [List.mem_singleton]
      omega
    · simp only [List.not_mem_nil, false_iff]
      omega

theorem foldl_min_le : ∀ (t : List Int) (a : Int), t.foldl min a ≤ a ∧
    (∀ b ∈ t, t.foldl min a ≤ b) ∧ (t.foldl min a = a ∨ t.foldl min a ∈ t)
  | [], a => by simp
  | b :: t, a => by
    obtain ⟨h1, h2, h3⟩ := foldl_min_le t (min a b)
    rw [List.foldl_cons]
    refine ⟨by omega, fun c hc => ?_, ?_⟩
    · rcases List.mem_cons.1 hc with rfl | hc
      · omega
      · exact h2 c hc
    · rcases h3 with h3 | h3
      · rw [h3]
        rcases min_choice a b with h | h <;> simp [h]
      · simp [h3]

theorem le_foldl_max : ∀ (t : List Int) (a : Int), a ≤ t.foldl max a ∧
    (∀ b ∈ t, b ≤ t.foldl max a) ∧ (t.foldl max a = a ∨ t.foldl max a ∈ t)
  | [], a => by simp
  | b :: t, a => by
    obtain ⟨h1, h2, h3⟩ := le_foldl_max t (max a b)
    rw [List.foldl_cons]
    refine ⟨by omega, fun c hc => ?_, ?_⟩
    · rcases List.mem_cons.1 hc with rfl | hc
      · omega
      · exact h2 c hc
    · rcases h3 with h3 | h3
      · rw [h3]
        rcases max_choice a b with h | h <;> simp [h]
      · simp [h3]

theorem mem_betweenOrder (xs : List Int) (y x z : Int) : (x, z) ∈ betweenOrder xs y ↔
    z = y ∧ ∃ l ∈ xs, ∃ r ∈ xs, l ≤ x ∧ x ≤ r := by
  cases xs with
  | nil => simp [betweenOrder]
  | cons a t =>
    obtain ⟨l1, l2, l3⟩ := foldl_min_le t a
    obtain ⟨r1, r2, r3⟩ := le_foldl_max t a
    rw [betweenOrder, mem_runOrder]
    constructor
    · rintro ⟨h1, h2, h3⟩
      exact ⟨h1, _, List.mem_cons.2 l3, _, List.mem_cons.2 r3, h2, by omega⟩
    · rintro ⟨h1, l, hl, r, hr, h2, h3⟩
      have hl' : t.foldl min a ≤ l := by
        rcases List.mem_cons.1 hl with rfl | hl
        · exact l1
        · exact l2 l hl
      have hr' : r ≤ t.foldl max a := by
        rcases List.mem_cons.1 hr with rfl | hr
        · exact r1
        · exact r2 r hr
      exact ⟨h1, by simp only; omega, by simp only; omega⟩

theorem mem_triangleOrder (a b c : Pt) (x y : Int) : TriangleRegion a b c x y ↔ (x, y) ∈ triangleOrder a b c := by
  have hrow : (x, y) ∈ triangleOrder a b c ↔ min (min a.2 b.2) c.2 ≤ y ∧ y ≤ max (max a.2 b.2) c.2 ∧
      ∃ l ∈ triangleColumns a b c y, ∃ r ∈ triangleColumns a b c y, l ≤ x ∧ x ≤ r := by
    simp only [triangleOrder, List.mem_flatMap, List.mem_range, mem_betweenOrder]
    constructor
    · rintro ⟨i, hi, h1, h2⟩
      rw [h1]
      exact ⟨by omega, by omega, h2⟩
    · rintro ⟨h1, h2, h3⟩
      refine ⟨(y - min (min a.2 b.2) c.2).toNat, by omega, by omega, ?_⟩
      rwa [show min (min a.2 b.2) c.2 + (((y - min (min a.2 b.2) c.2).toNat : Nat) : Int) = y by omega]
  rw [hrow, TriangleRegion, triangleColumns]
  split
  · simp only [List.mem_cons, List.not_mem_nil, or_false]
    constructor
    · rintro ⟨h1, h2, h3⟩
      refine ⟨by omega, by omega, min (min a.1 b.1) c.1, by omega, max (max a.1 b.1) c.1, by omega, h2, h3⟩
    · rintro ⟨h1, h2, l, hl, r, hr, h3, h4⟩
      exact ⟨by omega, by omega, by omega⟩
  · simp only [List.mem_append, mem_edgeColumns, or_assoc]
    have hin : ∀ v, TriangleMeets a b c y v → min (min a.2 b.2) c.2 ≤ y ∧ y ≤ max (max a.2 b.2) c.2 := by
      intro v h
      simp only [TriangleMeets, EdgeMeets] at h
      omega
    constructor
    · rintro ⟨l, r, hl, hr, h1, h2⟩
      exact ⟨(hin l hl).1, (hin l hl).2, l, hl, r, hr, h1, h2⟩
    · rintro ⟨_, _, l, hl, r, hr, h1, h2⟩
      exact ⟨l, r, hl, hr, h1, h2⟩

/-- Before in row-major order: a row above, or the same row and a column to the left. -/
def RowMajor (p q : Int × Int) : Prop := p.2 < q.2 ∨ (p.2 = q.2 ∧ p.1 < q.1)

theorem rowMajor_runOrder (x y : Int) (n : Nat) : (runOrder x y n).Pairwise RowMajor := by
  rw [runOrder, List.pairwise_map]
  exact List.pairwise_lt_range.imp fun h => .inr ⟨rfl, by simp only; omega⟩

/-- Rows one below another, each from left to right. -/
theorem rowMajor_rows (top : Int) (row : Nat → List (Int × Int)) (n : Nat) (h : ∀ i, (row i).Pairwise RowMajor)
    (hy : ∀ i, ∀ p ∈ row i, p.2 = top + i) : ((List.range n).flatMap row).Pairwise RowMajor := by
  rw [List.pairwise_flatMap]
  refine ⟨fun i _ => h i, List.pairwise_lt_range.imp fun {i j} hij p hp q hq => .inl ?_⟩
  rw [hy i p hp, hy j q hq]
  omega

/-- Two lists in row-major order with the same members are the same list. -/
theorem eq_of_rowMajor {l m : List (Int × Int)} (hl : l.Pairwise RowMajor) (hm : m.Pairwise RowMajor) (h : ∀ p, p ∈ l ↔ p ∈ m) : l = m := by
  have hne : ∀ {p q : Int × Int}, RowMajor p q → p ≠ q := by
    rintro p _ h rfl
    rcases h with h | ⟨_, h⟩ <;> omega
  refine List.Perm.eq_of_pairwise (fun p q _ _ h1 h2 => ?_) hl hm ((List.perm_ext_iff_of_nodup (hl.imp hne) (hm.imp hne)).2 h)
  rcases h1 with h1 | ⟨_, h1⟩ <;> rcases h2 with h2 | ⟨_, h2⟩ <;> omega

/-- `FillTriangle` plots its scanlines from top to bottom, each from left to right (R168). -/
theorem trianglePoints_eq (a b c : Pt) : trianglePoints a b c = triangleOrder a b c := by
  have hsorted : ∀ a b c, (sortedPoints a b c).Pairwise RowMajor := by
    intro a b c
    rw [sortedPoints]
    split
    · exact rowMajor_runOrder _ _ _
    · exact rowMajor_rows a.2 _ _ (fun i => rowMajor_runOrder _ _ _) fun i p hp => ((mem_betweenPoints _ _ _ p).1 hp).1
  have horder : (triangleOrder a b c).Pairwise RowMajor := by
    refine rowMajor_rows _ _ _ (fun i => ?_) fun i p hp => ((mem_betweenOrder _ _ p.1 p.2).1 hp).1
    cases triangleColumns a b c (min (min a.2 b.2) c.2 + (i : Int)) with
    | nil => exact List.Pairwise.nil
    | cons x t => exact rowMajor_runOrder _ _ _
  exact eq_of_rowMajor (hsorted _ _ _) horder fun p => by rw [← mem_trianglePoints, ← mem_triangleOrder]

/-! ## Polygons -/

theorem polyEdges_eq (vs : List Point) :
    polyEdges (vs.map ptOf) = (List.range vs.length).map fun k => (vertex vs k, vertex vs ((k + 1) % vs.length)) := by
  have hto : ∀ (first : Pt) (v : Pt) (t : List Pt), edgesTo first (v :: t) = (v :: t).zip (t ++ [first]) := by
    intro first v t
    induction t generalizing v with
    | nil => rfl
    | cons w t ih => simp [edgesTo, ih w]
  cases vs with
  | nil => rfl
  | cons v t =>
    rw [List.map_cons, polyEdges, hto]
    refine List.ext_getElem (by simp) fun k h1 h2 => ?_
    have hk : k < t.length + 1 := by simpa using h2
    have hv : ∀ j (hj : j < t.length + 1), (ptOf v :: t.map ptOf)[j]'(by simpa using hj) = vertex (v :: t) j := by
      intro j hj
      rw [vertex]
      cases j with
      | zero => rfl
      | succ j => simp [List.getD, show j < t.length by omega]
    simp only [List.getElem_zip, List.getElem_map, List.getElem_range, List.length_cons]
    refine Prod.ext (hv k hk) ?_
    rcases Nat.lt_or_ge (k + 1) (t.length + 1) with hlt | hge
    · rw [Nat.mod_eq_of_lt hlt, ← hv (k + 1) hlt, List.getElem_append_left (by simpa using hlt)]
      rfl
    · rw [show k + 1 = t.length + 1 by omega, Nat.mod_self, List.getElem_append_right (by simp; omega)]
      simp [vertex]

theorem minOf_spec : ∀ (l : List Int) (v : Int), minOf v l ≤ v ∧ (∀ x ∈ l, minOf v l ≤ x) ∧ (minOf v l = v ∨ minOf v l ∈ l)
  | [], v => by simp [minOf]
  | a :: t, v => by
    rw [minOf]
    split
    · obtain ⟨h1, h2, h3⟩ := minOf_spec t a
      refine ⟨by omega, by simpa using ⟨h1, h2⟩, by simp; tauto⟩
    · obtain ⟨h1, h2, h3⟩ := minOf_spec t v
      refine ⟨by omega, by simpa using ⟨by omega, h2⟩, by simp; tauto⟩

theorem maxOf_spec : ∀ (l : List Int) (v : Int), v ≤ maxOf v l ∧ (∀ x ∈ l, x ≤ maxOf v l) ∧ (maxOf v l = v ∨ maxOf v l ∈ l)
  | [], v => by simp [maxOf]
  | a :: t, v => by
    rw [maxOf]
    split
    · obtain ⟨h1, h2, h3⟩ := maxOf_spec t a
      refine ⟨by omega, by simpa using ⟨h1, h2⟩, by simp; tauto⟩
    · obtain ⟨h1, h2, h3⟩ := maxOf_spec t v
      refine ⟨by omega, by simpa using ⟨by omega, h2⟩, by simp; tauto⟩

theorem isLeast_minOf (v : Point) (t : List Point) (f : Pt → Int) :
    IsLeast {x | ∃ w ∈ v :: t, x = f (ptOf w)}
    (minOf (f (ptOf v)) ((t.map ptOf).map f)) := by
  obtain ⟨h1, h2, h3⟩ := minOf_spec ((t.map ptOf).map f) (f (ptOf v))
  constructor
  · rcases h3 with h | h
    · exact ⟨v, by simp, h⟩
    · simp only [List.map_map, List.mem_map] at h
      obtain ⟨w, hw, h⟩ := h
      exact ⟨w, by simp [hw], by simp [← h]⟩
  · rintro x ⟨w, hw, rfl⟩
    simp only [List.mem_cons] at hw
    rcases hw with rfl | hw
    · exact h1
    · exact h2 _ (by simp; exact ⟨w, hw, rfl⟩)

theorem isGreatest_maxOf (v : Point) (t : List Point) (f : Pt → Int) :
    IsGreatest {x | ∃ w ∈ v :: t, x = f (ptOf w)}
    (maxOf (f (ptOf v)) ((t.map ptOf).map f)) := by
  obtain ⟨h1, h2, h3⟩ := maxOf_spec ((t.map ptOf).map f) (f (ptOf v))
  constructor
  · rcases h3 with h | h
    · exact ⟨v, by simp, h⟩
    · simp only [List.map_map, List.mem_map] at h
      obtain ⟨w, hw, h⟩ := h
      exact ⟨w, by simp [hw], by simp [← h]⟩
  · rintro x ⟨w, hw, rfl⟩
    simp only [List.mem_cons] at hw
    rcases hw with rfl | hw
    · exact h1
    · exact h2 _ (by simp; exact ⟨w, hw, rfl⟩)

theorem boxCentre_eq (vs : List Point) (m : Pt) (h : IsBoxCentre vs m) : boxCentre (vs.map ptOf) = m := by
  obtain ⟨a, b, c, d, h1, h2, h3, h4, rfl⟩ := h
  cases vs with
  | nil => obtain ⟨⟨v, hv, _⟩, _⟩ := h1; simp at hv
  | cons v t =>
    have e1 := h1.unique (isLeast_minOf v t (·.1))
    have e2 := h2.unique (isGreatest_maxOf v t (·.1))
    have e3 := h3.unique (isLeast_minOf v t (·.2))
    have e4 := h4.unique (isGreatest_maxOf v t (·.2))
    subst e1 e2 e3 e4
    rfl

theorem isBoxCentre_boxCentre (vs : List Point) (h : vs ≠ []) : IsBoxCentre vs (boxCentre (vs.map ptOf)) := by
  cases vs with
  | nil => exact absurd rfl h
  | cons v t =>
    exact ⟨_, _, _, _, isLeast_minOf v t (·.1), isGreatest_maxOf v t (·.1), isLeast_minOf v t (·.2), isGreatest_maxOf v t (·.2), rfl⟩

/-! ## All of them -/

/-- The commands that draw in FG alone. -/
def drawsForeground : Instr → Bool
  | .hline _ _ => true
  | .vline _ _ => true
  | .line _ _ => true
  | .circle _ _ => true
  | .fcircle _ _ => true
  | .ellipse _ _ _ => true
  | .fellipse _ _ _ => true
  | .poly _ => true
  | .fpoly _ => true
  | .ftri _ _ _ => true
  | _ => false

/-- A command that draws in FG alone plots its positions, in order, and does nothing else (files 42 to 44). -/
theorem exec_plots (i : Instr) (s : State) (h : drawsForeground i = true) :
    exec i s = finish (packetWords i) (forEach plotFg (plotOrder i) s) := by
  have hfill : ∀ (cx cy : Int) (r : Nat) (sc : Int → Int),
      (andThen (fillPass cx cy sc (octant r) s) fun s => strokePass cx cy sc (octant r) s) =
        forEach plotFg (fillOrder cx cy r sc ++ strokeOrder cx cy r sc) s := by
    intro cx cy r sc
    rw [forEach_append, fillPass_eq, fillPoints_eq]
    congr 1
    funext s
    exact strokePass_eq _ _ _ _ _
  cases i <;> simp only [drawsForeground, Bool.false_eq_true] at h
  case hline p n => exact congrArg (finish 2) (span_eq _ _ _ _)
  case vline p n => exact congrArg (finish 2) (vspan_eq _ _ _ _)
  case line p q => exact congrArg (finish 3) (congrArg (forEach plotFg · s) (linePoints_eq _ _ _ _))
  case circle c r => exact congrArg (finish 2) (strokePass_eq _ _ _ _ _)
  case fcircle c r => exact congrArg (finish 2) (hfill _ _ _ _)
  case ellipse c rx ry =>
    refine congrArg (finish 3) ?_
    rw [plotOrder]
    split
    · rfl
    · exact strokePass_eq _ _ _ _ _
  case fellipse c rx ry =>
    refine congrArg (finish 3) ?_
    rw [plotOrder]
    split
    · rfl
    · exact hfill _ _ _ _
  case poly vs =>
    refine congrArg (finish _) ?_
    rw [plotOrder]
    split
    · rfl
    · rw [outline_eq, outlinePoints, polyEdges_eq, List.flatMap_map]
      simp only [linePoints_eq]
  case fpoly vs =>
    refine congrArg (finish _) ?_
    rw [plotOrder]
    split
    · rfl
    · rw [fan_eq, fanPoints, polyEdges_eq, List.flatMap_map]
      simp only [trianglePoints_eq]
  case ftri p q r =>
    exact congrArg (finish 4) ((fillTriangle_eq _ _ _ _).trans (congrArg (forEach plotFg · s) (trianglePoints_eq _ _ _)))

end Sys2Proof.Machine
end

