-- ==== Sys2Proof/Laws/PerInstr.lean ====
section
/-! SUPPORT. The per-instruction family EncodedHeader: the packet of every well-formed command starts with a header word that carries the
command's opcode number, and has as many words as the step rule counts for it (spec 30_encoding.md R82, R85, R88). -/

namespace Sys2Proof

/-- The opcode of a command (R88, R93). -/
def Laws.EncodedHeader.opcode : Instr → Opcode
  | .endRun => .endRun
  | .setfg _ => .setfg
  | .setbg _ => .setbg
  | .setfgrgb _ _ _ => .setfgrgb
  | .setbgrgb _ _ _ => .setbgrgb
  | .setfont _ _ _ => .setfont
  | .fromrgb _ _ _ => .fromrgb
  | .torgb _ => .torgb
  | .setpixel _ _ => .setpixel
  | .getpixel _ => .getpixel
  | .fill _ => .fill
  | .hline _ _ => .hline
  | .vline _ _ => .vline
  | .line _ _ => .line
  | .circle _ _ => .circle
  | .fcircle _ _ => .fcircle
  | .ellipse _ _ _ => .ellipse
  | .fellipse _ _ _ => .fellipse
  | .poly _ => .poly
  | .fpoly _ => .fpoly
  | .ftri _ _ _ => .ftri
  | .glyph _ _ => .glyph
  | .stringL _ _ => .string
  | .stringC _ _ => .string
  | .stringR _ _ => .string
  | .blitDn _ _ _ _ => .blit
  | .blitUp _ _ _ _ => .blit
  | .readbackDn _ _ _ => .readback
  | .readbackUp _ _ _ => .readback

/-- The first word of the packet has the command's opcode number in its top byte, and the packet has R85's length. -/
def Laws.EncodedHeader.Statement (i : Instr) : Prop :=
  i.wf = true → (encode i).length = Machine.packetWords i ∧
    ∃ h t, encode i = h :: t ∧ opField h = opByte (Laws.EncodedHeader.opcode i)

theorem Laws.EncodedHeader.endRun :
    Laws.EncodedHeader.Statement .endRun :=
  fun _ => ⟨rfl, _, _, rfl, opField_headerH _ _ _⟩

theorem Laws.EncodedHeader.setfg (c : Half) :
    Laws.EncodedHeader.Statement (.setfg c) :=
  fun _ => ⟨rfl, _, _, rfl, opField_headerH _ _ _⟩

theorem Laws.EncodedHeader.setbg (c : Half) :
    Laws.EncodedHeader.Statement (.setbg c) :=
  fun _ => ⟨rfl, _, _, rfl, opField_headerH _ _ _⟩

theorem Laws.EncodedHeader.setfgrgb (r g b : Byte) :
    Laws.EncodedHeader.Statement (.setfgrgb r g b) :=
  fun _ => ⟨rfl, _, _, rfl, opField_headerC _ _ _ _⟩

theorem Laws.EncodedHeader.setbgrgb (r g b : Byte) :
    Laws.EncodedHeader.Statement (.setbgrgb r g b) :=
  fun _ => ⟨rfl, _, _, rfl, opField_headerC _ _ _ _⟩

theorem Laws.EncodedHeader.setfont (width height : Half) (base : Word) :
    Laws.EncodedHeader.Statement (.setfont width height base) :=
  fun _ => ⟨rfl, _, _, rfl, opField_headerH _ _ _⟩

theorem Laws.EncodedHeader.fromrgb (r g b : Byte) :
    Laws.EncodedHeader.Statement (.fromrgb r g b) :=
  fun _ => ⟨rfl, _, _, rfl, opField_headerC _ _ _ _⟩

theorem Laws.EncodedHeader.torgb (c : Half) :
    Laws.EncodedHeader.Statement (.torgb c) :=
  fun _ => ⟨rfl, _, _, rfl, opField_headerH _ _ _⟩

theorem Laws.EncodedHeader.setpixel (p : Point) (c : Half) :
    Laws.EncodedHeader.Statement (.setpixel p c) :=
  fun _ => ⟨rfl, _, _, rfl, opField_headerH _ _ _⟩

theorem Laws.EncodedHeader.getpixel (p : Point) :
    Laws.EncodedHeader.Statement (.getpixel p) :=
  fun _ => ⟨rfl, _, _, rfl, opField_headerH _ _ _⟩

theorem Laws.EncodedHeader.fill (c : Half) :
    Laws.EncodedHeader.Statement (.fill c) :=
  fun _ => ⟨rfl, _, _, rfl, opField_headerH _ _ _⟩

theorem Laws.EncodedHeader.hline (p : Point) (n : Half) :
    Laws.EncodedHeader.Statement (.hline p n) :=
  fun _ => ⟨rfl, _, _, rfl, opField_headerH _ _ _⟩

theorem Laws.EncodedHeader.vline (p : Point) (n : Half) :
    Laws.EncodedHeader.Statement (.vline p n) :=
  fun _ => ⟨rfl, _, _, rfl, opField_headerH _ _ _⟩

theorem Laws.EncodedHeader.line (p q : Point) :
    Laws.EncodedHeader.Statement (.line p q) :=
  fun _ => ⟨rfl, _, _, rfl, opField_headerH _ _ _⟩

theorem Laws.EncodedHeader.circle (c : Point) (r : Half) :
    Laws.EncodedHeader.Statement (.circle c r) :=
  fun _ => ⟨rfl, _, _, rfl, opField_headerH _ _ _⟩

theorem Laws.EncodedHeader.fcircle (c : Point) (r : Half) :
    Laws.EncodedHeader.Statement (.fcircle c r) :=
  fun _ => ⟨rfl, _, _, rfl, opField_headerH _ _ _⟩

theorem Laws.EncodedHeader.ellipse (c : Point) (rx ry : Half) :
    Laws.EncodedHeader.Statement (.ellipse c rx ry) :=
  fun _ => ⟨rfl, _, _, rfl, opField_headerH _ _ _⟩

theorem Laws.EncodedHeader.fellipse (c : Point) (rx ry : Half) :
    Laws.EncodedHeader.Statement (.fellipse c rx ry) :=
  fun _ => ⟨rfl, _, _, rfl, opField_headerH _ _ _⟩

theorem Laws.EncodedHeader.poly (vs : List Point) :
    Laws.EncodedHeader.Statement (.poly vs) := fun _ => by
  refine ⟨?_, _, _, rfl, opField_headerH _ _ _⟩
  simp only [encode, Machine.packetWords, List.length_cons, List.length_map]
  omega

theorem Laws.EncodedHeader.fpoly (vs : List Point) :
    Laws.EncodedHeader.Statement (.fpoly vs) := fun _ => by
  refine ⟨?_, _, _, rfl, opField_headerH _ _ _⟩
  simp only [encode, Machine.packetWords, List.length_cons, List.length_map]
  omega

theorem Laws.EncodedHeader.ftri (p q r : Point) :
    Laws.EncodedHeader.Statement (.ftri p q r) :=
  fun _ => ⟨rfl, _, _, rfl, opField_headerH _ _ _⟩

theorem Laws.EncodedHeader.glyph (p : Point) (d : List Byte) :
    Laws.EncodedHeader.Statement (.glyph p d) := fun _ => by
  refine ⟨?_, _, _, rfl, opField_headerH _ _ _⟩
  simp only [encode, Machine.packetWords, List.length_cons, length_packByteRun]
  omega

theorem Laws.EncodedHeader.stringL (p : Point) (d : List Byte) :
    Laws.EncodedHeader.Statement (.stringL p d) := fun _ => by
  refine ⟨?_, _, _, rfl, opField_headerH _ _ _⟩
  simp only [encode, Machine.packetWords, List.length_cons, length_packByteRun]
  omega

theorem Laws.EncodedHeader.stringC (p : Point) (d : List Byte) :
    Laws.EncodedHeader.Statement (.stringC p d) := fun _ => by
  refine ⟨?_, _, _, rfl, opField_headerH _ _ _⟩
  simp only [encode, Machine.packetWords, List.length_cons, length_packByteRun]
  omega

theorem Laws.EncodedHeader.stringR (p : Point) (d : List Byte) :
    Laws.EncodedHeader.Statement (.stringR p d) := fun _ => by
  refine ⟨?_, _, _, rfl, opField_headerH _ _ _⟩
  simp only [encode, Machine.packetWords, List.length_cons, length_packByteRun]
  omega

theorem Laws.EncodedHeader.blitDn (p : Point) (w k : Half) (px : List Half) :
    Laws.EncodedHeader.Statement (.blitDn p w k px) := fun h => by
  have hl : px.length = w.toNat * k.toNat := of_decide_eq_true h
  refine ⟨?_, _, _, rfl, opField_headerH _ _ _⟩
  simp only [encode, Machine.packetWords, List.length_cons, length_packHalfRun, hl]
  omega

theorem Laws.EncodedHeader.blitUp (p : Point) (w k : Half) (px : List Half) :
    Laws.EncodedHeader.Statement (.blitUp p w k px) := fun h => by
  have hl : px.length = w.toNat * k.toNat := of_decide_eq_true h
  refine ⟨?_, _, _, rfl, opField_headerH _ _ _⟩
  simp only [encode, Machine.packetWords, List.length_cons, length_packHalfRun, hl]
  omega

theorem Laws.EncodedHeader.readbackDn (p : Point) (w h : Half) :
    Laws.EncodedHeader.Statement (.readbackDn p w h) :=
  fun _ => ⟨rfl, _, _, rfl, opField_headerH _ _ _⟩

theorem Laws.EncodedHeader.readbackUp (p : Point) (w h : Half) :
    Laws.EncodedHeader.Statement (.readbackUp p w h) :=
  fun _ => ⟨rfl, _, _, rfl, opField_headerH _ _ _⟩

end Sys2Proof
end

