-- ==== Sys2Proof/Laws/Step.lean ====
section
/-! SUPPORT. What one step can do, said once (spec 30_encoding.md R81, 10_state.md R27). -/

namespace Sys2Proof.Machine

/-- Every command answers a next state: a fault of the hardware is one too (spec 60_exceptions.md R206). -/
theorem exec_answers (i : Instr) (s : State) : ∃ t, exec i s = .next t := by
  have hf : ∀ len f, ∃ t, finish len f = .next t := fun _ f => by cases f <;> exact ⟨_, rfl⟩
  cases i <;> first | exact hf _ _ | exact ⟨_, rfl⟩

/-- A step that answers a next state ran the command at CP, or took the fault of a missing one. -/
theorem step_cases {s t : State} (h : step s = .next t) :
    s.runState = .run ∧ launchOk s.cfg = true ∧
      ((∃ i, fetch s = .ok i ∧ exec i s = .next t) ∨ ∃ r, fetch s = .error r ∧ t = takeReject r s) := by
  rw [step] at h
  split at h
  · cases h
  · cases h
  · rename_i hr
    split at h
    · cases h
    · rename_i hl
      refine ⟨hr, by simpa using hl, ?_⟩
      split at h
      · exact .inl ⟨_, ‹_›, h⟩
      · exact .inr ⟨_, ‹_›, (Host.Outcome.next.inj h).symm⟩

/-- The fault of a missing command is a fault entry, with the position fields 0 (R202). -/
theorem takeReject_eq (r : Reject) (s : State) :
    ∃ c info, (c = .illegal ∨ c = .fetch) ∧ takeReject r s = takeFault c 0 0 info s := by
  cases r <;> first | exact ⟨.illegal, _, .inl rfl, rfl⟩ | exact ⟨.fetch, _, .inr rfl, rfl⟩

end Sys2Proof.Machine
end

