-- ==== Sys2Proof/Laws/Stops.lean ====
section
/-! SUPPORT. What GLYPH, STRING, BLIT and READBACK have done when they stop part-way, said once each (spec 45_glyph.md R182, R184,
46_image.md R190, R193, 60_exceptions.md R203). -/

namespace Sys2Proof.Machine

theorem range_split {k n : Nat} (h : k < n) : List.range n = List.range k ++ k :: List.range' (k + 1) (n - (k + 1)) := by
  have e := List.range'_append_1 (s := 0) (m := k) (n := n - k)
  rw [show k + (n - k) = n by omega, show n - k = n - (k + 1) + 1 by omega, List.range'_succ, Nat.zero_add, ← List.range_eq_range',
    ← List.range_eq_range'] at e
  exact e.symm

/-! ## Glyph pixels as dots -/

/-- A glyph pixel as a dot with its ink (R182). -/
def glyphDot (q : Int × Int × Bool) : Dot := (q.1, q.2.1, if q.2.2 then .fg else .bg)

/-- Plotting glyph pixels in order. -/
def drawDots (l : List (Int × Int × Bool)) (s : State) : Flow State :=
  forEach (fun q => plot q.1 q.2.1 (if q.2.2 then .fg else .bg)) l s

/-- The writes of some glyph pixels. -/
def dotWrites (s : State) (l : List (Int × Int × Bool)) : List (Nat × Pixel) :=
  (dotColours s l).map fun q => (pixIndex s q.1 q.2.1, q.2.2)

theorem drawDots_eq (l : List (Int × Int × Bool)) (s : State) :
    drawDots l s = forEach (fun q : Dot => plot q.1 q.2.1 q.2.2) (l.map glyphDot) s := 
  (forEach_map (fun q : Dot => plot q.1 q.2.1 q.2.2) glyphDot l s).symm

theorem dotOk_glyphDot (s : State) (q : Int × Int × Bool) : dotOk s (glyphDot q) ↔ DotDrawable s q := by
  obtain ⟨x, y, b⟩ := q
  cases b <;> rfl

theorem dotWrite_glyphDot (s : State) (l : List (Int × Int × Bool)) : (l.map glyphDot).map (dotWrite s) = dotWrites s l := by
  simp only [dotWrites, dotColours, List.map_map]
  refine List.map_congr_left fun q _ => ?_
  obtain ⟨x, y, b⟩ := q
  cases b <;> rfl

theorem drawDots_ok (l : List (Int × Int × Bool)) (s : State) (h : ∀ q ∈ l, DotDrawable s q) :
    drawDots l s = .ok (writes (dotWrites s l) s) := by
  rw [drawDots_eq, forEach_plot_ok, dotWrite_glyphDot]
  simp only [List.mem_map, forall_exists_index, and_imp, forall_apply_eq_imp_iff₂, dotOk_glyphDot]
  exact h

/-- The first glyph pixel that cannot be drawn stops the drawing, the pixels before it written. -/
theorem drawDots_stop (l m : List (Int × Int × Bool)) (q : Int × Int × Bool) (s : State) (h : ∀ q ∈ l, DotDrawable s q)
    (hq : ¬DotDrawable s q) : drawDots (l ++ q :: m) s = .error (dotStop s (glyphDot q) (writes (dotWrites s l) s)) := by
  rw [drawDots_eq, List.map_append, List.map_cons, forEach_plot_stop, dotWrite_glyphDot]
  · simp only [List.mem_map, forall_exists_index, and_imp, forall_apply_eq_imp_iff₂, dotOk_glyphDot]
    exact h
  · rwa [dotOk_glyphDot]

theorem drawDots_append (l m : List (Int × Int × Bool)) (s : State) : drawDots (l ++ m) s = andThen (drawDots l s) (drawDots m) :=
  forEach_append _ _ _ _

theorem drawDots_keeps (l : List (Int × Int × Bool)) {s a : State} (h : SameButFb s a) :
    Leaves (SameButFb s) (fun _ => True) (drawDots l a) :=
  (leaves_forEach (E := Stopped (SameButFb s)) l a (fun _ _ _ hb => leaves_plot (writeClosed_sameButFb s) hb _ _ _) h).mono
    (fun _ h => h) fun _ _ => trivial

theorem sameButFb_writes (l : List (Nat × Pixel)) (s : State) : SameButFb s (writes l s) := writes_only_fb l s

/-- What glyph pixels are and cost does not depend on FB. -/
theorem dotWrites_writes (ws : List (Nat × Pixel)) (s : State) (l : List (Int × Int × Bool)) :
    dotWrites (writes ws s) l = dotWrites s l := by
  simp only [dotWrites, dotColours, glyphColour, pixIndex_writes]
  rw [writes_only_fb]

theorem dotDrawable_writes (ws : List (Nat × Pixel)) (s : State) (q : Int × Int × Bool) :
    DotDrawable (writes ws s) q ↔ DotDrawable s q := by
  simp only [DotDrawable, glyphColourSet, inSurface_writes]
  rw [writes_only_fb]

/-! ## Glyph rows as dots -/

/-- The pixels of row `r`. -/
def rowDots (s : State) (x y : Int) (bit : Nat → Nat → Bool) (r : Nat) : List (Int × Int × Bool) :=
  (List.range s.fontW.toNat).map fun c : Nat => (x + c, y + r, bit r c)

/-- A row whose bytes are all there (R182). -/
theorem glyphRow_eq (x y : Int) (byteAt : ByteAt) (b : Nat → Byte) (r : Nat) {s a : State} (h : SameButFb s a)
    (hb : ∀ j < bytesPerRow s, byteAt (r * bytesPerRow s + j) = .ok (b (r * bytesPerRow s + j))) :
    glyphRow x y byteAt r a = drawDots (rowDots s x y (glyphBit b (bytesPerRow s)) r) a := by
  have hw : a.fontW = s.fontW := by rw [h]
  have hbpr : bytesPerRow a = bytesPerRow s := by rw [bytesPerRow, hw, bytesPerRow]
  obtain ⟨v, h1, _, h3⟩ := rowBits_ok byteAt b (bytesPerRow s) (r * bytesPerRow s) 0 hb
  have hW : s.fontW.toNat ≤ 8 * bytesPerRow s := by rw [bytesPerRow]; omega
  simp only [glyphRow, hbpr, hw, h1]
  rw [forUp_eq_forEach, ← List.range_eq_range', drawDots, rowDots, forEach_map]
  refine forEach_congr_of (P := fun _ => True) _ _ (fun c hc a _ => ⟨?_, ?_⟩) trivial
  · rw [inkAt, h3 c (by have := List.mem_range.1 hc; omega)]
    rfl
  · cases plot (x + (c : Int)) (y + (r : Int)) (if glyphBit b (bytesPerRow s) r c = true then Ink.fg else Ink.bg) a <;> trivial

theorem glyphDots_row (s : State) (x y : Int) (bit : Nat → Nat → Bool) (r : Nat) :
    glyphDots s x y bit r 0 = (List.range r).flatMap (rowDots s x y bit) := by
  simp only [glyphDots, List.range_zero, List.map_nil, List.append_nil]
  rfl

/-- The first `n` rows, whose bytes are all there. -/
theorem glyphRows_eq (x y : Int) (byteAt : ByteAt) (b : Nat → Byte) (n : Nat) {s a : State} (h : SameButFb s a)
    (hb : ∀ j < n * bytesPerRow s, byteAt j = .ok (b j)) :
    forUp (glyphRow x y byteAt) 0 n a = drawDots (glyphDots s x y (glyphBit b (bytesPerRow s)) n 0) a := by
  rw [forUp_eq_forEach, ← List.range_eq_range', glyphDots_row, drawDots, ← forEach_flatMap]
  refine forEach_congr_of (P := SameButFb s) _ _ (fun r hr a ha => ⟨?_, drawDots_keeps _ ha⟩) h
  refine glyphRow_eq x y byteAt b r ha fun j hj => hb _ ?_
  have : (r + 1) * bytesPerRow s ≤ n * bytesPerRow s := Nat.mul_le_mul_right _ (List.mem_range.1 hr)
  rw [Nat.add_mul] at this
  omega

/-- A glyph stops at its first pixel that cannot be drawn (R182, R203). -/
theorem glyphRows_stop (x y : Int) (byteAt : ByteAt) (b : Nat → Byte) (r c : Nat) (s : State)
    (hr : r < s.fontH.toNat) (hc : c < s.fontW.toNat) (hb : ∀ j < (r + 1) * bytesPerRow s, byteAt j = .ok (b j))
    (hd : ∀ q ∈ glyphDots s x y (glyphBit b (bytesPerRow s)) r c, DotDrawable s q)
    (hq : ¬DotDrawable s (x + c, y + r, glyphBit b (bytesPerRow s) r c)) :
    glyphRows x y byteAt s = .error (dotStop s (glyphDot (x + c, y + r, glyphBit b (bytesPerRow s) r c))
      (writes (dotWrites s (glyphDots s x y (glyphBit b (bytesPerRow s)) r c)) s)) := by
  have hn : s.fontH.toNat = (r + 1) + (s.fontH.toNat - (r + 1)) := by omega
  have hsplit : glyphDots s x y (glyphBit b (bytesPerRow s)) (r + 1) 0 = glyphDots s x y (glyphBit b (bytesPerRow s)) r c ++
      (x + c, y + r, glyphBit b (bytesPerRow s) r c) ::
        (List.range' (c + 1) (s.fontW.toNat - (c + 1))).map fun i : Nat => (x + i, y + r, glyphBit b (bytesPerRow s) r i) := by
    rw [glyphDots_row, List.range_succ, List.flatMap_append, ← glyphDots_row]
    simp [glyphDots, rowDots, range_split hc]
  rw [glyphRows, hn, forUp_add, glyphRows_eq x y byteAt b (r + 1) (s := s) (a := s) rfl hb, hsplit, drawDots_stop _ _ _ _ hd hq, andThen_error]

/-- The first byte of a row that is missing. -/
theorem rowBits_stop (byteAt : ByteAt) (e : Nat) : ∀ (n j i acc : Nat), i < n → (∀ k < i, ∃ v, byteAt (j + k) = .ok v) →
    byteAt (j + i) = .error e → rowBits byteAt j n acc = .error e
  | 0, _, _, _, h, _, _ => by omega
  | n + 1, j, i, acc, hi, hk, he => by
    rw [rowBits]
    cases i with
    | zero => rw [show j = j + 0 by omega, he]
    | succ i =>
      obtain ⟨v, hv⟩ := hk 0 (by omega)
      rw [Nat.add_zero] at hv
      rw [hv]
      refine rowBits_stop byteAt e n (j + 1) i _ (by omega) (fun k h => ?_) ?_
      · obtain ⟨v, hv⟩ := hk (k + 1) (by omega)
        exact ⟨v, by rwa [show j + 1 + k = j + (k + 1) by omega]⟩
      · rwa [show j + 1 + i = j + (i + 1) by omega]

/-- A glyph stops at its first byte that is missing, the rows before that byte's row drawn (R182, R186, R203). -/
theorem glyphRows_stop_byte (x y : Int) (byteAt : ByteAt) (b : Nat → Byte) (j e : Nat) (s : State)
    (hj : j < s.fontH.toNat * bytesPerRow s) (hb : ∀ i < j, byteAt i = .ok (b i)) (he : byteAt j = .error e)
    (hd : ∀ q ∈ glyphDots s x y (glyphBit b (bytesPerRow s)) (j / bytesPerRow s) 0, DotDrawable s q) :
    glyphRows x y byteAt s = .error (takeFault .fontAddr 0 0 e
      (writes (dotWrites s (glyphDots s x y (glyphBit b (bytesPerRow s)) (j / bytesPerRow s) 0)) s)) := by
  have hpos : 0 < bytesPerRow s := by
    rcases Nat.eq_zero_or_pos (bytesPerRow s) with h0 | h0
    · simp [h0] at hj
    · exact h0
  have hr : j / bytesPerRow s < s.fontH.toNat := (Nat.div_lt_iff_lt_mul hpos).2 hj
  have hm := Nat.mod_lt j hpos
  have hdm : j / bytesPerRow s * bytesPerRow s + j % bytesPerRow s = j := by
    rw [Nat.mul_comm]
    exact Nat.div_add_mod _ _
  generalize j / bytesPerRow s = r at *
  rw [glyphRows, show s.fontH.toNat = r + ((s.fontH.toNat - (r + 1)) + 1) by omega, forUp_add,
    glyphRows_eq x y byteAt b r (s := s) (a := s) rfl (fun i hi => hb i (by omega)), drawDots_ok _ _ hd, andThen_ok, forUp_succ, glyphRow]
  have hbpr : bytesPerRow (writes (dotWrites s (glyphDots s x y (glyphBit b (bytesPerRow s)) r 0)) s) = bytesPerRow s := by
    rw [writes_only_fb, bytesPerRow, bytesPerRow]
  rw [hbpr, Nat.zero_add, rowBits_stop byteAt e _ _ _ 0 hm (fun k hk => ⟨_, hb _ (by omega)⟩) (by rw [hdm]; exact he)]
  rfl

/-! ## Characters of a string -/

theorem glyphDots_writes (ws : List (Nat × Pixel)) (s : State) (x y : Int) (bit : Nat → Nat → Bool) (r c : Nat) :
    glyphDots (writes ws s) x y bit r c = glyphDots s x y bit r c := by
  rw [writes_only_fb]
  rfl

theorem dotStop_writes (ws : List (Nat × Pixel)) (s : State) (q : Dot) (u : State) : dotStop (writes ws s) q u = dotStop s q u := by
  rw [writes_only_fb]
  obtain ⟨x, y, ink⟩ := q
  cases ink <;> rfl

theorem bytesPerRow_writes (ws : List (Nat × Pixel)) (s : State) : bytesPerRow (writes ws s) = bytesPerRow s := by
  rw [writes_only_fb, bytesPerRow, bytesPerRow]

theorem tableByte_writes (ws : List (Nat × Pixel)) (s : State) (ch : Byte) : tableByte (writes ws s) ch = tableByte s ch := by
  rw [writes_only_fb]
  rfl

theorem tableByte_ok {s : State} {ch : Byte} {j : Nat} (h : fontIndex s ch j < s.cfg.fontLen) :
    tableByte s ch j = .ok (fontTableByte s ch j) := if_neg (Nat.not_le.2 h)

theorem tableByte_error {s : State} {ch : Byte} {j : Nat} (h : s.cfg.fontLen ≤ fontIndex s ch j) :
    tableByte s ch j = .error (fontIndex s ch j) := if_pos h

theorem codeOk_iff (ch : Byte) : codeOk ch = true ↔ Printable ch := by simp [codeOk, Printable]

/-- The pixels of the first `k` characters from column `col` on. -/
def charsDots (s : State) (y : Int) (d : List Byte) (col : Int) (k : Nat) : List (Int × Int × Bool) :=
  (List.range k).flatMap fun i : Nat => glyphDots s (col + (i : Int) * s.fontW.toNat) y (stringBit s d i) s.fontH.toNat 0

/-- Characters that have a glyph in FONT, fit, and can be drawn are drawn, one after another (R184). -/
theorem stringFrom_drop (y : Int) (s : State) : ∀ (k : Nat) (d : List Byte) (col : Int) (ws : List (Nat × Pixel)), k ≤ d.length →
    (∀ i < k, col + (i : Int) * s.fontW.toNat + s.fontW.toNat ≤ s.cfg.width) →
    (∀ i < k, Printable (d.getD i 0) ∧ ∀ j < glyphBytes s, fontIndex s (d.getD i 0) j < s.cfg.fontLen) →
    (∀ q ∈ charsDots s y d col k, DotDrawable s q) →
    stringFrom y d col (writes ws s) =
      stringFrom y (d.drop k) (col + (k : Int) * s.fontW.toNat) (writes (ws ++ dotWrites s (charsDots s y d col k)) s)
  | 0, d, col, ws, _, _, _, _ => by simp [charsDots, dotWrites, dotColours]
  | k + 1, [], _, _, h, _, _, _ => by simp at h
  | k + 1, ch :: rest, col, ws, hk, hf, hc, hd => by
    have hsplit : charsDots s y (ch :: rest) col (k + 1) = glyphDots s col y (glyphBit (fontTableByte s ch) (bytesPerRow s)) s.fontH.toNat 0 ++
        charsDots s y rest (col + s.fontW.toNat) k := by
      rw [charsDots, List.range_succ_eq_map, List.flatMap_cons, List.flatMap_map, charsDots]
      refine congrArg₂ _ ?_ (congrArg (List.flatMap · (List.range k)) (funext fun i => ?_))
      · rw [Nat.cast_zero, zero_mul, add_zero]
        rfl
      · rw [Nat.cast_succ, show col + ((i : Int) + 1) * s.fontW.toNat = col + s.fontW.toNat + (i : Int) * s.fontW.toNat by ring]
        rfl
    have f0 := hf 0 (by omega)
    rw [Nat.cast_zero, zero_mul, add_zero] at f0
    obtain ⟨c0, b0⟩ := hc 0 (by omega)
    rw [List.getD_cons_zero] at c0 b0
    rw [hsplit] at hd
    have hg : glyphRows col y (tableByte (writes ws s) ch) (writes ws s) =
        .ok (writes (ws ++ dotWrites s (glyphDots s col y (glyphBit (fontTableByte s ch) (bytesPerRow s)) s.fontH.toNat 0)) s) := by
      have hH : (writes ws s).fontH = s.fontH := by rw [writes_only_fb]
      rw [glyphRows, hH, tableByte_writes,
        glyphRows_eq col y (tableByte s ch) (fontTableByte s ch) s.fontH.toNat (sameButFb_writes ws s) (fun j hj => tableByte_ok (b0 j hj)),
        drawDots_ok _ _ fun q hq => (dotDrawable_writes ws s q).2 (hd q (List.mem_append_left _ hq)), dotWrites_writes, writes_append]
    have hfw : (writes ws s).fontW = s.fontW := by rw [writes_only_fb]
    rw [stringFrom, hfw, writes_cfg, if_neg (by omega)]
    simp only [(codeOk_iff ch).2 c0, Bool.not_true, Bool.false_eq_true, if_false, hg]
    rw [stringFrom_drop y s k rest (col + s.fontW.toNat) _ (by simpa using hk)
      (fun i hi => by
        have := hf (i + 1) (by omega)
        rwa [Nat.cast_succ, show col + ((i : Int) + 1) * s.fontW.toNat = col + s.fontW.toNat + (i : Int) * s.fontW.toNat by ring] at this)
      (fun i hi => by simpa using hc (i + 1) (by omega)) (fun q hq => hd q (List.mem_append_right _ hq)), hsplit, List.append_assoc]
    rw [show ((k + 1 : Nat) : Int) = (k : Int) + 1 by omega,
      show col + ((k : Int) + 1) * s.fontW.toNat = col + s.fontW.toNat + (k : Int) * s.fontW.toNat by ring]
    simp [dotWrites, dotColours]

/-- A string that reaches character `k` stops there if its code or its glyph does (R184, R203). -/
theorem drawString_stop (a : Align) (p : Point) (d : List Byte) (s : State) (k r c : Nat) (hv : s.fontV = true)
    (hk : stringReached a s p d.length k) (hr : StringRunsTo a s p d k r c) (e : State)
    (he : if codeOk (d.getD k 0) then
        glyphRows (stringCol a s p d.length k) (py p) (tableByte s (d.getD k 0))
          (writes (dotWrites s (charsDots s (py p) d (stringStart a s p d.length) k)) s) = .error e
      else e = takeFault .operand 0 0 (d.getD k 0).toNat (writes (dotWrites s (charsDots s (py p) d (stringStart a s p d.length) k)) s)) :
    drawString a p d s = .error e := by
  obtain ⟨hlt, hfit⟩ := hk
  obtain ⟨hc, hd⟩ := hr
  have hmono : ∀ i < k, (i : Int) * s.fontW.toNat ≤ (k : Int) * s.fontW.toNat := fun i hi =>
    mul_le_mul_of_nonneg_right (by omega) (by omega)
  have hstart : startCol a s.cfg.width s.fontW.toNat d.length (px p) = stringStart a s p d.length := by cases a <;> rfl
  rw [drawString, hv, hstart]
  simp only [Bool.not_true, Bool.false_eq_true, if_false]
  rw [stringCol] at hfit
  have h0 := stringFrom_drop (py p) s k d (stringStart a s p d.length) [] (by omega)
    (fun i hi => by have := hmono i hi; omega) hc (fun q hq => hd q (List.mem_append_left _ hq))
  rw [writes, List.nil_append] at h0
  rw [h0, List.drop_eq_getElem_cons hlt]
  have hget : d.getD k 0 = d[k] := by simp [List.getD, hlt]
  have hfw : ∀ ws, (writes ws s).fontW = s.fontW := fun ws => by rw [writes_only_fb]
  rw [hget] at he
  rw [stringFrom, hfw, writes_cfg, if_neg (by omega)]
  cases hco : codeOk d[k]
  · simp only [hco, Bool.false_eq_true, if_false] at he
    simp [he, raise]
  · simp only [hco, if_true] at he
    rw [stringCol] at he
    simp only [Bool.not_true, Bool.false_eq_true, if_false, tableByte_writes, he]

/-! ## Elements of a block -/

/-- Rows of `w` items, the last ones cut off after `n` items in all, as one list of items. -/
theorem flatMap_rows {α : Type} (f : Nat → Nat → α) (w n : Nat) : ∀ h : Nat,
    ((List.range h).flatMap fun j => (List.range (min (n - j * w) w)).map (f j)) =
      (List.range (min n (h * w))).map fun k => f (k / w) (k % w)
  | 0 => by simp
  | h + 1 => by
    rw [List.range_succ, List.flatMap_append, flatMap_rows f w n h, List.flatMap_singleton]
    rcases Nat.le_total n (h * w) with hle | hle
    · have : h * w ≤ (h + 1) * w := Nat.mul_le_mul_right _ (Nat.le_succ h)
      rw [Nat.sub_eq_zero_of_le hle, Nat.zero_min, Nat.min_eq_left hle, Nat.min_eq_left (by omega)]
      simp
    · have hm : min n ((h + 1) * w) = h * w + min (n - h * w) w := by rw [Nat.add_mul]; omega
      rw [Nat.min_eq_right hle, hm, List.range_eq_range', List.range_eq_range' (n := h * w + _), ← List.range'_append_1,
        List.map_append]
      congr 1
      rw [List.range_eq_range', Nat.zero_add, ← Nat.add_zero (h * w), ← List.map_add_range', List.map_map]
      refine List.map_congr_left fun i hi => ?_
      have hi : i < w := by
        have := (List.mem_range'_1.1 hi).2
        omega
      rw [Function.comp_apply, Nat.mul_comm, Nat.mul_add_div (by omega), Nat.mul_add_mod, Nat.div_eq_of_lt hi, Nat.mod_eq_of_lt hi,
        Nat.add_zero]

/-- One element of a BLIT: checked, then written (R190). -/
def putStep (q : Int × Int × Half) (s : State) : Flow State := andThen (checkColor q.2.2 s) (pixWrite q.1 q.2.1 q.2.2)

theorem blitRow_eq (y : Int) : ∀ (l : List Half) (x : Int) (s : State),
    blitRow y x l s = forEach putStep ((List.range l.length).map fun i : Nat => (x + i, y, l.getD i 0)) s
  | [], _, _ => rfl
  | e :: t, x, s => by
    rw [List.length_cons, List.range_succ_eq_map, List.map_cons, List.map_map, forEach_cons, blitRow]
    have h0 : putStep (x + (0 : Nat), y, (e :: t).getD 0 0) s = andThen (checkColor e s) (pixWrite x y e) := by
      simp [putStep]
    rw [h0]
    cases andThen (checkColor e s) (pixWrite x y e) with
    | error f => rfl
    | ok s' =>
      rw [andThen_ok]
      refine (blitRow_eq y t (x + 1) s').trans (congrArg (forEach putStep · s') (List.map_congr_left fun i _ => ?_))
      rw [Function.comp_apply, List.getD_cons_succ, Nat.cast_succ, show x + ((i : Int) + 1) = x + 1 + i by ring]

/-- The elements of a BLIT with their positions, in order. -/
def blitItem (d : Dir) (p : Point) (w h : Nat) (l : List Half) (k : Nat) : Int × Int × Half :=
  ((blockPos d p w h k).1, (blockPos d p w h k).2, l.getD k 0)

theorem blit_eq (d : Dir) (p : Point) (w h : Half) (l : List Half) (s : State) :
    blit d p w h l s = forEach putStep ((List.range (min l.length (h.toNat * w.toNat))).map (blitItem d p w.toNat h.toNat l)) s := by
  have hrow : ∀ j, ((List.range (sourceRow w.toNat j l).length).map fun i : Nat =>
        (px p + (i : Int), blockRow d (py p) h.toNat j, (sourceRow w.toNat j l).getD i 0)) =
      (List.range (min (l.length - j * w.toNat) w.toNat)).map fun i : Nat =>
        (px p + (i : Int), blockRow d (py p) h.toNat j, l.getD (j * w.toNat + i) 0) := by
    intro j
    rw [sourceRow, List.length_take, List.length_drop, Nat.min_comm]
    refine List.map_congr_left fun i hi => ?_
    have hi : i < w.toNat := by
      have := List.mem_range.1 hi
      omega
    simp [List.getD, hi]
  rw [blit, forUp_eq_forEach, ← List.range_eq_range']
  have : (fun (j : Nat) (s : State) => blitRow (destRow d (py p) (size h) j) (px p) (sourceRow (size w) j l) s) =
      fun j s => forEach putStep ((List.range (min (l.length - j * w.toNat) w.toNat)).map fun i : Nat =>
        (px p + (i : Int), blockRow d (py p) h.toNat j, l.getD (j * w.toNat + i) 0)) s := by
    funext j s
    rw [blitRow_eq, destRow_eq]
    exact congrArg (forEach putStep · s) (hrow j)
  rw [show (fun j => blitRow (destRow d (py p) (size h) j) (px p) (sourceRow (size w) j l)) = _ from this, forEach_flatMap]
  refine congrArg (forEach putStep · s) ?_
  rw [show size h = h.toNat from rfl,
    flatMap_rows (fun j i => (px p + (i : Int), blockRow d (py p) h.toNat j, l.getD (j * w.toNat + i) 0))]
  refine List.map_congr_left fun k _ => ?_
  rw [blitItem, blockPos, show k / w.toNat * w.toNat + k % w.toNat = k by rw [Nat.mul_comm]; exact Nat.div_add_mod _ _]

/-- Elements that can be written are written, in order. -/
theorem forEach_putStep_ok : ∀ (l : List (Int × Int × Half)) (s : State),
    (∀ q ∈ l, native s q.2.2 ∧ inSurface s q.1 q.2.1 = true) →
    forEach putStep l s = .ok (writes (l.map fun q => (pixIndex s q.1 q.2.1, q.2.2)) s)
  | [], _, _ => rfl
  | q :: l, s, h => by
    obtain ⟨h1, h2⟩ := h q (by simp)
    have h1' : q.2.2.toNat < 2 ^ s.cfg.pixfmt.bpp := h1
    rw [forEach_cons, putStep, checkColor, if_pos h1', andThen_ok, pixWrite, if_pos h2, andThen_ok]
    exact forEach_putStep_ok l (writeFb _ _ s) fun q' hq => h q' (by simp [hq])

/-- A BLIT whose first elements can be written and whose element `k` stops it (R190, R203). -/
theorem blit_stop (d : Dir) (p : Point) (w h : Half) (l : List Half) (s : State) (k : Nat) (hk : k < w.toNat * h.toNat)
    (hl : k < l.length)
    (hok : ∀ i < k, native s (l.getD i 0) ∧ inSurface s (blockPos d p w.toNat h.toNat i).1 (blockPos d p w.toNat h.toNat i).2 = true)
    (e : State) (he : putStep (blitItem d p w.toNat h.toNat l k)
      (writes (((List.range k).map (blitItem d p w.toNat h.toNat l)).map fun q => (pixIndex s q.1 q.2.1, q.2.2)) s) = .error e) :
    blit d p w h l s = .error e := by
  have hsplit := range_split (show k < min l.length (h.toNat * w.toNat) by
    rw [Nat.mul_comm] at hk
    omega)
  rw [blit_eq, hsplit, List.map_append, List.map_cons, forEach_append, forEach_putStep_ok, andThen_ok, forEach_cons, he, andThen_error]
  simp only [List.mem_map, List.mem_range, forall_exists_index, and_imp, forall_apply_eq_imp_iff₂]
  exact fun i hi => hok i hi

/-- The positions that a READBACK reads, in order. -/
theorem readback_eq (d : Dir) (p : Point) (w h : Half) (s : State) :
    readback d p w h s =
      match forEach (fun q : Int × Int => readStep q.1 q.2)
        ((List.range (h.toNat * w.toNat)).map (blockPos d p w.toNat h.toNat)) (none, s) with
      | .ok a => .ok (flushHeld a)
      | .error e => .error e := by
  have hflat : forUp (fun j => forUp (fun i => readStep (px p + i) (destRow d (py p) (size h) j)) 0 (size w)) 0 (size h) (none, s) =
      forEach (fun q : Int × Int => readStep q.1 q.2) ((List.range (h.toNat * w.toNat)).map (blockPos d p w.toNat h.toNat)) (none, s) := by
    have hrows := flatMap_rows (fun (j i : Nat) => (px p + (i : Int), blockRow d (py p) h.toNat j)) w.toNat (h.toNat * w.toNat) h.toNat
    rw [Nat.min_self] at hrows
    rw [show blockPos d p w.toNat h.toNat = fun k => (px p + ((k % w.toNat : Nat) : Int), blockRow d (py p) h.toNat (k / w.toNat)) from rfl,
      ← hrows, forUp_eq_forEach, ← List.range_eq_range', ← forEach_flatMap]
    refine forEach_congr_of (P := fun _ => True) _ _ (fun j hj a _ => ⟨?_, ?_⟩) trivial
    · have : (j + 1) * w.toNat ≤ h.toNat * w.toNat := Nat.mul_le_mul_right _ (List.mem_range.1 hj)
      rw [Nat.add_mul] at this
      rw [Nat.min_eq_right (by omega), forUp_eq_forEach, ← List.range_eq_range', forEach_map, destRow_eq]
      rfl
    · cases forEach (fun q : Int × Int => readStep q.1 q.2) ((List.range (min (h.toNat * w.toNat - j * w.toNat) w.toNat)).map
        fun i : Nat => (px p + (i : Int), blockRow d (py p) h.toNat j)) a <;> trivial
  exact congrArg (fun f : Flow Held => match f with
    | .ok a => (.ok (flushHeld a) : Flow State)
    | .error e => .error e) hflat

/-- Reading on-surface positions emits the completed pairs, and holds the element left over (R193). -/
theorem readStep_pairs (s : State) : ∀ (l : List (Int × Int)) (ws : List Word), (∀ q ∈ l, inSurface s q.1 q.2 = true) →
    ∃ held, forEach (fun q : Int × Int => readStep q.1 q.2) l (none, emitAll ws s) =
      .ok (held, emitAll (ws ++ packHalfRun ((l.map fun q => readFb s (pixIndex s q.1 q.2)).take (2 * (l.length / 2)))) s)
  | [], ws, _ => ⟨none, by simp [packHalfRun]⟩
  | [q], ws, h => by
    have hr : pixRead q.1 q.2 (emitAll ws s) = .ok (readFb s (pixIndex s q.1 q.2)) := by
      rw [(emitAll_out ws s).1]
      exact if_pos (h q (by simp))
    exact ⟨some (readFb s (pixIndex s q.1 q.2)), by simp [forEach_cons, readStep, hr, packHalfRun]⟩
  | q :: q' :: l, ws, h => by
    have hr : ∀ r ∈ q :: q' :: l, pixRead r.1 r.2 (emitAll ws s) = .ok (readFb s (pixIndex s r.1 r.2)) := fun r hr => by
      rw [(emitAll_out ws s).1]
      exact if_pos (h r hr)
    obtain ⟨held, ih⟩ := readStep_pairs s l (ws ++ [packHalves (readFb s (pixIndex s q.1 q.2)) (readFb s (pixIndex s q'.1 q'.2))])
      fun r hr => h r (by simp [hr])
    refine ⟨held, ?_⟩
    have he : emit (packHalves (readFb s (pixIndex s q.1 q.2)) (readFb s (pixIndex s q'.1 q'.2))) (emitAll ws s) =
        emitAll (ws ++ [packHalves (readFb s (pixIndex s q.1 q.2)) (readFb s (pixIndex s q'.1 q'.2))]) s := by simp [emitAll]
    simp only [forEach_cons, readStep, hr q (by simp), hr q' (by simp), andThen_ok, he, ih, List.length_cons, List.map_cons]
    rw [show 2 * ((l.length + 1 + 1) / 2) = 2 * (l.length / 2) + 1 + 1 by omega, List.take_succ_cons, List.take_succ_cons, packHalfRun,
      List.append_assoc]
    rfl

/-- A READBACK whose position `k` is the first outside the surface (R193, R203). -/
theorem readback_stop (d : Dir) (p : Point) (w h : Half) (s : State) (k : Nat) (hk : k < w.toNat * h.toNat)
    (hok : ∀ i < k, inSurface s (blockPos d p w.toNat h.toNat i).1 (blockPos d p w.toNat h.toNat i).2 = true)
    (hout : inSurface s (blockPos d p w.toNat h.toNat k).1 (blockPos d p w.toNat h.toNat k).2 = false) :
    readback d p w h s = .error (takeFault .range (blockPos d p w.toNat h.toNat k).1 (blockPos d p w.toNat h.toNat k).2 0
      (emitAll (packHalfRun (((List.range k).map fun i : Nat =>
        readFb s (pixIndex s (blockPos d p w.toNat h.toNat i).1 (blockPos d p w.toNat h.toNat i).2)).take (2 * (k / 2)))) s)) := by
  have hsplit := range_split (show k < h.toNat * w.toNat by rwa [Nat.mul_comm] at hk)
  obtain ⟨held, h1⟩ := readStep_pairs s ((List.range k).map (blockPos d p w.toNat h.toNat)) [] (by
    simp only [List.mem_map, List.mem_range, forall_exists_index, and_imp, forall_apply_eq_imp_iff₂]
    exact hok)
  rw [List.length_map, List.length_range, List.map_map, List.nil_append] at h1
  have h1' : forEach (fun q : Int × Int => readStep q.1 q.2) ((List.range k).map (blockPos d p w.toNat h.toNat)) (none, s) = _ := h1
  rw [readback_eq, hsplit, List.map_append, List.map_cons, forEach_append, h1', andThen_ok, forEach_cons]
  have hr : ∀ ws, pixRead (blockPos d p w.toNat h.toNat k).1 (blockPos d p w.toNat h.toNat k).2 (emitAll ws s) =
      .error (takeFault .range (blockPos d p w.toNat h.toNat k).1 (blockPos d p w.toNat h.toNat k).2 0 (emitAll ws s)) := fun ws => by
    have hout' : inSurface (emitAll ws s) (blockPos d p w.toNat h.toNat k).1 (blockPos d p w.toNat h.toNat k).2 = false := by
      rw [(emitAll_out ws s).1]
      exact hout
    rw [pixRead, hout']
    rfl
  simp only [readStep, hr, andThen_error]
  rfl

end Sys2Proof.Machine
end

