-- ==== Sys2Proof/Tests/Slice0.lean ====
section
/-! SUPPORT. The author's own tests: the well-formedness checks, the decoding of one word list written out per constructor, one or two single
steps per command with results taken from spec/95_test_vectors.md, and a witness for the hypotheses of every statement that has any. -/

namespace Sys2Proof.Tests
open Sys2Proof.Machine

-- One theorem at a time: the kernel evaluates each test, and evaluating all at once takes a thread for each.
set_option Elab.async false

/-! ## Well-formedness: each check refuses an ill-formed command -/

theorem count_replicate {α : Type} (n : Nat) (a : α) : countOk (List.replicate n a) = decide (n ≤ 65535) := by
  rw [countOk, List.length_replicate]
  rfl

theorem test_wf_poly_count : (Instr.poly (List.replicate 65536 ⟨0, 0⟩)).wf = false := count_replicate _ _

theorem test_wf_fpoly_count : (Instr.fpoly (List.replicate 65536 ⟨0, 0⟩)).wf = false := count_replicate _ _

theorem test_wf_glyph_count : (Instr.glyph ⟨0, 0⟩ (List.replicate 65536 0)).wf = false := count_replicate _ _

theorem test_wf_stringL_count : (Instr.stringL ⟨0, 0⟩ (List.replicate 65536 0)).wf = false := count_replicate _ _

theorem test_wf_stringC_count : (Instr.stringC ⟨0, 0⟩ (List.replicate 65536 0)).wf = false := count_replicate _ _

theorem test_wf_stringR_count : (Instr.stringR ⟨0, 0⟩ (List.replicate 65536 0)).wf = false := count_replicate _ _

theorem test_wf_blitDn_size : (Instr.blitDn ⟨0, 0⟩ 2 2 [1, 2, 3]).wf = false := by decide

theorem test_wf_blitUp_size : (Instr.blitUp ⟨0, 0⟩ 2 2 [1, 2, 3, 4, 5]).wf = false := by decide

theorem test_wf_accepts_counts : (Instr.poly (List.replicate 65535 ⟨0, 0⟩)).wf = true ∧ (Instr.blitUp ⟨0, 0⟩ 2 2 [1, 2, 3, 4]).wf = true :=
  ⟨count_replicate _ _, by decide⟩

/-! ## Decoding: words written out from spec 30_encoding.md R82, R83, R88 -/

/-- The decoder reads exactly this command from the words. -/
def reads (ws : List Word) (i : Instr) : Bool :=
  match decode true ws with
  | .ok j => decide (j = i)
  | .error _ => false

/-- The decoder refuses the words for this reason. -/
def refuses (hasRead : Bool) (ws : List Word) (r : Reject) : Bool :=
  match decode hasRead ws with
  | .ok _ => false
  | .error q => decide (q = r)

theorem test_decode_endRun : reads [0x00000000] .endRun = true := by decide +kernel

theorem test_decode_setfg : reads [0x0100F800] (.setfg 0xF800) = true := by decide +kernel

theorem test_decode_setbg : reads [0x02000001] (.setbg 1) = true := by decide +kernel

theorem test_decode_setfgrgb : reads [0x03FF8001] (.setfgrgb 255 128 1) = true := by decide +kernel

theorem test_decode_setbgrgb : reads [0x04FF8000] (.setbgrgb 255 128 0) = true := by decide +kernel

theorem test_decode_setfont : reads [0x05000000, 0x00020008, 0x0000005A] (.setfont 8 2 90) = true := by decide +kernel

theorem test_decode_fromrgb : reads [0x08F88002] (.fromrgb 248 128 2) = true := by decide +kernel

theorem test_decode_torgb : reads [0x0900FC00] (.torgb 0xFC00) = true := by decide +kernel

theorem test_decode_setpixel : reads [0x100007E0, 0x00020003] (.setpixel ⟨3, 2⟩ 0x07E0) = true := by decide +kernel

theorem test_decode_getpixel : reads [0x11000000, 0x00030007] (.getpixel ⟨7, 3⟩) = true := by decide +kernel

theorem test_decode_fill : reads [0x12000007] (.fill 7) = true := by decide +kernel

theorem test_decode_hline : reads [0x20000004, 0x0005FFFF] (.hline ⟨0xFFFF, 5⟩ 4) = true := by decide +kernel

theorem test_decode_vline : reads [0x21000003, 0x00020000] (.vline ⟨0, 2⟩ 3) = true := by decide +kernel

theorem test_decode_line : reads [0x22000000, 0x00020001, 0x00040006] (.line ⟨1, 2⟩ ⟨6, 4⟩) = true := by decide +kernel

theorem test_decode_circle : reads [0x30000003, 0x00080009] (.circle ⟨9, 8⟩ 3) = true := by decide +kernel

theorem test_decode_fcircle : reads [0x31000002, 0x00030006] (.fcircle ⟨6, 3⟩ 2) = true := by decide +kernel

theorem test_decode_ellipse : reads [0x32000000, 0x000B000A, 0x00030006] (.ellipse ⟨10, 11⟩ 6 3) = true := by decide +kernel

theorem test_decode_fellipse : reads [0x33000000, 0x00070008, 0x00060003] (.fellipse ⟨8, 7⟩ 3 6) = true := by decide +kernel

theorem test_decode_poly : reads [0x40000002, 0x00020003, 0x00060005] (.poly [⟨3, 2⟩, ⟨5, 6⟩]) = true := by decide +kernel

theorem test_decode_fpoly : reads [0x41000003, 0x00010002, 0x00030004, 0x00050006] (.fpoly [⟨2, 1⟩, ⟨4, 3⟩, ⟨6, 5⟩]) = true := by
  decide +kernel

theorem test_decode_ftri : reads [0x42000000, 0x00010000, 0x0002000A, 0x000A0003] (.ftri ⟨0, 1⟩ ⟨10, 2⟩ ⟨3, 10⟩) = true := by decide +kernel

theorem test_decode_glyph : reads [0x50000005, 0x00010002, 0x202122F8, 0x00000023] (.glyph ⟨2, 1⟩ [0xF8, 0x22, 0x21, 0x20, 0x23]) = true := by
  decide +kernel

theorem test_decode_stringL : reads [0x51000002, 0x00070001, 0x00006948] (.stringL ⟨1, 7⟩ [0x48, 0x69]) = true := by decide +kernel

theorem test_decode_stringC : reads [0x51010002, 0x00000000, 0x00006948] (.stringC ⟨0, 0⟩ [0x48, 0x69]) = true := by decide +kernel

theorem test_decode_stringR : reads [0x51020001, 0x00070000, 0x00000021] (.stringR ⟨0, 7⟩ [0x21]) = true := by decide +kernel

theorem test_decode_blitDn : reads [0x60000000, 0x00020001, 0x00010003, 0x00220011, 0xFFFF0033] (.blitDn ⟨1, 2⟩ 3 1 [0x11, 0x22, 0x33]) = true := by
  decide +kernel

theorem test_decode_blitUp : reads [0x60010000, 0x00010001, 0x00020002, 0x00020001, 0x00040003] (.blitUp ⟨1, 1⟩ 2 2 [1, 2, 3, 4]) = true := by
  decide +kernel

theorem test_decode_readbackDn : reads [0x61000000, 0x00000002, 0x00020003] (.readbackDn ⟨2, 0⟩ 3 2) = true := by decide +kernel

theorem test_decode_readbackUp : reads [0x61010000, 0xFFFBFFFC, 0x00000009] (.readbackUp ⟨0xFFFC, 0xFFFB⟩ 9 0) = true := by decide +kernel

theorem test_refuses_empty_list : refuses true [] .noHeader = true := by decide +kernel

theorem test_refuses_unknown_opcodes :
    ([0x06000000, 0x07000000, 0x0A000000, 0x13000000, 0x23000000, 0x34000000, 0x43000000, 0x52000000, 0x62000000, 0xFF000000] : List Word).all
      (fun h => refuses true [h, 0, 0, 0] (.unknownOpcode h)) = true := by decide +kernel

theorem test_refuses_read_without_path :
    refuses false [0x11000000, 0] (.noReadPath 0x11000000) = true ∧ refuses false [0x61000000, 0, 0] (.noReadPath 0x61000000) = true := by
  decide +kernel

theorem test_refuses_reserved_fields :
    ([0x00010000, 0x00000001, 0x22000001, 0x20010001, 0x51030000, 0x60020000, 0x61000001, 0x05000001] : List Word).all
      (fun h => refuses true [h] (.reservedField h)) = true := by decide +kernel

theorem test_refuses_short_packets :
    refuses true [0x22000000, 0] .shortFixed = true ∧ refuses true [0x40000002, 0] .shortPacket = true ∧
      refuses true [0x60000000, 0, 0x00010003, 0] .shortPacket = true := by decide +kernel

/-! ## Single steps, with the results of spec/95_test_vectors.md -/

/-- A surface with the given words as command list, FG = FFFF, BG = 0001, and the one-row font of the string vectors (only the bytes
that are used). -/
def board (width height : Nat) (cmd : List Word) : State :=
  { State.released { Launch.initial with width := width, height := height, cmd := cmd, font := [(33, 0x41), (40, 0x48), (73, 0x69)], fontLen := 95 } []
    with fg := 0xFFFF, fgV := true, bg := 1, bgV := true, fontW := 8, fontH := 1, fontV := true }

/-- The same board with the palette format. -/
def paletteBoard (width height : Nat) (cmd : List Word) : State :=
  { board width height cmd with cfg := { (board width height cmd).cfg with pixfmt := .pal8 } }

/-- The state after one step. -/
def after (s : State) : State :=
  match step s with
  | .next t => t
  | _ => s

/-- The pixels that are not 0: for each row its number, its columns in order, and the one colour they hold. -/
def rows (width : Nat) (c : Pixel) (l : List (Nat × List Nat)) : Memory 16 := l.flatMap fun r => r.2.map fun x => (width * r.1 + x, c)

/-- What a fault left: CAUSE, FAULT_X, FAULT_Y, FAULT_INFO and CP. -/
def record (s : State) : Nat × Int × Int × Nat × Nat :=
  (s.cause.code.toNat, s.faultX.toInt, s.faultY.toInt, s.faultInfo.toNat, s.cp.toNat)

theorem test_step_endRun : (after (board 4 4 [0])).runState = .halt ∧ (after (board 4 4 [0])).cp = 1 := by decide +kernel

/-- V-B3: 0x100 is no PAL8 pixel. -/
theorem test_step_setfg : (after (board 2 1 [0x0100F800])).fg = 0xF800 ∧ record (after (paletteBoard 2 1 [0x01000100])) = (4, 0, 0, 256, 0) := by
  decide +kernel

theorem test_step_setbg : (after (board 2 1 [0x02001234])).bg = 0x1234 ∧ (after (paletteBoard 2 1 [0x020000FF])).bg = 0xFF := by decide +kernel

/-- P4: 255, 0, 0 is F800. -/
theorem test_step_setfgrgb : (after (board 2 1 [0x03FF0000])).fg = 0xF800 := by decide +kernel

/-- X7: 248, 128, 0 is FC00. -/
theorem test_step_setbgrgb : (after (board 2 1 [0x04F88000])).bg = 0xFC00 := by decide +kernel

/-- The sizes of V-B4 to V-B7: 24 by 255 is legal; width 25 is not. -/
theorem test_step_setfont :
    (let t := after (board 2 1 [0x05000000, 0x00FF0018, 0x0000005A]); (t.fontW, t.fontH, t.fontBase, t.cp)) = (24, 255, 90, 3) ∧
      record (after (board 2 1 [0x05000000, 0x00010019, 0])) = (4, 0, 0, 0x00010019, 0) := by decide +kernel

/-- X7. -/
theorem test_step_fromrgb : (after (board 2 1 [0x08080408])).out = [0x00000821] ∧ (after (board 2 1 [0x08080408])).outCount = 1 := by decide +kernel

/-- X7. -/
theorem test_step_torgb : (after (board 2 1 [0x0900FC00])).out = [0x00F88000] := by decide +kernel

/-- V-C1 and V-C2. -/
theorem test_step_setpixel :
    (after (board 8 4 [0x1000ABCD, 0x00030007])).fb = [(31, 0xABCD)] ∧ record (after (board 8 4 [0x10000001, 0x00000008])) = (3, 8, 0, 0, 0) := by
  decide +kernel

theorem test_step_getpixel :
    (after { board 8 4 [0x11000000, 0x00030007] with fb := [(31, 0xABCD)] }).out = [0x0000ABCD] := by decide +kernel

/-- V-C6: every pixel of a 3 by 2 surface. -/
theorem test_step_fill : (after { board 3 2 [0x12000007] with fb := [(0, 1), (5, 6)] }).fb = rows 3 7 [(0, [0, 1, 2]), (1, [0, 1, 2])] := by
  decide +kernel

/-- V-D15. -/
theorem test_step_hline : (after (board 8 4 [0x20000003, 0x00010002])).fb = rows 8 0xFFFF [(1, [2, 3, 4])] := by decide +kernel

/-- V-D11: two pixels stay, the third is outside. -/
theorem test_step_hline_outside :
    (let t := after (board 8 4 [0x20000004, 0x00010006]); (t.fb, record t)) = (rows 8 0xFFFF [(1, [6, 7])], (3, 8, 1, 0, 0)) := by decide +kernel

/-- V-D12. -/
theorem test_step_vline_outside :
    (let t := after (board 8 4 [0x21000003, 0x00020000]); (t.fb, record t)) = (rows 8 0xFFFF [(2, [0]), (3, [0])], (3, 0, 4, 0, 0)) := by
  decide +kernel

/-- X1-a. -/
theorem test_step_line :
    (after (board 8 8 [0x22000000, 0x00020001, 0x00040006])).fb = rows 8 0xFFFF [(2, [1, 2]), (3, [3, 4]), (4, [5, 6])] := by decide +kernel

/-- V-D9: three pixels stay. -/
theorem test_step_line_outside :
    (let t := after (board 8 8 [0x22000000, 0x00050005, 0x00060009]); (t.fb, record t)) = (rows 8 0xFFFF [(5, [5, 6, 7])], (3, 8, 6, 0, 0)) := by
  decide +kernel

/-- X2-a. -/
theorem test_step_circle :
    (after (board 9 9 [0x30000003, 0x00040004])).fb =
      rows 9 0xFFFF [(1, [3, 4, 5]), (2, [2, 6]), (3, [1, 7]), (4, [1, 7]), (5, [1, 7]), (6, [2, 6]), (7, [3, 4, 5])] := by decide +kernel

/-- P3: the first span leaves the surface at its fifth pixel. -/
theorem test_step_fcircle_outside :
    (let t := after (board 8 8 [0x31000002, 0x00030006]); (t.fb, record t)) = (rows 8 0xFFFF [(3, [4, 5, 6, 7])], (3, 8, 3, 0, 0)) := by
  decide +kernel

/-- V-E9: wide radii leave gaps. -/
theorem test_step_ellipse :
    (after (board 24 24 [0x32000000, 0x000A000A, 0x00030006])).fb =
      rows 24 0xFFFF [(7, [8, 10, 12]), (8, [6, 14]), (9, [4, 16]), (10, [4, 16]), (11, [4, 16]), (12, [6, 14]), (13, [8, 10, 12])] := by
  decide +kernel

/-- X8-a, its first two rows: a narrow ellipse has 3 pixels there. -/
theorem test_step_fellipse :
    (after (board 15 15 [0x33000000, 0x00070007, 0x00060003])).fb.filter (fun e => e.1 < 45) = rows 15 0xFFFF [(1, [6, 7, 8]), (2, [6, 7, 8])] := by
  decide +kernel

/-- X5. -/
theorem test_step_poly :
    (after (board 8 8 [0x40000004, 0x00020002, 0x00020006, 0x00060006, 0x00060002])).fb =
      rows 8 0xFFFF [(2, [2, 3, 4, 5, 6]), (3, [2, 6]), (4, [2, 6]), (5, [2, 6]), (6, [2, 3, 4, 5, 6])] := by decide +kernel

/-- V-F13: the centre is (4, 3). -/
theorem test_step_fpoly :
    (after (board 12 12 [0x41000003, 0x00010001, 0x00020007, 0x00060004])).fb =
      rows 12 0xFFFF [(1, [1]), (2, [1, 2, 3, 4, 5, 6, 7]), (3, [2, 3, 4, 5, 6]), (4, [2, 3, 4, 5]), (5, [3, 4]), (6, [4])] := by
  decide +kernel

/-- V-F6: the scanlines of a triangle with a flat bottom. -/
theorem test_step_ftri :
    (after (board 12 12 [0x42000000, 0x00010005, 0x00060001, 0x00060009])).fb =
      rows 12 0xFFFF [(1, [5]), (2, [4, 5]), (3, [3, 4, 5, 6]), (4, [2, 3, 4, 5, 6, 7]), (5, [1, 2, 3, 4, 5, 6, 7, 8]),
        (6, [1, 2, 3, 4, 5, 6, 7, 8, 9])] := by decide +kernel

/-- X6. -/
theorem test_step_glyph :
    (after (board 16 2 [0x50000001, 0x00010003, 0x000000F0])).fb = rows 16 0xFFFF [(1, [3, 4, 5, 6])] ++ rows 16 1 [(1, [7, 8, 9, 10])] := by
  decide +kernel

/-- V-H4: 'A' is drawn, then code 0x7F faults. -/
theorem test_step_stringL_bad_code :
    (let t := after (board 20 1 [0x51000002, 0, 0x00007F41]); (t.fb.filter (fun e => e.2 = 0xFFFF), t.fb.length, record t)) =
      (rows 20 0xFFFF [(0, [1, 7])], 8, (4, 0, 0, 127, 0)) := by decide +kernel

/-- V-H2. -/
theorem test_step_stringC :
    (after (board 20 1 [0x51010002, 0, 0x00006948])).fb.filter (fun e => e.2 = 0xFFFF) = rows 20 0xFFFF [(0, [3, 6, 11, 12, 14, 17])] := by
  decide +kernel

/-- V-H3. -/
theorem test_step_stringR :
    (after (board 20 1 [0x51020002, 1, 0x00006948])).fb.filter (fun e => e.2 = 0xFFFF) = rows 20 0xFFFF [(0, [4, 7, 12, 13, 15, 18])] := by
  decide +kernel

/-- V-I1 and V-I3. -/
theorem test_step_blitDn :
    (after (board 4 4 [0x60000000, 0, 0x00010003, 0x00220011, 0x00000033])).fb = [(0, 0x11), (1, 0x22), (2, 0x33)] ∧
      (let t := after (board 4 4 [0x60000000, 0x00030002, 0x00020002, 0x00020001, 0x00040003]); (t.fb, record t)) =
        ([(14, 1), (15, 2)], (3, 2, 4, 0, 0)) := by decide +kernel

/-- V-I2. -/
theorem test_step_blitUp :
    (after (board 4 4 [0x60010000, 0x00010001, 0x00020002, 0x00020001, 0x00040003])).fb = [(5, 3), (6, 4), (9, 1), (10, 2)] := by decide +kernel

/-- V-I2 and V-I7. -/
theorem test_step_readbackDn :
    (after { board 4 4 [0x61000000, 0x00010001, 0x00020002] with fb := [(5, 3), (6, 4), (9, 1), (10, 2)] }).out = [0x00040003, 0x00020001] ∧
      (let t := after { board 4 4 [0x61000000, 0x00000002, 0x00010003] with fb := [(2, 7), (3, 7)] }; (t.out, record t)) =
        ([0x00070007], (3, 4, 0, 0, 0)) := by decide +kernel

/-- V-I2. -/
theorem test_step_readbackUp :
    (after { board 4 4 [0x61010000, 0x00010001, 0x00020002] with fb := [(5, 3), (6, 4), (9, 1), (10, 2)] }).out = [0x00020001, 0x00040003] := by
  decide +kernel

/-! ## Witnesses: for every statement with hypotheses, a state and operands that meet them, one for each clause -/

/-- A released state whose command list is one END. -/
def demo : State := State.released { Launch.initial with cmd := [0] } []

theorem inv_demo (cp : Word) (h : cp.toNat ≤ 1) : Inv { demo with cp := cp } := by
  refine ⟨(by decide +kernel : launchOk demo.cfg = true), rfl, fun _ _ => rfl, fun _ => ?_, nofun, nofun, nofun, h, fun _ => ⟨rfl, rfl, rfl, rfl⟩, nofun, fun _ => rfl⟩
  show (0 : Nat) < 2 ^ 16
  decide

theorem inside {width height : Nat} {cmd : List Word} {x y : Int} (h : 0 ≤ x ∧ x < width ∧ 0 ≤ y ∧ y < height) :
    inSurface (board width height cmd) x y = true := by
  simp [inSurface, board, State.released, h]

theorem colours (width height : Nat) (cmd : List Word) (bit : Bool) : glyphColourSet (board width height cmd) bit := by
  cases bit <;> rfl

/-- A region that lies inside the surface can be drawn on a board. -/
theorem drawable {width height : Nat} {P : Region} (h : ∀ x y, P x y → 0 ≤ x ∧ x < width ∧ 0 ≤ y ∧ y < height) :
    Drawable (board width height []) P := fun x y hp => ⟨rfl, inside (h x y hp)⟩

/-- Glyph pixels inside the surface can be drawn on a board. -/
theorem dots {width height : Nat} {l : List (Int × Int × Bool)} (h : ∀ q ∈ l, 0 ≤ q.1 ∧ q.1 < width ∧ 0 ≤ q.2.1 ∧ q.2.1 < height) :
    ∀ q ∈ l, DotDrawable (board width height []) q := fun q hq => ⟨colours width height [] q.2.2, inside (h q hq)⟩

theorem witness_DecodeReadsBackEveryEncoding :
    (Instr.poly (List.replicate 65535 ⟨0x8000, 0x7FFF⟩)).wf = true ∧ (readsSurface (.poly (List.replicate 65535 ⟨0x8000, 0x7FFF⟩)) = true → false = true) ∧
      (Instr.readbackUp ⟨0, 0⟩ 0xFFFF 1).wf = true ∧ (readsSurface (.readbackUp ⟨0, 0⟩ 0xFFFF 1) = true → true = true) :=
  ⟨count_replicate _ _, nofun, rfl, fun _ => rfl⟩

theorem witness_DecodedCommandsAreWellFormed :
    reads [0x51000002, 0, 0xFFFF6948] (.stringL ⟨0, 0⟩ [0x48, 0x69]) = true ∧ reads [0x22000000, 0, 1, 5] (.line ⟨0, 0⟩ ⟨1, 0⟩) = true := by
  decide +kernel

theorem witness_IllegalOpcodesFault :
    (Running (board 4 4 [0x06FFFFFF]) ∧ (0x06FFFFFF : Word).toNat / 16777216 ∉ assignedOpcodes) ∧
      (Running (board 4 4 [0x62000000]) ∧ (0x62000000 : Word).toNat / 16777216 ∉ assignedOpcodes) ∧
      Running { demo with cfg := { demo.cfg with cmd := [0x61000000], hasRead := false } } := by
  simp only [Running]
  decide +kernel

theorem witness_ReservedFieldsFault :
    Running (board 4 4 [0x50010000]) ∧ BreaksReserved 0x50010000 ∧ BreaksReserved 0x51030000 ∧ BreaksReserved 0x60020000 ∧
      BreaksReserved 0x61000001 := by
  simp only [Running, BreaksReserved]
  decide +kernel

theorem witness_CutPacketsRaiseFetch :
    (Running (board 4 4 []) ∧ 0 < (encode .endRun).length ∧ (board 4 4 []).cfg.cmd.drop 0 = (encode .endRun).take 0) ∧
      Running (board 4 4 [0x22000000, 0]) ∧ 2 < (encode (.line ⟨0, 0⟩ ⟨1, 1⟩)).length ∧
      (board 4 4 [0x22000000, 0]).cfg.cmd.drop 0 = (encode (.line ⟨0, 0⟩ ⟨1, 1⟩)).take 2 := by
  simp only [Running]
  decide +kernel

theorem witness_StepRunsTheDecodedCommand :
    Running (board 4 4 [0x0100F800, 0]) ∧ decode true ([0x0100F800, 0] : List Word) = .ok (.setfg 0xF800) := by
  refine ⟨?_, rfl⟩
  simp only [Running]
  decide +kernel

theorem witness_StoppedEngineTakesNoStep :
    { demo with runState := .halt }.runState = .halt ∧ { demo with runState := .fault }.runState = .fault := ⟨rfl, rfl⟩

/-- Both sides of the equivalence are met, at the two sides of the range of W. -/
theorem witness_LaunchOutOfRangeIsRefused :
    (board 32768 1 []).runState = .run ∧ step (board 32768 1 []) = .refused .launchOutOfDomain ∧ (board 32767 1 []).runState = .run ∧
      step (board 32767 1 []) ≠ .refused .launchOutOfDomain := by
  refine ⟨rfl, rfl, rfl, ?_⟩
  intro h
  cases h

/-- One pixel of the last position is set. -/
def onePixel : Memory 16 := [(255, 0xFFFF)]

theorem witness_ReleasedStateMeetsTheInvariant :
    launchOk Launch.initial = true ∧ onePixel.wf = true ∧ (∀ a, Launch.initial.width * Launch.initial.height ≤ a → onePixel.read a = 0) ∧
      ∀ a, (onePixel.read a).toNat < 2 ^ Launch.initial.pixfmt.bpp := by
  refine ⟨by decide +kernel, rfl, fun a h => ?_, fun a => (onePixel.read a).isLt⟩
  have h' : 256 ≤ a := h
  simp [onePixel, Memory.read, show ¬a = 255 by omega]

theorem witness_EveryStepKeepsTheInvariant : Inv { demo with cp := 0 } ∧ step demo = .next (after demo) :=
  ⟨inv_demo 0 (by decide), rfl⟩

theorem witness_CommandPointerAdvancesOrStays : (Instr.hline ⟨15, 15⟩ 1).wf = true ∧ demo.runState = .run := ⟨rfl, rfl⟩

theorem witness_FaultEntryKeepsOtherRegisters :
    demo.runState = .run ∧ exec (.hline ⟨0, 0⟩ 1) demo = .next (takeFault .unset 0 0 0 demo) ∧ (takeFault .unset 0 0 0 demo).runState = .fault :=
  ⟨rfl, rfl, rfl⟩

theorem witness_OnlyEndHalts : demo.runState = .run ∧ exec .endRun demo = .next { demo with runState := .halt, cp := 1 } := ⟨rfl, rfl⟩

theorem witness_DrawStateChangesOnlyBySetters :
    exec (.setfg 1) demo = .next { demo with fg := 1, fgV := true, cp := 1 } ∧ setsBackground (.setfg 1) = false ∧ setsFont (.setfg 1) = false ∧
      setsForeground (.setbg 1) = false ∧ exec (.setbg 1) (board 1 1 []) = .next { board 1 1 [] with cp := 1 } ∧
      (board 1 1 []).fgV = true ∧ (board 1 1 []).bgV = true ∧ (board 1 1 []).fontV = true := by
  refine ⟨rfl, rfl, rfl, rfl, rfl, rfl, rfl, rfl⟩

theorem witness_OutputOnlyGrows :
    exec .endRun demo = .next { demo with runState := .halt, cp := 1 } ∧ emits .endRun = false := ⟨rfl, rfl⟩

theorem witness_LaunchParametersNeverChange : step demo = .next (after demo) := rfl

theorem witness_PixelsChangeOnlyOnTheSurface :
    demo.fb.wf = true ∧ exec .endRun demo = .next { demo with runState := .halt, cp := 1 } ∧ pixelCount demo ≤ 256 ∧ leavesPixels .endRun = true := by
  refine ⟨rfl, rfl, ?_, rfl⟩
  decide +kernel

theorem witness_EveryRunEnds : (Inv { demo with cp := 0 } ∧ demo.runState = .run) ∧ Inv { demo with cp := 1 } :=
  ⟨⟨inv_demo 0 (by decide), rfl⟩, inv_demo 1 (by decide)⟩

theorem witness_UnsetValuesAreNeverRead : visible demo = visible { demo with fg := 5, bg := 6, fontW := 7, fontH := 8, fontBase := 9 } := rfl

theorem witness_ColourSettersStoreOrFault :
    (0xFF : Half).toNat < 2 ^ (paletteBoard 1 1 []).cfg.pixfmt.bpp ∧ 2 ^ (paletteBoard 1 1 []).cfg.pixfmt.bpp ≤ (0x100 : Half).toNat := by
  decide +kernel

theorem witness_SetfontStoresOrFaults :
    (1 ≤ (24 : Half).toNat ∧ (24 : Half).toNat ≤ 24 ∧ 1 ≤ (255 : Half).toNat ∧ (255 : Half).toNat ≤ 255) ∧
      ¬(1 ≤ (25 : Half).toNat ∧ (25 : Half).toNat ≤ 24 ∧ 1 ≤ (1 : Half).toNat ∧ (1 : Half).toNat ≤ 255) ∧
      ¬(1 ≤ (1 : Half).toNat ∧ (1 : Half).toNat ≤ 24 ∧ 1 ≤ (0 : Half).toNat ∧ (0 : Half).toNat ≤ 255) := by decide

theorem witness_ConversionsEmitTheirResult :
    (0xFF : Half).toNat < 2 ^ (paletteBoard 1 1 []).cfg.pixfmt.bpp ∧ 2 ^ (paletteBoard 1 1 []).cfg.pixfmt.bpp ≤ (0x100 : Half).toNat := by
  decide +kernel

theorem witness_WideColoursFault :
    colourField (.fill 0x100) = some 0x100 ∧ 2 ^ (paletteBoard 1 1 []).cfg.pixfmt.bpp ≤ (0x100 : Half).toNat := by decide +kernel

theorem witness_SetpixelWritesOnePixel :
    (1 : Half).toNat < 2 ^ (board 8 4 []).cfg.pixfmt.bpp ∧ (board 8 4 []).fb.wf = true ∧ inSurface (board 8 4 []) (px ⟨7, 3⟩) (py ⟨7, 3⟩) = true ∧
      inSurface (board 8 4 []) (px ⟨8, 0⟩) (py ⟨8, 0⟩) = false ∧ (paletteBoard 1 1 []).fb.wf = true ∧
      2 ^ (paletteBoard 1 1 []).cfg.pixfmt.bpp ≤ (0x100 : Half).toNat := by decide +kernel

theorem witness_GetpixelEmitsThePixel :
    (board 8 4 []).cfg.hasRead = true ∧ inSurface (board 8 4 []) (px ⟨0, 0⟩) (py ⟨0, 0⟩) = true ∧
      inSurface (board 8 4 []) (px ⟨0, 0xFFFF⟩) (py ⟨0, 0xFFFF⟩) = false ∧ { demo with cfg := { demo.cfg with hasRead := false } }.cfg.hasRead = false := by
  decide +kernel

theorem witness_FillWritesEveryPixel :
    (0xFFFF : Half).toNat < 2 ^ (board 3 2 []).cfg.pixfmt.bpp ∧ (board 3 2 []).fb.wf = true ∧ (paletteBoard 1 1 []).fb.wf = true ∧
      2 ^ (paletteBoard 1 1 []).cfg.pixfmt.bpp ≤ (0x100 : Half).toNat := by
  decide +kernel

theorem witness_HlineDrawsItsRun : (board 8 4 []).fb.wf = true ∧ Drawable (board 8 4 []) (HRun (px ⟨5, 3⟩) (py ⟨5, 3⟩) (3 : Half).toNat) := by
  refine ⟨rfl, drawable fun x y h => ?_⟩
  obtain ⟨h1, h2, h3⟩ := h
  simp [px, py, coord] at h1 h2 h3
  omega

theorem witness_VlineDrawsItsRun : (board 8 4 []).fb.wf = true ∧ Drawable (board 8 4 []) (VRun (px ⟨7, 1⟩) (py ⟨7, 1⟩) (3 : Half).toNat) := by
  refine ⟨rfl, drawable fun x y h => ?_⟩
  obtain ⟨h1, h2, h3⟩ := h
  simp [px, py, coord] at h1 h2 h3
  omega

/-- The line from the origin to (2, 1) of a 3 by 2 surface. -/
theorem small_line : Drawable (board 3 2 []) (LineRegion 0 0 2 1) := by
  refine drawable fun x y h => ?_
  norm_num [LineRegion, MajorPoint, WalkPoint, minorOffset] at h
  omega

theorem witness_LineDrawsTheRoundedWalk :
    (board 3 2 []).fb.wf = true ∧ Drawable (board 3 2 []) (LineRegion (px ⟨0, 0⟩) (py ⟨0, 0⟩) (px ⟨2, 1⟩) (py ⟨2, 1⟩)) :=
  ⟨rfl, small_line⟩

theorem witness_RunsFaultAtTheFirstPixelOutside :
    ((board 8 4 []).fgV = true ∧ 2 < (4 : Half).toNat) ∧
      (Drawable (board 8 4 []) (HRun (px ⟨6, 1⟩) (py ⟨6, 1⟩) 2) ∧ inSurface (board 8 4 []) (px ⟨6, 1⟩ + 2) (py ⟨6, 1⟩) = false) ∧
      Drawable (board 8 4 []) (VRun (px ⟨0, 2⟩) (py ⟨0, 2⟩) 2) ∧ inSurface (board 8 4 []) (px ⟨0, 2⟩) (py ⟨0, 2⟩ + 2) = false := by
  refine ⟨⟨rfl, by decide⟩, ⟨drawable fun x y h => ?_, by decide +kernel⟩, drawable fun x y h => ?_, by decide +kernel⟩
  · obtain ⟨h1, h2, h3⟩ := h
    simp [px, py, coord] at h1 h2 h3
    omega
  · obtain ⟨h1, h2, h3⟩ := h
    simp [px, py, coord] at h1 h2 h3
    omega

/-- Radius 3 has two consecutive pairs with the same v and two with different ones (R150). -/
theorem witness_OctantGeneratorFacts : octant 3 = [(0, 3), (1, 3), (2, 2)] := by decide +kernel

theorem octant_one : octant 1 = [(0, 1)] := by decide +kernel

/-- A circle of radius 1 around (1, 1) on a 3 by 3 surface, and its fill. -/
theorem small_fill (sc : Int → Int) (h0 : sc 0 ≤ 1) (h1 : sc 1 ≤ 1) : Drawable (board 3 3 []) (FillRegion 1 1 1 sc) := by
  refine drawable fun x y h => ?_
  obtain ⟨q, hq, h⟩ := h
  rw [octant_one] at hq
  simp only [List.mem_cons, List.not_mem_nil, or_false] at hq
  subst hq
  simp only [abs_le, abs_eq (show (0 : Int) ≤ 1 by decide), abs_eq (le_refl (0 : Int))] at h
  omega

theorem small_stroke (sc : Int → Int) (h0 : sc 0 ≤ 1) (h1 : sc 1 ≤ 1) : Drawable (board 3 3 []) (StrokeRegion 1 1 1 sc) := by
  intro x y h
  refine small_fill sc h0 h1 x y ?_
  obtain ⟨q, hq, h | h⟩ := h
  · exact ⟨q, hq, .inl ⟨h.2, le_of_eq h.1⟩⟩
  · exact ⟨q, hq, .inr ⟨h.2, le_of_eq h.1⟩⟩

theorem witness_CircleDrawsItsStroke :
    (board 3 3 []).fb.wf = true ∧ Drawable (board 3 3 []) (StrokeRegion (px ⟨1, 1⟩) (py ⟨1, 1⟩) (1 : Half).toNat id) :=
  ⟨rfl, small_stroke id (by decide) (by decide)⟩

theorem witness_FcircleDrawsItsFill :
    (board 3 3 []).fb.wf = true ∧ Drawable (board 3 3 []) (FillRegion (px ⟨1, 1⟩) (py ⟨1, 1⟩) (1 : Half).toNat id) :=
  ⟨rfl, small_fill id (by decide) (by decide)⟩

theorem witness_EllipseDrawsItsStroke :
    (1 : Half) ≠ 0 ∧ (board 3 3 []).fb.wf = true ∧
      Drawable (board 3 3 []) (StrokeRegion (px ⟨1, 1⟩) (py ⟨1, 1⟩) (1 : Half).toNat fun t => t * (1 : Half).toNat / (1 : Half).toNat) :=
  ⟨by decide, rfl, small_stroke _ (by decide) (by decide)⟩

theorem witness_FellipseDrawsItsFill :
    (1 : Half) ≠ 0 ∧ (board 3 3 []).fb.wf = true ∧
      Drawable (board 3 3 []) (FillRegion (px ⟨1, 1⟩) (py ⟨1, 1⟩) (1 : Half).toNat fun t => t * (1 : Half).toNat / (1 : Half).toNat) :=
  ⟨by decide, rfl, small_fill _ (by decide) (by decide)⟩

theorem witness_EqualRadiiDrawTheCircle : (1 : Half) ≠ 0 := by decide

/-- The triangle (0, 0), (2, 0), (0, 2) on a 3 by 3 surface. -/
theorem small_triangle : ∀ x y, TriangleRegion (0, 0) (2, 0) (0, 2) x y → 0 ≤ x ∧ x < 3 ∧ 0 ≤ y ∧ y < 3 := by
  intro x y h
  simp [TriangleRegion, TriangleMeets, EdgeMeets] at h
  omega

theorem witness_FtriDrawsItsTriangle :
    (board 3 3 []).fb.wf = true ∧ Drawable (board 3 3 []) (TriangleRegion (ptOf ⟨0, 0⟩) (ptOf ⟨2, 0⟩) (ptOf ⟨0, 2⟩)) :=
  ⟨rfl, drawable small_triangle⟩

theorem witness_EdgeTrackerGivesEdgeX : ((3, -1) : Pt).2 < ((0, 0) : Pt).2 := by decide

/-- The two-vertex outline: the line and its way back. -/
theorem witness_PolyDrawsItsOutline : (board 3 2 []).fb.wf = true ∧ Drawable (board 3 2 []) (OutlineRegion [⟨0, 0⟩, ⟨2, 1⟩]) := by
  refine ⟨rfl, drawable fun x y h => ?_⟩
  obtain ⟨_, k, hk, h⟩ := h
  have hk : k = 0 ∨ k = 1 := by simp at hk; omega
  have hv : vertex [⟨0, 0⟩, ⟨2, 1⟩] 0 = (0, 0) ∧ vertex [⟨0, 0⟩, ⟨2, 1⟩] 1 = (2, 1) := by decide
  rcases hk with rfl | rfl <;>
    simp only [List.length_cons, List.length_nil, Nat.reduceAdd, Nat.reduceMod, hv.1, hv.2] at h <;>
    norm_num [LineRegion, MajorPoint, WalkPoint, minorOffset] at h <;> omega

/-- The centre of the box around (0, 0), (2, 0), (0, 2) is (1, 1). -/
theorem witness_FpolyDrawsItsFan :
    IsBoxCentre [⟨0, 0⟩, ⟨2, 0⟩, ⟨0, 2⟩] (1, 1) ∧ (board 3 3 []).fb.wf = true ∧
      Drawable (board 3 3 []) (FanRegion [⟨0, 0⟩, ⟨2, 0⟩, ⟨0, 2⟩] (1, 1)) := by
  have hv : vertex [⟨0, 0⟩, ⟨2, 0⟩, ⟨0, 2⟩] 0 = (0, 0) ∧ vertex [⟨0, 0⟩, ⟨2, 0⟩, ⟨0, 2⟩] 1 = (2, 0) ∧
      vertex [⟨0, 0⟩, ⟨2, 0⟩, ⟨0, 2⟩] 2 = (0, 2) := by decide
  have hall : ∀ v ∈ ([⟨0, 0⟩, ⟨2, 0⟩, ⟨0, 2⟩] : List Point), 0 ≤ px v ∧ px v ≤ 2 ∧ 0 ≤ py v ∧ py v ≤ 2 := by decide
  refine ⟨⟨0, 2, 0, 2, ⟨⟨⟨0, 0⟩, by simp, rfl⟩, ?_⟩, ⟨⟨⟨2, 0⟩, by simp, rfl⟩, ?_⟩, ⟨⟨⟨0, 0⟩, by simp, rfl⟩, ?_⟩, ⟨⟨⟨0, 2⟩, by simp, rfl⟩, ?_⟩,
    by decide⟩, rfl, drawable fun x y h => ?_⟩
  · rintro _ ⟨v, h, rfl⟩
    exact (hall v h).1
  · rintro _ ⟨v, h, rfl⟩
    exact (hall v h).2.1
  · rintro _ ⟨v, h, rfl⟩
    exact (hall v h).2.2.1
  · rintro _ ⟨v, h, rfl⟩
    exact (hall v h).2.2.2
  · obtain ⟨_, k, hk, h⟩ := h
    have hk : k = 0 ∨ k = 1 ∨ k = 2 := by simp at hk; omega
    rcases hk with rfl | rfl | rfl <;>
      simp only [List.length_cons, List.length_nil, Nat.reduceAdd, Nat.reduceMod, hv.1, hv.2.1, hv.2.2] at h <;>
      simp [TriangleRegion, TriangleMeets, EdgeMeets] at h <;> omega

theorem witness_GlyphDrawsItsBits :
    (board 16 2 []).fontV = true ∧ ([0xF0] : List Byte).length = (board 16 2 []).fontH.toNat * (((board 16 2 []).fontW.toNat + 7) / 8) ∧
      (board 16 2 []).fb.wf = true ∧ RectOnSurface (board 16 2 []) ⟨8, 1⟩ (board 16 2 []).fontW.toNat (board 16 2 []).fontH.toNat ∧
      ∀ bit, glyphColourSet (board 16 2 []) bit := by
  refine ⟨rfl, rfl, rfl, fun j i hj hi => inside ?_, colours 16 2 []⟩
  simp [board] at hj hi
  simp [px, py, coord]
  omega

theorem witness_GlyphCommandsCheckTheFont :
    demo.fontV = false ∧ (board 16 2 []).fontV = true ∧
      ([] : List Byte).length ≠ (board 16 2 []).fontH.toNat * (((board 16 2 []).fontW.toNat + 7) / 8) ∧
      ([0, 0] : List Byte).length ≠ (board 16 2 []).fontH.toNat * (((board 16 2 []).fontW.toNat + 7) / 8) := by decide +kernel

/-- "Hi" fills a 16 by 1 surface up to its last column. -/
theorem witness_StringDrawsTheGlyphsThatFit :
    let s := board 16 1 []
    let d : List Byte := [0x48, 0x69]
    let reached := stringReached .left s ⟨0, 0⟩ d.length
    s.fontV = true ∧ s.fb.wf = true ∧ (reached 1 ∧ ¬reached 2) ∧
      (∀ i : Nat, reached i → 0x20 ≤ (d.getD i 0).toNat ∧ (d.getD i 0).toNat ≤ 0x7E) ∧
      (∀ i j : Nat, reached i → j < s.fontH.toNat * ((s.fontW.toNat + 7) / 8) →
        s.fontBase.toNat + ((d.getD i 0).toNat - 0x20) * (s.fontH.toNat * ((s.fontW.toNat + 7) / 8)) + j < s.cfg.fontLen) ∧
      (∀ i r c : Nat, reached i → r < s.fontH.toNat → c < s.fontW.toNat →
        inSurface s (stringCol .left s ⟨0, 0⟩ d.length i + c) (py ⟨0, 0⟩ + r) = true) ∧ ∀ bit, glyphColourSet s bit := by
  intro s d reached
  have hr : ∀ i, reached i → i = 0 ∨ i = 1 := fun i h => by
    have : i < 2 := h.1
    omega
  refine ⟨rfl, rfl, ⟨⟨by decide, by decide +kernel⟩, fun h => absurd h.1 (by decide)⟩, fun i h => ?_, fun i j h hj => ?_,
    fun i r c h hr' hc => inside ?_, colours 16 1 []⟩
  · rcases hr i h with rfl | rfl <;> decide
  · have hj : j < 1 := by simpa [s, board] using hj
    have hj : j = 0 := by omega
    subst hj
    rcases hr i h with rfl | rfl <;> decide +kernel
  · have hr' : r < 1 := hr'
    have hc : c < 8 := hc
    have h1 : stringCol .left s ⟨0, 0⟩ d.length 0 = 0 ∧ stringCol .left s ⟨0, 0⟩ d.length 1 = 8 := by decide +kernel
    have h2 : py ⟨0, 0⟩ = 0 := rfl
    rcases hr i h with rfl | rfl <;> simp only [h1, h2] <;> omega

/-- The pixels of "H" alone, on a 16 by 1 surface. -/
theorem runs_H (d : List Byte) (h : d.getD 0 0 = 0x48) (base : Word) (hb : base.toNat ≤ 1) :
    StringRunsTo .left { board 16 1 [] with fontBase := base } ⟨0, 0⟩ d 1 0 0 := by
  have hj : (board 16 1 []).fontH.toNat = 1 ∧ (board 16 1 []).fontW.toNat = 8 ∧ (board 16 1 []).cfg.fontLen = 95 := by decide +kernel
  refine ⟨fun i hi => ?_, fun q hq => ⟨colours 16 1 [] _, ?_⟩⟩
  · obtain rfl : i = 0 := by omega
    rw [h]
    refine ⟨by simp [Printable], fun j hj' => ?_⟩
    simp only [fontIndex, hj] at hj' ⊢
    simp at hj' ⊢
    omega
  · refine inside (x := q.1) (y := q.2.1) (width := 16) (height := 1) (cmd := []) ?_
    simp only [stringDots, glyphDots, stringCol, stringStart, List.mem_append, List.mem_flatMap, List.mem_map, List.mem_range, hj] at hq
    have hp : px ⟨0, 0⟩ = 0 ∧ py ⟨0, 0⟩ = 0 := by decide +kernel
    simp only [hp] at hq
    simp at hq
    obtain ⟨c, hc, rfl⟩ := hq
    simp
    omega

theorem witness_StringFaultsAtABadCharacter :
    let s := board 16 1 []
    let u := { board 16 1 [] with fontBase := 1 }
    (s.fontV = true ∧ s.fb.wf = true ∧ stringReached .left s ⟨0, 0⟩ 2 1 ∧ ¬Printable 0x1F ∧ ¬Printable 0x7F ∧
      StringRunsTo .left s ⟨0, 0⟩ [0x48, 0x1F] 1 0 0) ∧
    (Printable 0x7E ∧ 0 < u.fontH.toNat * ((u.fontW.toNat + 7) / 8) ∧ u.cfg.fontLen ≤ fontIndex u 0x7E 0 ∧
      StringRunsTo .left u ⟨0, 0⟩ [0x48, 0x7E] 1 0 0) := by
  refine ⟨⟨rfl, rfl, ⟨by decide, by decide +kernel⟩, by simp [Printable], by simp [Printable], runs_H _ rfl 0 (by decide)⟩,
    by simp [Printable], by decide +kernel, by decide +kernel, runs_H _ rfl 1 (by decide)⟩

/-- "H" starts with a clear bit and then a set one; with FG unset its second pixel is the first that cannot be drawn, and in row 1 of a
surface of one row its first pixel is. -/
theorem witness_StringFaultsAtItsFirstBadPixel :
    let s := board 16 1 []
    let u := { board 16 1 [] with fgV := false }
    (s.fontV = true ∧ s.fb.wf = true ∧ Printable 0x48 ∧ 0 < s.fontH.toNat ∧ 1 < s.fontW.toNat ∧
      (∀ j < (0 + 1) * ((s.fontW.toNat + 7) / 8), fontIndex s 0x48 j < s.cfg.fontLen)) ∧
    (stringReached .left u ⟨0, 0⟩ 1 0 ∧ ¬glyphColourSet u (stringBit u [0x48] 0 0 1) ∧ StringRunsTo .left u ⟨0, 0⟩ [0x48] 0 0 1) ∧
    (stringReached .left s ⟨0, 1⟩ 1 0 ∧ glyphColourSet s (stringBit s [0x48] 0 0 0) ∧
      inSurface s (stringCol .left s ⟨0, 1⟩ 1 0 + (0 : Nat)) (py ⟨0, 1⟩ + (0 : Nat)) = false ∧ StringRunsTo .left s ⟨0, 1⟩ [0x48] 0 0 0) := by
  have hbits : stringBit (board 16 1 []) [0x48] 0 0 1 = true ∧ stringBit (board 16 1 []) [0x48] 0 0 0 = false := by decide +kernel
  refine ⟨⟨rfl, rfl, by simp [Printable], by decide +kernel⟩, ⟨⟨by decide, by decide +kernel⟩, ?_, fun _ h => absurd h (by omega), ?_⟩,
    ⟨by decide, by decide +kernel⟩, colours 16 1 [] _, by decide +kernel, fun _ h => absurd h (by omega), by simp [stringDots, glyphDots]⟩
  · intro h
    have h1 : stringBit { board 16 1 [] with fgV := false } [0x48] 0 0 1 = true := hbits.1
    rw [h1] at h
    cases h
  · have h0 : stringBit { board 16 1 [] with fgV := false } [0x48] 0 0 0 = false := hbits.2
    rintro q hq
    obtain rfl : q = (0, 0, stringBit { board 16 1 [] with fgV := false } [0x48] 0 0 0) := by
      simpa [stringDots, glyphDots, stringCol, stringStart, px, py, coord] using hq
    rw [h0]
    exact ⟨rfl, by decide +kernel⟩

theorem witness_BlitWritesItsBlock :
    ([1, 2, 3, 0xFFFF] : List Half).length = (2 : Half).toNat * (2 : Half).toNat ∧ (board 4 4 []).fb.wf = true ∧
      (∀ e ∈ ([1, 2, 3, 0xFFFF] : List Half), e.toNat < 2 ^ (board 4 4 []).cfg.pixfmt.bpp) ∧
      RectOnSurface (board 4 4 []) ⟨2, 2⟩ (2 : Half).toNat (2 : Half).toNat := by
  refine ⟨rfl, rfl, fun e _ => e.isLt, fun j i hj hi => inside ?_⟩
  simp at hj hi
  simp [px, py, coord]
  omega

theorem witness_ReadbackEmitsItsBlock :
    (board 4 4 []).cfg.hasRead = true ∧ RectOnSurface (board 4 4 []) ⟨2, 2⟩ (2 : Half).toNat (2 : Half).toNat ∧
      { demo with cfg := { demo.cfg with hasRead := false } }.cfg.hasRead = false :=
  ⟨rfl, witness_BlitWritesItsBlock.2.2.2, rfl⟩

theorem witness_BlitAndReadbackAreInverse :
    (board 4 4 []).cfg.hasRead = true ∧ (board 4 4 []).fb.wf = true ∧ RectOnSurface (board 4 4 []) ⟨2, 2⟩ (2 : Half).toNat (2 : Half).toNat ∧
      ([1, 2, 3, 0xFFFF] : List Half).length = (2 : Half).toNat * (2 : Half).toNat ∧
      (∀ e ∈ ([1, 2, 3, 0xFFFF] : List Half), e.toNat < 2 ^ (board 4 4 []).cfg.pixfmt.bpp) ∧
      (∀ a, native (board 4 4 []) (readFb (board 4 4 []) a)) ∧ 1 < (2 : Half).toNat :=
  ⟨rfl, rfl, witness_BlitWritesItsBlock.2.2.2, rfl, fun e _ => e.isLt, fun _ => BitVec.isLt _, by decide⟩

theorem witness_UnsetForegroundFaults :
    startsInForeground (.hline ⟨100, 100⟩ 1) = true ∧ startsInForeground (.fpoly [⟨0, 0⟩, ⟨0, 0⟩, ⟨0, 0⟩]) = true ∧ demo.fgV = false := by
  decide +kernel

theorem witness_ShapesFaultOffTheSurface :
    (board 8 4 []).fb.wf = true ∧ (board 8 4 []).fgV = true ∧ foregroundRegion (.hline ⟨6, 1⟩ 3) 8 1 ∧
      inSurface (board 8 4 []) 8 1 = false := by
  refine ⟨rfl, rfl, ?_, by decide +kernel⟩
  simp [foregroundRegion, HRun, px, py, coord]

/-- The byte 0x80 has its first bit set and its second clear: the three clauses are met at columns 0, 1 and 7. -/
theorem witness_GlyphFaultsAtItsFirstPixel :
    let bit := glyphBit (fun j => ([0x80] : List Byte).getD j 0) 1
    let s := board 16 1 []
    (s.fontV = true ∧ s.fb.wf = true ∧ ([0x80] : List Byte).length = s.fontH.toNat * ((s.fontW.toNat + 7) / 8) ∧ 0 < s.fontH.toNat ∧
      7 < s.fontW.toNat) ∧
    (¬glyphColourSet { s with fgV := false } (bit 0 0) ∧ ∀ q ∈ glyphDots { s with fgV := false } 0 0 bit 0 0, DotDrawable { s with fgV := false } q) ∧
    (¬glyphColourSet { s with bgV := false } (bit 0 1) ∧ ∀ q ∈ glyphDots { s with bgV := false } 0 0 bit 0 1, DotDrawable { s with bgV := false } q) ∧
    (glyphColourSet s (bit 0 7) ∧ inSurface s (px ⟨9, 0⟩ + (7 : Nat)) (py ⟨9, 0⟩ + (0 : Nat)) = false ∧
      ∀ q ∈ glyphDots s (px ⟨9, 0⟩) (py ⟨9, 0⟩) bit 0 7, DotDrawable s q) := by
  refine ⟨by decide +kernel, ⟨nofun, by simp [glyphDots]⟩, ⟨nofun, ?_⟩, colours 16 1 [] _, by decide +kernel, dots (by decide +kernel)⟩
  rintro q hq
  obtain rfl : q = (0, 0, true) := by simpa [glyphDots, glyphBit] using hq
  exact ⟨rfl, by decide +kernel⟩

/-- Element 3 of a 2 by 2 block is the first that is no native colour; element 1 is the first outside the surface. -/
theorem witness_BlocksFaultAtTheirFirstElement :
    let s := paletteBoard 4 4 []
    let l : List Half := [1, 2, 3, 0x100]
    (3 < (2 : Half).toNat * (2 : Half).toNat ∧ 3 < l.length ∧ s.fb.wf = true ∧
      (∀ i < 3, inSurface s (blockPos .up ⟨2, 2⟩ 2 2 i).1 (blockPos .up ⟨2, 2⟩ 2 2 i).2 = true) ∧
      (∀ i < 3, (l.getD i 0).toNat < 2 ^ s.cfg.pixfmt.bpp) ∧ 2 ^ s.cfg.pixfmt.bpp ≤ (l.getD 3 0).toNat) ∧
    (∀ i < 1, inSurface s (blockPos .dn ⟨3, 0⟩ 2 2 i).1 (blockPos .dn ⟨3, 0⟩ 2 2 i).2 = true) ∧ (l.getD 1 0).toNat < 2 ^ s.cfg.pixfmt.bpp ∧
      inSurface s (blockPos .dn ⟨3, 0⟩ 2 2 1).1 (blockPos .dn ⟨3, 0⟩ 2 2 1).2 = false ∧ s.cfg.hasRead = true := by decide +kernel

theorem witness_DegenerateInputsComplete :
    ([⟨0, 0⟩] : List Point).length < 2 ∧ ([⟨0, 0⟩, ⟨0, 0⟩] : List Point).length < 3 ∧ demo.cfg.hasRead = true := by decide +kernel

end Sys2Proof.Tests
end

section
/-! PROOFS. What every command and every step keeps, and when a step is refused (spec 00_scope.md R5, 20_memory.md R50,
70_reset_and_hazards.md R237, 93_implementation_defined.md U19). -/

namespace Sys2Proof.Machine

/-! ## The setters and END, beside `exec_draws` and `exec_emits` -/

/-- A property that END and the setters keep, given what each of them has checked of its operands. -/
structure SetClosed (P : State → Prop) : Prop where
  /-- END (R110). -/
  atHalt : ∀ s, P s → P (halt s)
  /-- A native colour for FG (R111, R116). -/
  atSetFg : ∀ s c, P s → native s c → P (setFg c s)
  /-- A native colour for BG (R112, R117). -/
  atSetBg : ∀ s c, P s → native s c → P (setBg c s)
  /-- A font of a legal size (R118). -/
  atSetFont : ∀ s w h b, P s → fontSizeOk w h = true → P (setFont (w.setWidth 5) (h.setWidth 8) b s)

/-- FromRGB answers a native colour of the surface in both formats (R24, R113). -/
theorem native_fromRgb (s : State) (c : Rgb) : native s (fromRgb s.cfg.pixfmt c) := by
  unfold native
  cases s.cfg.pixfmt with
  | rgb565 => exact (fromRgb565 c).isLt
  | pal8 =>
    have hbyte := (Config.palFromRgb c.r c.g c.b).isLt
    simp only [fromRgb, PixFmt.bpp, BitVec.toNat_setWidth]
    omega

/-- What END or a setter can do: it keeps any property that these updates keep, and stops only in a fault entry. -/
theorem exec_sets {P : State → Prop} (hP : SetClosed P) {s : State} (h : P s) (i : Instr) (hpix : leavesPixels i = true)
    (hout : emits i = false) : ∃ f, exec i s = finish (packetWords i) f ∧ Leaves P (Stopped P) f := by
  cases i <;> simp only [leavesPixels, emits, Bool.false_eq_true, Bool.true_eq_false] at hpix hout
  case endRun => exact ⟨.ok _, rfl, hP.atHalt s h⟩
  case setfg c =>
    exact ⟨_, rfl, leaves_andThen (leaves_checkColor h c) fun a ⟨ha, hc⟩ => ha ▸ hP.atSetFg s c h hc⟩
  case setbg c =>
    exact ⟨_, rfl, leaves_andThen (leaves_checkColor h c) fun a ⟨ha, hc⟩ => ha ▸ hP.atSetBg s c h hc⟩
  case setfgrgb r g b => exact ⟨.ok _, rfl, hP.atSetFg s _ h (native_fromRgb s _)⟩
  case setbgrgb r g b => exact ⟨.ok _, rfl, hP.atSetBg s _ h (native_fromRgb s _)⟩
  case setfont w k base =>
    refine ⟨_, rfl, ?_⟩
    split
    · exact hP.atSetFont s w k base h ‹_›
    · exact leaves_raise h trivial

/-! ## Every command -/

/-- A property that every update of a command's own rule keeps is kept by every command, up to its end: it holds of the state
that a completed command leaves before CP moves, and of the state in which a fault was taken. -/
theorem exec_leaves {P : State → Prop} (hwrite : WriteClosed P) (hemit : EmitClosed P) (hset : SetClosed P) {s : State}
    (h : P s) (i : Instr) : ∃ f, exec i s = finish (packetWords i) f ∧ Leaves P (Stopped P) f := by
  cases hpix : leavesPixels i with
  | false => exact exec_draws hwrite h i hpix
  | true =>
    cases hout : emits i with
    | true => exact exec_emits hemit h i hout
    | false => exact exec_sets hset h i hpix hout

/-- The launch parameters are `c`. -/
def HasLaunch (c : Launch) (s : State) : Prop := s.cfg = c

theorem writeClosed_hasLaunch (c : Launch) : WriteClosed (HasLaunch c) := fun _ _ _ _ h _ _ => h

theorem emitClosed_hasLaunch (c : Launch) : EmitClosed (HasLaunch c) := fun _ _ h => h

theorem setClosed_hasLaunch (c : Launch) : SetClosed (HasLaunch c) where
  atHalt _ h := h
  atSetFg _ _ h _ := h
  atSetBg _ _ h _ := h
  atSetFont _ _ _ _ h _ := h

/-- No command changes a launch parameter, whether it completes or faults. -/
theorem exec_cfg {i : Instr} {s t : State} (h : exec i s = .next t) : t.cfg = s.cfg := by
  obtain ⟨f, hf, hleaves⟩ := exec_leaves (writeClosed_hasLaunch s.cfg) (emitClosed_hasLaunch s.cfg)
    (setClosed_hasLaunch s.cfg) rfl i
  rw [hf] at h
  obtain ⟨u, rfl, hend⟩ | ⟨e, rfl, hend⟩ := finish_cases (packetWords i) f
  · obtain rfl := Host.Outcome.next.inj (hend.symm.trans h)
    exact hleaves
  · obtain rfl := Host.Outcome.next.inj (hend.symm.trans h)
    obtain ⟨u, c, x, y, info, hu, _, _, rfl⟩ := hleaves
    exact hu

/-- Taking the fault of a missing command changes no launch parameter (R206). -/
@[simp] theorem takeReject_cfg (r : Reject) (s : State) : (takeReject r s).cfg = s.cfg := by
  obtain ⟨c, info, _, heq⟩ := takeReject_eq r s
  rw [heq, takeFault_cfg]

/-- Settles O18: a step runs a command or takes the fault of a missing one, and neither changes a launch parameter. -/
theorem launchParametersNeverChange : Obligations.LaunchParametersNeverChange := by
  intro s t h
  obtain ⟨_, _, ⟨i, _, hexec⟩ | ⟨r, _, rfl⟩⟩ := step_cases h
  · exact exec_cfg hexec
  · exact takeReject_cfg r s

/-! ## The launch check -/

/-- The check of the launch parameters is the four ranges of R5. -/
theorem launchOk_iff (c : Launch) : launchOk c = true ↔
    1 ≤ c.width ∧ c.width ≤ 32767 ∧ 1 ≤ c.height ∧ c.height ≤ 32767 ∧ c.cmd.length < 2 ^ 32 ∧ c.fontLen ≤ 2 ^ 32 := by
  simp only [launchOk, hasWords_eq, Bool.and_eq_true, Bool.not_eq_true', decide_eq_true_eq, decide_eq_false_iff_not, not_le, and_assoc]
  rfl

/-- A running engine with legal launch parameters answers a next state: it runs the command at CP or takes a fault (R81). -/
theorem step_answers_of_running {s : State} (h : Running s) : ∃ t, step s = .next t := by
  obtain ⟨hrun, hok⟩ := h
  cases hfetch : fetch s with
  | ok i =>
    obtain ⟨t, ht⟩ := exec_answers i s
    exact ⟨t, by simp [step, hrun, hok, hfetch, ht]⟩
  | error r => exact ⟨takeReject r s, by simp [step, hrun, hok, hfetch]⟩

/-- A running engine's step is refused exactly when the check of the launch parameters fails. -/
theorem step_refused_iff {s : State} (hrun : s.runState = .run) :
    step s = .refused .launchOutOfDomain ↔ ¬ launchOk s.cfg = true := by
  constructor
  · intro hrefused hok
    obtain ⟨t, ht⟩ := step_answers_of_running ⟨hrun, hok⟩
    rw [ht] at hrefused
    cases hrefused
  · intro hbad
    simp [step, hrun, hbad]

/-- Settles O9: the step is refused by the launch check, which is the four ranges of R5. -/
theorem launchOutOfRangeIsRefused : Obligations.LaunchOutOfRangeIsRefused := fun s hrun =>
  (step_refused_iff hrun).trans (not_congr (launchOk_iff s.cfg))

end Sys2Proof.Machine
end

section
/-! PROOFS. What a command changes and what it leaves alone; reset; and the invariant that every step keeps (spec 10_state.md
R21 to R31, 20_memory.md R50, R59, 60_exceptions.md R202, R206). -/

namespace Sys2Proof.Machine

/-! ## Reset and the stopped engine -/

/-- Settles O8: the step rule looks at STATE first (R27). -/
theorem stoppedEngineTakesNoStep : Obligations.StoppedEngineTakesNoStep := fun s =>
  ⟨fun hhalt => by simp [step, hhalt], fun hfault => by simp [step, hfault]⟩

/-- Settles O10: each listed value is a field of the released state, and that state is what a reset leaves. -/
theorem resetLeavesTheListedValues : Obligations.ResetLeavesTheListedValues :=
  ⟨fun _ _ => ⟨rfl, rfl, rfl, rfl, rfl, rfl, rfl, rfl, rfl, rfl, rfl, rfl, rfl⟩, fun _ => rfl⟩

/-- The invariant of a released state asks only for legal launch parameters and a legal pixel store: the other clauses speak of
valid bits that are 0, of CP and the fault registers at 0, and of an empty OUT (R31). -/
theorem inv_released {lp : Launch} {fb0 : Memory 16} (hlaunch : launchOk lp = true) (hwf : fb0.wf = true)
    (hinside : ∀ a, lp.width * lp.height ≤ a → fb0.read a = 0) (hnative : ∀ a, (fb0.read a).toNat < 2 ^ lp.pixfmt.bpp) :
    Inv (State.released lp fb0) where
  launch := hlaunch
  fbCanonical := hwf
  fbInside := hinside
  fbNative := hnative
  fgNative := nofun
  bgNative := nofun
  fontLegal := nofun
  cpInside := Nat.zero_le _
  clear _ := ⟨rfl, rfl, rfl, rfl⟩
  recorded := nofun
  outCounted _ := rfl

theorem launchOk_initial : launchOk Launch.initial = true :=
  (launchOk_iff Launch.initial).2 (by decide)

/-- Settles O11: `State.reset` is the released state of the initial launch parameters with every pixel 0. -/
theorem releasedStateMeetsTheInvariant : Obligations.ReleasedStateMeetsTheInvariant :=
  ⟨fun _ _ => inv_released, inv_released launchOk_initial rfl (fun _ _ => rfl) fun _ => Nat.two_pow_pos _⟩

/-! ## What a command changes -/

/-- `u` is `s` but for pixels and output, and but for those only as far as command `i` makes such accesses; OUT has grown.
These are the traces that a command can leave before it stops at a fault (R203). -/
inductive Touched (i : Instr) (s : State) : State → Prop where
  | intro (fb : Memory 16) (out : List Word) (outCount : BitVec 32) (hpixels : leavesPixels i = true → fb = s.fb)
      (hgrown : s.out <+: out) (hsilent : emits i = false → out = s.out ∧ outCount = s.outCount) :
      Touched i s { s with fb := fb, out := out, outCount := outCount }

/-- `u` is what command `i` can make of `s` when it completes, before CP moves: pixels and output touched, or the one register
group that `i` writes. -/
inductive Updated (i : Instr) (s : State) : State → Prop where
  /-- Drawing and emitting commands. -/
  | touched {u : State} (h : Touched i s u) : Updated i s u
  /-- END (R110). -/
  | halted (hi : i = .endRun) : Updated i s (halt s)
  /-- SETFG and SETFGRGB (R111, R116). -/
  | setFg (c : Pixel) (hi : setsForeground i = true) : Updated i s (setFg c s)
  /-- SETBG and SETBGRGB (R112, R117). -/
  | setBg (c : Pixel) (hi : setsBackground i = true) : Updated i s (setBg c s)
  /-- SETFONT (R118). -/
  | setFont (w : BitVec 5) (h : BitVec 8) (b : BitVec 32) (hi : setsFont i = true) : Updated i s (setFont w h b s)

theorem Touched.refl (i : Instr) (s : State) : Touched i s s :=
  .intro s.fb s.out s.outCount (fun _ => rfl) (List.prefix_refl _) fun _ => ⟨rfl, rfl⟩

theorem writeClosed_touched {i : Instr} (hi : leavesPixels i = false) (s : State) : WriteClosed (Touched i s) := by
  rintro _ x y c ⟨fb, out, n, _, hgrown, hsilent⟩ _ _
  exact .intro _ out n (by simp [hi]) hgrown hsilent

theorem emitClosed_touched {i : Instr} (hi : emits i = true) (s : State) : EmitClosed (Touched i s) := by
  rintro _ v ⟨fb, out, n, hpixels, hgrown, _⟩
  exact .intro fb _ _ hpixels (hgrown.trans (List.prefix_append _ _)) (by simp [hi])

/-- END and each setter write their own register group and no other, or stop at a fault having touched nothing. (`exec_sets` asks
a property that every setter keeps; here each command answers for its own update alone.) -/
theorem exec_sets_own (s : State) (i : Instr) (hpix : leavesPixels i = true) (hout : emits i = false) :
    ∃ f, exec i s = finish (packetWords i) f ∧ Leaves (Updated i s) (Stopped (Touched i s)) f := by
  have hs := Touched.refl i s
  cases i <;> simp only [leavesPixels, emits, Bool.false_eq_true, Bool.true_eq_false] at hpix hout
  case endRun => exact ⟨.ok _, rfl, .halted rfl⟩
  case setfg c => exact ⟨_, rfl, leaves_andThen (leaves_checkColor hs c) fun a ⟨ha, _⟩ => ha ▸ .setFg c rfl⟩
  case setbg c => exact ⟨_, rfl, leaves_andThen (leaves_checkColor hs c) fun a ⟨ha, _⟩ => ha ▸ .setBg c rfl⟩
  case setfgrgb r g b => exact ⟨.ok _, rfl, .setFg _ rfl⟩
  case setbgrgb r g b => exact ⟨.ok _, rfl, .setBg _ rfl⟩
  case setfont w k base =>
    refine ⟨_, rfl, ?_⟩
    split
    · exact .setFont _ _ base rfl
    · exact leaves_raise hs trivial

/-- What any command can do: complete with the updates that are its own, or stop in a fault entry that only pixels and output
precede. -/
theorem exec_updates (i : Instr) (s : State) :
    ∃ f, exec i s = finish (packetWords i) f ∧ Leaves (Updated i s) (Stopped (Touched i s)) f := by
  have hs := Touched.refl i s
  cases hpix : leavesPixels i with
  | false =>
    obtain ⟨f, hf, hleaves⟩ := exec_draws (writeClosed_touched hpix s) hs i hpix
    exact ⟨f, hf, hleaves.mono (fun _ => .touched) fun _ => id⟩
  | true =>
    cases hout : emits i with
    | true =>
      obtain ⟨f, hf, hleaves⟩ := exec_emits (emitClosed_touched hout s) hs i hout
      exact ⟨f, hf, hleaves.mono (fun _ => .touched) fun _ => id⟩
    | false => exact exec_sets_own s i hpix hout

/-- What the end of a step makes of a command: CP moves after a command that completes, and nothing changes after a fault. -/
theorem ends_of_leaves {R E : State → Prop} {i : Instr} {s t : State}
    (hf : ∃ f, exec i s = finish (packetWords i) f ∧ Leaves R E f) (h : exec i s = .next t) :
    (∃ u, R u ∧ t = { u with cp := u.cp + BitVec.ofNat 32 (packetWords i) }) ∨ E t := by
  obtain ⟨f, hexec, hleaves⟩ := hf
  rw [hexec] at h
  obtain ⟨u, rfl, hend⟩ | ⟨e, rfl, hend⟩ := finish_cases (packetWords i) f
  · exact .inl ⟨u, hleaves, Host.Outcome.next.inj (h.symm.trans hend)⟩
  · obtain rfl := Host.Outcome.next.inj (hend.symm.trans h)
    exact .inr hleaves

/-- The state after a command: its own updates with CP advanced, or a fault entry. -/
theorem exec_cases {i : Instr} {s t : State} (h : exec i s = .next t) :
    (∃ u, Updated i s u ∧ t = { u with cp := u.cp + BitVec.ofNat 32 (packetWords i) }) ∨ Stopped (Touched i s) t :=
  ends_of_leaves (exec_updates i s) h

section
variable {i : Instr} {s u : State}

theorem Updated.cp_eq (h : Updated i s u) : u.cp = s.cp := by
  cases h with
  | touched h => cases h; rfl
  | _ => rfl

theorem Updated.runState_eq (h : Updated i s u) (hi : i ≠ .endRun) : u.runState = s.runState := by
  cases h with
  | touched h => cases h; rfl
  | halted he => exact absurd he hi
  | _ => rfl

/-- Only a fault entry makes STATE = FAULT (R206). -/
theorem Updated.runState_ne_fault (h : Updated i s u) (hs : s.runState ≠ .fault) : u.runState ≠ .fault := by
  cases h with
  | touched h => cases h; exact hs
  | halted => exact nofun
  | _ => exact hs

/-- Only a fault entry writes the fault registers (R28). -/
theorem Updated.faultRegisters_eq (h : Updated i s u) :
    u.cause = s.cause ∧ u.faultX = s.faultX ∧ u.faultY = s.faultY ∧ u.faultInfo = s.faultInfo := by
  cases h with
  | touched h => cases h; exact ⟨rfl, rfl, rfl, rfl⟩
  | _ => exact ⟨rfl, rfl, rfl, rfl⟩

theorem Updated.foreground_eq (h : Updated i s u) (hi : setsForeground i = false) : u.fg = s.fg ∧ u.fgV = s.fgV := by
  cases h with
  | touched h => cases h; exact ⟨rfl, rfl⟩
  | setFg c hset => simp [hi] at hset
  | _ => exact ⟨rfl, rfl⟩

theorem Updated.background_eq (h : Updated i s u) (hi : setsBackground i = false) : u.bg = s.bg ∧ u.bgV = s.bgV := by
  cases h with
  | touched h => cases h; exact ⟨rfl, rfl⟩
  | setBg c hset => simp [hi] at hset
  | _ => exact ⟨rfl, rfl⟩

theorem Updated.font_eq (h : Updated i s u) (hi : setsFont i = false) :
    u.fontW = s.fontW ∧ u.fontH = s.fontH ∧ u.fontBase = s.fontBase ∧ u.fontV = s.fontV := by
  cases h with
  | touched h => cases h; exact ⟨rfl, rfl, rfl, rfl⟩
  | setFont _ _ _ hset => simp [hi] at hset
  | _ => exact ⟨rfl, rfl, rfl, rfl⟩

/-- No rule clears a valid bit (R24, R25, R26). -/
theorem Updated.validBits_mono (h : Updated i s u) :
    (s.fgV = true → u.fgV = true) ∧ (s.bgV = true → u.bgV = true) ∧ (s.fontV = true → u.fontV = true) := by
  cases h with
  | touched h => cases h; exact ⟨id, id, id⟩
  | halted => exact ⟨id, id, id⟩
  | setFg => exact ⟨fun _ => rfl, id, id⟩
  | setBg => exact ⟨id, fun _ => rfl, id⟩
  | setFont => exact ⟨id, id, fun _ => rfl⟩

theorem Updated.output (h : Updated i s u) :
    s.out <+: u.out ∧ (emits i = false → u.out = s.out ∧ u.outCount = s.outCount) := by
  cases h with
  | touched h => obtain ⟨_, _, _, _, hgrown, hsilent⟩ := h; exact ⟨hgrown, hsilent⟩
  | _ => exact ⟨List.prefix_refl _, fun _ => ⟨rfl, rfl⟩⟩

end

/-- The registers and OUT that neither a fault entry nor the advance of CP writes: they are those of the command's own updates. -/
theorem exec_updated {i : Instr} {s t : State} (h : exec i s = .next t) :
    ∃ u, Updated i s u ∧
      (t = { u with cp := u.cp + BitVec.ofNat 32 (packetWords i) } ∨ ∃ c x y info, t = takeFault c x y info u) := by
  obtain ⟨u, hu, ht⟩ | ⟨u, c, x, y, info, hu, _, _, ht⟩ := exec_cases h
  · exact ⟨u, hu, .inl ht⟩
  · exact ⟨u, .touched hu, .inr ⟨c, x, y, info, ht⟩⟩

/-- Settles O16: the colours and the font come from the command's own updates, whether it completes or faults. -/
theorem drawStateChangesOnlyBySetters : Obligations.DrawStateChangesOnlyBySetters := by
  intro i s t h
  obtain ⟨u, hu, rfl | ⟨c, x, y, info, rfl⟩⟩ := exec_updated h <;>
    exact ⟨hu.foreground_eq, hu.background_eq, hu.font_eq, hu.validBits_mono⟩

/-- Settles O17: OUT and OUT_COUNT come from the command's own updates, whether it completes or faults. -/
theorem outputOnlyGrows : Obligations.OutputOnlyGrows := by
  intro i s t h
  obtain ⟨u, hu, rfl | ⟨c, x, y, info, rfl⟩⟩ := exec_updated h <;> exact hu.output

/-! ## STATE and CP after a command -/

/-- The packet of a well-formed command has as many words as CP advances by (R85). -/
theorem length_encode {i : Instr} (h : i.wf = true) : (encode i).length = packetWords i := by
  cases i with
  | poly vs => exact (Laws.EncodedHeader.poly vs h).1
  | fpoly vs => exact (Laws.EncodedHeader.fpoly vs h).1
  | glyph p d => exact (Laws.EncodedHeader.glyph p d h).1
  | stringL p d => exact (Laws.EncodedHeader.stringL p d h).1
  | stringC p d => exact (Laws.EncodedHeader.stringC p d h).1
  | stringR p d => exact (Laws.EncodedHeader.stringR p d h).1
  | blitDn p w k l => exact (Laws.EncodedHeader.blitDn p w k l h).1
  | blitUp p w k l => exact (Laws.EncodedHeader.blitUp p w k l h).1
  | _ => rfl

/-- CP keeps its value on a fault and moves by the packet's length otherwise (R81 line 12, R206). -/
theorem exec_cp {i : Instr} {s t : State} (hs : s.runState ≠ .fault) (h : exec i s = .next t) :
    (t.runState = .fault ∧ t.cp = s.cp) ∨ (t.runState ≠ .fault ∧ t.cp = s.cp + BitVec.ofNat 32 (packetWords i)) := by
  obtain ⟨u, hu, rfl⟩ | ⟨u, c, x, y, info, hu, _, _, rfl⟩ := exec_cases h
  · exact .inr ⟨hu.runState_ne_fault hs, congrArg (· + _) hu.cp_eq⟩
  · exact .inl ⟨rfl, (Updated.touched hu).cp_eq⟩

/-- Settles O13: every command answers, and CP moves by the length of its encoding unless it faults. -/
theorem commandPointerAdvancesOrStays : Obligations.CommandPointerAdvancesOrStays := by
  intro i s hwf hrun
  obtain ⟨t, ht⟩ := exec_answers i s
  rw [length_encode hwf]
  exact ⟨t, ht, exec_cp (by simp [hrun]) ht⟩

/-- A command other than END leaves STATE at RUN or takes a fault. -/
theorem exec_runState_ne_halt {i : Instr} {s t : State} (hs : s.runState = .run) (hi : i ≠ .endRun)
    (h : exec i s = .next t) : t.runState ≠ .halt := by
  obtain ⟨u, hu, rfl⟩ | ⟨u, c, x, y, info, _, _, _, rfl⟩ := exec_cases h
  · simp [hu.runState_eq hi, hs]
  · simp

/-- Without a fault the fault registers keep their values (R28). -/
theorem exec_faultRegisters {i : Instr} {s t : State} (h : exec i s = .next t) (ht : t.runState ≠ .fault) :
    t.cause = s.cause ∧ t.faultX = s.faultX ∧ t.faultY = s.faultY ∧ t.faultInfo = s.faultInfo := by
  obtain ⟨u, hu, rfl⟩ | ⟨u, c, x, y, info, _, _, _, rfl⟩ := exec_cases h
  · exact hu.faultRegisters_eq
  · exact absurd rfl ht

/-- Settles O15: END's own update is the only one that writes HALT. -/
theorem onlyEndHalts : Obligations.OnlyEndHalts := by
  intro i s t hrun h
  refine ⟨⟨fun hhalt => ?_, ?_⟩, exec_faultRegisters h⟩
  · by_contra hi
    exact exec_runState_ne_halt hrun hi h hhalt
  · rintro rfl
    obtain rfl := Host.Outcome.next.inj h
    rfl

/-! ## The packet of a decoded command lies inside CMD -/

theorem ceil4_mono {m n : Nat} (h : m ≤ n) : ceil4 m ≤ ceil4 n := Nat.div_le_div_right (Nat.add_le_add_right h 3)

theorem length_byteRun_le (n : Nat) (ks : List Word) : (byteRun n ks).length ≤ n := List.length_take_le _ _

theorem length_pointRun_le (n : Nat) (ks : List Word) : (pointRun n ks).length ≤ n := by
  rw [pointRun, List.length_map]
  exact List.length_take_le _ _

/-- CP advances by no more than the packet length that the decoder has checked (R81 lines 9 to 12). -/
theorem packetWords_build_le (op : Opcode) (h : Word) (ks : List Word) :
    packetWords (build op h ks) ≤ packetLen op (nField h) ks := by
  have hbytes : 2 + ceil4 (byteRun (nField h).toNat (ks.drop 1)).length ≤ 2 + ceil4 (nField h).toNat :=
    Nat.add_le_add_left (ceil4_mono (length_byteRun_le _ _)) 2
  have hpoints : 1 + (pointRun (nField h).toNat ks).length ≤ 1 + (nField h).toNat :=
    Nat.add_le_add_left (length_pointRun_le _ _) 1
  cases op with
  | poly | fpoly => exact hpoints
  | glyph => exact hbytes
  | string => simp only [build]; split <;> exact hbytes
  | blit | readback => simp only [build]; split <;> exact Nat.le_refl _
  | _ => exact Nat.le_refl _

/-- The packet of a command that the engine fetches ends inside CMD (R21, R81). -/
theorem fetch_packet_inside {s : State} {i : Instr} (h : fetch s = .ok i) :
    s.cp.toNat + packetWords i ≤ s.cfg.cmd.length := by
  obtain ⟨w, ks, op, hws, _, _, _, _, hlen, rfl⟩ := decode_inv h
  have hle := packetWords_build_le op w ks
  have hdrop : s.cfg.cmd.length - s.cp.toNat = ks.length + 1 := by
    rw [← List.length_drop, ← List.length_cons (a := w), ← hws]
    rfl
  omega

/-! ## The invariant -/

/-- A command with a packet of `len` words is on its way: the invariant holds, no fault has been taken, and the packet, at whose
header CP still stands, ends inside CMD. -/
def OnItsWay (len : Nat) (s : State) : Prop :=
  Inv s ∧ s.runState ≠ .fault ∧ s.cp.toNat + len ≤ s.cfg.cmd.length

/-- A native pixel written at a position on the surface keeps the invariant (R50, R55). -/
theorem inv_writeFb {s : State} {x y : Int} {c : Pixel} (h : Inv s) (hxy : inSurface s x y = true) (hc : native s c) :
    Inv (writeFb (pixIndex s x y) c s) :=
  { h with
    fbCanonical := Memory.wf_write _ _ _ h.fbCanonical
    fbInside := fun a ha => by
      have hlt := pixIndex_lt s x y hxy
      have hne : a ≠ pixIndex s x y := by
        rintro rfl
        exact absurd ha (Nat.not_le_of_lt hlt)
      simpa [readFb, Memory.read_write _ _ _ _ h.fbCanonical, hne] using h.fbInside a ha
    fbNative := fun a => by
      simp only [readFb, writeFb_fb, Memory.read_write _ _ _ _ h.fbCanonical]
      split
      · exact hc
      · exact h.fbNative a }

/-- Every value that a command may write is native: FG and BG are, once they are valid (R24, R25). -/
theorem writeClosed_onItsWay (len : Nat) : WriteClosed (OnItsWay len) := by
  rintro s x y c ⟨hinv, hgoing⟩ hxy hc
  refine ⟨inv_writeFb hinv hxy ?_, hgoing⟩
  obtain hc | ⟨hv, rfl⟩ | ⟨hv, rfl⟩ := hc
  · exact hc
  · exact hinv.fgNative hv
  · exact hinv.bgNative hv

/-- One more word in OUT is one more in OUT_COUNT, as long as that fits its 32 bits (R29, R59). -/
theorem inv_emit {s : State} (v : Word) (h : Inv s) : Inv (emit v s) :=
  { h with
    outCounted := fun hlt => by
      simp only [emit_out, List.length_append, List.length_singleton] at hlt
      have hcount := h.outCounted (by omega)
      have hfits : s.outCount.toNat + 1 < 2 ^ 32 := by omega
      simp only [emit_outCount, nextOutCount, hfits, if_true, emit_out, List.length_append, List.length_singleton]
      rw [BitVec.toNat_add_of_lt (by simpa using hfits), hcount]
      rfl }

theorem emitClosed_onItsWay (len : Nat) : EmitClosed (OnItsWay len) := fun _ v ⟨hinv, hgoing⟩ => ⟨inv_emit v hinv, hgoing⟩

/-- A font of a legal size is legal in the narrower font registers (R26, R118). -/
theorem fontLegal_of_sizeOk {w h : Half} (hok : fontSizeOk w h = true) :
    1 ≤ (w.setWidth 5).toNat ∧ (w.setWidth 5).toNat ≤ 24 ∧ 1 ≤ (h.setWidth 8).toNat := by
  simp only [fontSizeOk, Bool.and_eq_true, decide_eq_true_eq] at hok
  simp only [BitVec.toNat_setWidth]
  omega

theorem setClosed_onItsWay (len : Nat) : SetClosed (OnItsWay len) where
  atHalt _ := fun ⟨hinv, hrun, hlen⟩ => ⟨{ hinv with clear := fun _ => hinv.clear hrun, recorded := nofun }, nofun, hlen⟩
  atSetFg _ _ := fun ⟨hinv, hgoing⟩ hc => ⟨{ hinv with fgNative := fun _ => hc }, hgoing⟩
  atSetBg _ _ := fun ⟨hinv, hgoing⟩ hc => ⟨{ hinv with bgNative := fun _ => hc }, hgoing⟩
  atSetFont _ _ _ _ := fun ⟨hinv, hgoing⟩ hok => ⟨{ hinv with fontLegal := fun _ => fontLegal_of_sizeOk hok }, hgoing⟩

/-- A fault entry with the information that R202 allows keeps the invariant: a command's own fault, or the step rule's E_FETCH. -/
theorem inv_takeFault {s : State} {c : Cause} {x y : Int} {info : Nat} (h : Inv s)
    (hinfo : InfoOk c info ∨ (c = .fetch ∧ info = s.cfg.cmd.length)) (hxy : c ≠ .range → x = 0 ∧ y = 0) :
    Inv (takeFault c x y info s) :=
  { h with
    clear := fun hne => absurd rfl hne
    recorded := fun _ => by
      have hpos : c ≠ .range → BitVec.ofInt 32 x = 0 ∧ BitVec.ofInt 32 y = 0 := fun hc => by
        obtain ⟨rfl, rfl⟩ := hxy hc
        exact ⟨rfl, rfl⟩
      obtain hown | ⟨rfl, rfl⟩ := hinfo
      · refine ⟨by rintro rfl; exact hown, hpos, ?_, ?_, by rintro rfl; exact hown.elim⟩
        · rintro (rfl | rfl) <;> exact congrArg (BitVec.ofNat 32) hown
        · rintro rfl
          exact hown.imp (congrArg (BitVec.ofNat 32)) (congrArg (BitVec.ofNat 32))
      · obtain ⟨_, _, _, _, hlen, _⟩ := (launchOk_iff s.cfg).1 h.launch
        exact ⟨nofun, hpos, nofun, nofun, fun _ => Nat.mod_eq_of_lt hlen⟩ }

/-- A step that finds no command records CMD_LEN for E_FETCH and the header for E_ILLEGAL (R81, R202). -/
theorem inv_takeReject {s : State} (r : Reject) (h : Inv s) : Inv (takeReject r s) := by
  cases r with
  | noHeader | shortFixed | shortPacket => exact inv_takeFault h (.inr ⟨rfl, rfl⟩) fun _ => ⟨rfl, rfl⟩
  | unknownOpcode w | noReadPath w | reservedField w => exact inv_takeFault h (.inl trivial) fun _ => ⟨rfl, rfl⟩

/-- The advance of CP keeps the invariant when it ends inside CMD (R21). -/
theorem inv_advance {s : State} {len : Nat} (h : Inv s) (hlen : s.cp.toNat + len ≤ s.cfg.cmd.length) :
    Inv { s with cp := s.cp + BitVec.ofNat 32 len } :=
  { h with
    cpInside := by
      simp only [BitVec.toNat_add, BitVec.toNat_ofNat, Nat.add_mod_mod]
      exact (Nat.mod_le _ _).trans hlen }

/-- A command whose packet ends inside CMD keeps the invariant, whether it completes or faults. -/
theorem inv_exec {i : Instr} {s t : State} (hinv : Inv s) (hrun : s.runState = .run)
    (hlen : s.cp.toNat + packetWords i ≤ s.cfg.cmd.length) (h : exec i s = .next t) : Inv t := by
  have hs : OnItsWay (packetWords i) s := ⟨hinv, by simp [hrun], hlen⟩
  obtain ⟨u, ⟨hu, _, hinside⟩, rfl⟩ | ⟨u, c, x, y, info, ⟨hu, _⟩, hinfo, hxy, rfl⟩ := ends_of_leaves
    (exec_leaves (writeClosed_onItsWay _) (emitClosed_onItsWay _) (setClosed_onItsWay _) hs i) h
  · exact inv_advance hu hinside
  · exact inv_takeFault hu (.inl hinfo) hxy

/-- Settles O12: a step runs a command whose packet is inside CMD, or takes the fault of a missing one. -/
theorem everyStepKeepsTheInvariant : Obligations.EveryStepKeepsTheInvariant := by
  intro s t hinv h
  obtain ⟨hrun, _, ⟨i, hfetch, hexec⟩ | ⟨r, _, rfl⟩⟩ := step_cases h
  · exact inv_exec hinv hrun (fetch_packet_inside hfetch) hexec
  · exact inv_takeReject r hinv

end Sys2Proof.Machine
end

section
/-! PROOFS. The pixel surface: no command writes outside it; and the commands that draw in FG stop at their first Plot call when FG is
unset, and at the first one outside the surface when it is set (spec 20_memory.md R50 to R58, 60_exceptions.md R202, R203). -/

namespace Sys2Proof.Machine

/-! ## The units outside the surface -/

/-- `t` has the launch parameters of `s` and a canonical pixel store that reads as that of `s` at every index of W*H or more (R50). -/
structure SameOutside (s t : State) : Prop where
  /-- The surface has the same size. -/
  cfg : t.cfg = s.cfg
  /-- The pixel store is in canonical form. -/
  canonical : t.fb.wf = true
  /-- The units beyond the surface. -/
  outside : ∀ a, pixelCount s ≤ a → readFb t a = readFb s a

/-- A write at a position on the surface is at an index below W*H (R51, R55). -/
theorem writeClosed_sameOutside (s : State) : WriteClosed (SameOutside s) := by
  intro t x y c ht hxy _
  refine ⟨ht.cfg, Memory.wf_write _ _ _ ht.canonical, fun a ha => ?_⟩
  have hlt : pixIndex t x y < pixelCount s := by
    simpa only [pixelCount, ht.cfg] using pixIndex_lt t x y hxy
  rw [readFb_writeFb t ht.canonical, if_neg (by omega)]
  exact ht.outside a ha

/-- The commands that draw leave every unit beyond the surface as it was, whether they complete or fault. -/
theorem exec_draws_sameOutside {i : Instr} {s t : State} (hwf : s.fb.wf = true) (hi : leavesPixels i = false)
    (h : exec i s = .next t) : SameOutside s t := by
  have hs : SameOutside s s := ⟨rfl, hwf, fun _ _ => rfl⟩
  obtain ⟨u, hu, rfl⟩ | ⟨u, c, x, y, info, hu, _, _, rfl⟩ :=
    ends_of_leaves (exec_draws (writeClosed_sameOutside s) hs i hi) h <;>
    exact ⟨hu.cfg, hu.canonical, hu.outside⟩

theorem Updated.fb_eq {i : Instr} {s u : State} (h : Updated i s u) (hi : leavesPixels i = true) : u.fb = s.fb := by
  cases h with
  | touched h => obtain ⟨_, _, _, hpixels, _, _⟩ := h; exact hpixels hi
  | _ => rfl

/-- The commands that make no write access leave the pixel store as it was, whether they complete or fault (R241). -/
theorem exec_fb_eq {i : Instr} {s t : State} (hi : leavesPixels i = true) (h : exec i s = .next t) : t.fb = s.fb := by
  obtain ⟨u, hu, rfl | ⟨c, x, y, info, rfl⟩⟩ := exec_updated h <;> exact hu.fb_eq hi

/-- Settles O19: a command either makes no write access or writes at positions on the surface alone. -/
theorem pixelsChangeOnlyOnTheSurface : Obligations.PixelsChangeOnlyOnTheSurface := by
  intro i s t hwf h
  refine ⟨fun a ha => ?_, fun hi => exec_fb_eq hi h⟩
  cases hi : leavesPixels i with
  | false => exact (exec_draws_sameOutside hwf hi h).outside a ha
  | true => rw [readFb, exec_fb_eq hi h, readFb]

/-! ## The Plot calls of a shape -/

/-- Only the commands that draw in FG alone have Plot calls in `plotOrder`. -/
theorem drawsForeground_of_plots {i : Instr} (h : plotOrder i ≠ []) : drawsForeground i = true := by
  cases hi : drawsForeground i with
  | true => rfl
  | false => cases i <;> simp only [drawsForeground, Bool.true_eq_false] at hi <;> exact absurd rfl h

/-- Scaling by two radii keeps an offset at 0 or above (R155). -/
theorem scaled_nonneg (rx ry : Half) (t : Int) (ht : 0 ≤ t) : 0 ≤ t * rx.toNat / ry.toNat :=
  Int.ediv_nonneg (mul_nonneg ht (Int.natCast_nonneg _)) (Int.natCast_nonneg _)

/-- The spans and the outline together cover the fill: the outline lies inside it (R152, R157). -/
theorem mem_fillOrder_append_strokeOrder (cx cy : Int) (r : Nat) (sc : Int → Int) (hsc : ∀ t, 0 ≤ t → 0 ≤ sc t) (x y : Int) :
    FillRegion cx cy r sc x y ↔ (x, y) ∈ fillOrder cx cy r sc ++ strokeOrder cx cy r sc := by
  rw [List.mem_append, ← mem_fillOrder _ _ _ _ hsc, ← mem_strokeOrder _ _ _ _ hsc]
  exact ⟨.inl, fun h => h.elim id fillRegion_of_stroke⟩

/-- The Plot calls of a command that draws in FG alone cover exactly its region (files 42 to 44). -/
theorem foregroundRegion_iff_mem_plotOrder (i : Instr) (x y : Int) : foregroundRegion i x y ↔ (x, y) ∈ plotOrder i := by
  cases i with
  | hline p n => exact (mem_runOrder _ _ _ (x, y)).symm
  | vline p n => exact (mem_columnOrder _ _ _ (x, y)).symm
  | line p q => exact mem_lineOrder _ _ _ _ x y
  | circle c r => exact mem_strokeOrder _ _ _ id (fun _ => id) x y
  | fcircle c r => exact mem_fillOrder_append_strokeOrder _ _ _ id (fun _ => id) x y
  | ellipse c rx ry =>
    rw [plotOrder, List.mem_ite_nil_left, not_or, and_assoc, ← mem_strokeOrder _ _ _ _ (scaled_nonneg rx ry)]
    rfl
  | fellipse c rx ry =>
    rw [plotOrder, List.mem_ite_nil_left, not_or, and_assoc, ← mem_fillOrder_append_strokeOrder _ _ _ _ (scaled_nonneg rx ry)]
    rfl
  | poly vs =>
    simp only [plotOrder, foregroundRegion, OutlineRegion, mem_lineOrder, List.mem_ite_nil_left, not_lt,
      List.mem_flatMap, List.mem_range]
  | fpoly vs =>
    simp only [plotOrder, foregroundRegion, FanRegion, mem_triangleOrder, List.mem_ite_nil_left, not_lt,
      List.mem_flatMap, List.mem_range]
    constructor
    · rintro ⟨m, hm, hfan⟩
      rwa [boxCentre_eq vs m hm]
    · intro hfan
      exact ⟨_, isBoxCentre_boxCentre vs (by rintro rfl; simp at hfan), hfan⟩
  | ftri p q r => exact mem_triangleOrder _ _ _ x y
  | _ => exact iff_of_false id List.not_mem_nil

/-! ## A shape whose first Plot call is made -/

theorem lineOrder_ne_nil (x1 y1 x2 y2 : Int) : lineOrder x1 y1 x2 y2 ≠ [] := by
  have hmajor : ∀ u1 v1 u2 v2, majorOrder u1 v1 u2 v2 ≠ [] := by
    intro u1 v1 u2 v2
    rw [majorOrder]
    split <;> simp [walkOrder]
  rw [lineOrder]
  split
  · exact hmajor _ _ _ _
  · simpa using hmajor y1 x1 y2 x2

/-- The octant generator makes at least one pair, and each has eight positions (R150, R153). -/
theorem strokeOrder_ne_nil (cx cy : Int) (r : Nat) (sc : Int → Int) : strokeOrder cx cy r sc ≠ [] := by
  simp [strokeOrder, octant, octantFrom]

/-- An edge that is not horizontal meets the scanline of its end at that end (R170). -/
theorem edgeMeets_start {p q : Pt} (h : p.2 ≠ q.2) : EdgeMeets p q p.2 p.1 := by
  obtain hlt | hgt := lt_or_gt_of_ne h
  · exact .inl ⟨hlt, le_refl _, hlt.le, by simp⟩
  · refine .inr ⟨hgt, hgt.le, le_refl _, ?_⟩
    rw [Int.mul_ediv_cancel _ (by omega)]
    ring

/-- A triangle contains its first vertex (R168). -/
theorem triangleRegion_vertex (a b c : Pt) : TriangleRegion a b c a.1 a.2 := by
  rw [TriangleRegion]
  split
  · exact ⟨rfl, by omega, by omega⟩
  · have hmeets : TriangleMeets a b c a.2 a.1 := by
      by_cases hab : a.2 = b.2
      · exact .inr (.inr (edgeMeets_start (by omega)))
      · exact .inl (edgeMeets_start hab)
    exact ⟨a.1, a.1, hmeets, hmeets, le_refl _, le_refl _⟩

theorem triangleOrder_ne_nil (a b c : Pt) : triangleOrder a b c ≠ [] :=
  List.ne_nil_of_mem ((mem_triangleOrder a b c _ _).1 (triangleRegion_vertex a b c))

/-- A loop over at least one item, each with at least one Plot call, makes one. -/
theorem flatMap_range_ne_nil {n : Nat} (hn : 0 < n) {f : Nat → List (Int × Int)} (hf : ∀ k, f k ≠ []) :
    (List.range n).flatMap f ≠ [] := fun h =>
  hf 0 (List.flatMap_eq_nil_iff.1 h 0 (List.mem_range.2 hn))

/-- Every command that starts by drawing in FG has a first Plot call (R215 lists the operands that have none). -/
theorem plotOrder_ne_nil {i : Instr} (h : startsInForeground i = true) : plotOrder i ≠ [] := by
  cases i <;> simp only [startsInForeground, Bool.false_eq_true, Bool.and_eq_true, decide_eq_true_eq] at h
  case hline p n => simpa [plotOrder, runOrder, ← BitVec.toNat_inj] using h
  case vline p n => simpa [plotOrder, columnOrder, ← BitVec.toNat_inj] using h
  case line p q => exact lineOrder_ne_nil _ _ _ _
  case circle c r => exact strokeOrder_ne_nil _ _ _ _
  case fcircle c r => exact List.append_ne_nil_of_right_ne_nil _ (strokeOrder_ne_nil _ _ _ _)
  case ellipse c rx ry =>
    rw [plotOrder, if_neg (by simpa using h)]
    exact strokeOrder_ne_nil _ _ _ _
  case fellipse c rx ry =>
    rw [plotOrder, if_neg (by simpa using h)]
    exact List.append_ne_nil_of_right_ne_nil _ (strokeOrder_ne_nil _ _ _ _)
  case poly vs =>
    rw [plotOrder, if_neg (by omega)]
    exact flatMap_range_ne_nil (by omega) fun _ => lineOrder_ne_nil _ _ _ _
  case fpoly vs =>
    rw [plotOrder, if_neg (by omega)]
    exact flatMap_range_ne_nil (by omega) fun _ => triangleOrder_ne_nil _ _ _
  case ftri p q r => exact triangleOrder_ne_nil _ _ _

/-- Settles O56: such a command has a first Plot call, and that one faults before it looks at the position (R57). -/
theorem unsetForegroundFaults : Obligations.UnsetForegroundFaults := by
  intro i s hi hfg
  have hne := plotOrder_ne_nil hi
  obtain ⟨p, l, hpl⟩ := List.exists_cons_of_ne_nil hne
  rw [exec_plots i s (drawsForeground_of_plots hne), hpl, forEach_plotFg_unset p l s hfg]
  rfl

/-! ## A shape that leaves the surface -/

/-- The first position of a list that is outside the surface, with those before it. -/
theorem exists_first_outside (s : State) {ps : List (Int × Int)} (h : ∃ p ∈ ps, inSurface s p.1 p.2 = false) :
    ∃ l m q, ps = l ++ q :: m ∧ (∀ p ∈ l, inSurface s p.1 p.2 = true) ∧ inSurface s q.1 q.2 = false := by
  obtain ⟨q, hq⟩ := Option.isSome_iff_exists.1
    ((List.find?_isSome (p := fun p : Int × Int => !inSurface s p.1 p.2)).2 (by simpa using h))
  obtain ⟨hout, l, m, hps, hl⟩ := List.find?_eq_some_iff_append.1 hq
  exact ⟨l, m, q, hps, by simpa using hl, by simpa using hout⟩

/-- Over a packet of no words CP keeps its value. -/
theorem finish_zero (s : State) : finish 0 (.ok s) = .next s := by
  simp only [finish, BitVec.add_zero]

/-- The positions on the surface that come before a fault hold FG, and nothing else changes: the state in which the fault is taken. -/
theorem painted_writes (s : State) (l : List (Int × Int)) (hwf : s.fb.wf = true) (hfg : s.fgV = true)
    (hl : ∀ p ∈ l, inSurface s p.1 p.2 = true) :
    Painted s (writes (l.map fun p => (pixIndex s p.1 p.2, s.fg)) s) 0 fun x y => (x, y) ∈ l := by
  obtain ⟨t, ht, hpainted⟩ := painted_of_points s 0 l hwf (fun _ _ => Iff.rfl) fun x y hxy => ⟨hfg, hl (x, y) hxy⟩
  rw [forEach_plotFg_ok l s fun p hp => ⟨hfg, hl p hp⟩, finish_zero] at ht
  obtain rfl := Host.Outcome.next.inj ht
  exact hpainted

/-- Settles O57: the Plot calls of the command are the points of its region, and the first of them outside the surface stops it. -/
theorem shapesFaultOffTheSurface : Obligations.ShapesFaultOffTheSurface := by
  refine ⟨foregroundRegion_iff_mem_plotOrder, fun i s hwf hfg ⟨x, y, hxy, hout⟩ => ?_⟩
  have hmem := (foregroundRegion_iff_mem_plotOrder i x y).1 hxy
  obtain ⟨l, m, q, hsplit, hl, hq⟩ := exists_first_outside s ⟨(x, y), hmem, hout⟩
  refine ⟨l, m, q, _, hsplit, hl, hq, ?_, painted_writes s l hwf hfg hl⟩
  rw [exec_plots i s (drawsForeground_of_plots (List.ne_nil_of_mem hmem)), hsplit, forEach_plotFg_range l m q s hfg hl hq]
  rfl

end Sys2Proof.Machine
end

section
/-! PROOFS. Decoder and encoder agree, and what a step does with a packet that they do not accept (spec 30_encoding.md R81 to R90, R102).
A packet is seen as its header and its operand words; the step rule's tests and `build` are then functions of the two. -/

namespace Sys2Proof.Machine
open Laws.EncodedHeader (opcode)

/-! ## The packet of a command: its header and its operand words -/

/-- The header word of a command's packet. -/
def headerOf (i : Instr) : Word := (encode i).headD 0

/-- The words of a command's packet after the header. -/
def operandsOf (i : Instr) : List Word := (encode i).tail

theorem encode_eq_cons (i : Instr) : encode i = headerOf i :: operandsOf i := by
  cases i <;> rfl

theorem length_operandsOf {i : Instr} (h : i.wf = true) : (operandsOf i).length + 1 = packetWords i := by
  rw [← length_encode h, encode_eq_cons i, List.length_cons]

theorem opField_headerOf (i : Instr) : opField (headerOf i) = opByte (opcode i) := by
  cases i with
  | setfgrgb | setbgrgb | fromrgb => exact opField_headerC ..
  | _ => exact opField_headerH ..

theorem opcodeOf_headerOf (i : Instr) : opcodeOf (opField (headerOf i)) = some (opcode i) := by
  rw [opField_headerOf, opcodeOf_opByte]

/-- The encoder's headers meet R89: it writes 0, or the modifier of a STRING, BLIT or READBACK, in every reserved field. -/
theorem reservedOk_headerOf (i : Instr) : reservedOk (opcode i) (headerOf i) = true := by
  cases i <;> simp [reservedOk, modifierOk, countFieldOk, headerOf, encode, opcode]

theorem readsSurface_eq_needsRead (i : Instr) : readsSurface i = needsRead (opcode i) := by
  cases i <;> rfl

theorem fixedLen_le_packetWords (i : Instr) : fixedLen (opcode i) ≤ packetWords i := by
  cases i with
  | poly | fpoly | glyph | stringL | stringC | stringR | blitDn | blitUp => exact Nat.le_add_right ..
  | _ => exact Nat.le_refl _

/-- The length that the header and the operands give is the packet's own (R85). -/
theorem packetLen_encode {i : Instr} (h : i.wf = true) :
    packetLen (opcode i) (nField (headerOf i)) (operandsOf i) = packetWords i := by
  cases i with
  | poly vs | fpoly vs =>
    simp [packetLen, opcode, headerOf, encode, packetWords, countField_toNat vs h]
  | glyph p d | stringL p d | stringC p d | stringR p d =>
    simp [packetLen, opcode, headerOf, encode, packetWords, countField_toNat d h]
  | blitDn p w k l | blitUp p w k l =>
    simp [packetLen, opcode, operandsOf, encode, packetWords, operand]
  | _ => rfl

/-- The length of a packet depends on no word beyond its fixed ones (R85). -/
theorem packetLen_congr {op : Opcode} {n : Half} {ks ls : List Word}
    (h : ks.take (fixedLen op - 1) = ls.take (fixedLen op - 1)) : packetLen op n ks = packetLen op n ls := by
  cases op with
  | blit =>
    have hsize : operand ks 1 = operand ls 1 := by
      have hget := congrArg (·[1]?) h
      simp only [fixedLen, Nat.reduceSub, List.getElem?_take_of_lt Nat.one_lt_two] at hget
      simp only [operand, List.getD_eq_getElem?_getD, hget]
    simp only [packetLen, hsize]
  | _ => rfl

/-- The command that `build` reads from a well-formed command's packet, whatever words follow it, is that command: each operand
sits in the field that `build` takes it from (R83, R86 to R88). -/
theorem build_encode {i : Instr} (rest : List Word) (h : i.wf = true) :
    build (opcode i) (headerOf i) (operandsOf i ++ rest) = i := by
  cases i with
  | poly vs | fpoly vs =>
    simp [build, opcode, headerOf, operandsOf, encode, countField_toNat vs h, pointRun_packPoints]
  | glyph p d | stringL p d | stringC p d | stringR p d =>
    simp [build, opcode, headerOf, operandsOf, encode, operand, countField_toNat d h, byteRun_packByteRun]
  | blitDn p w k l | blitUp p w k l =>
    have hl : l.length = w.toNat * k.toNat := of_decide_eq_true h
    simp [build, opcode, headerOf, operandsOf, encode, operand, ← hl, halfRun_packHalfRun]
  | _ => simp [build, opcode, headerOf, operandsOf, encode, operand]

/-! ## The decoder on a header that passes the checks of lines 1 to 5 -/

/-- With a header in the map, that may be run and has its reserved fields as required, the length of the list decides (R81 lines 6
to 10). -/
theorem decode_of_header {hr : Bool} {h : Word} {ks : List Word} {op : Opcode} (hop : opcodeOf (opField h) = some op)
    (hread : needsRead op = true → hr = true) (hres : reservedOk op h = true) :
    decode hr (h :: ks) =
      if ks.length + 1 < fixedLen op then .error .shortFixed
      else if ks.length + 1 < packetLen op (nField h) ks then .error .shortPacket
      else .ok (build op h ks) := by
  have hpath : (needsRead op && !hr) = false := by
    cases hn : needsRead op <;> simp_all
  simp [decode, hop, hpath, hres, hasWords_eq]

/-- Settles O1: the packet's header passes the checks, its length is the packet's, and `build` puts the operands back. -/
theorem decodeReadsBackEveryEncoding : Obligations.DecodeReadsBackEveryEncoding := by
  intro hr i rest hwf hread
  have hlen := length_operandsOf hwf
  have hfixed := fixedLen_le_packetWords i
  have hpacket : packetLen (opcode i) (nField (headerOf i)) (operandsOf i ++ rest) = packetWords i := by
    rw [← packetLen_encode hwf]
    exact packetLen_congr (List.take_append_of_le_length (by omega))
  rw [readsSurface_eq_needsRead] at hread
  rw [encode_eq_cons, List.cons_append,
    decode_ok (opcodeOf_headerOf i) hread (reservedOk_headerOf i) (by rw [List.length_append]; omega)
      (by rw [hpacket, List.length_append]; omega),
    build_encode rest hwf]

/-- For a well-formed command and a surface with a read path, the encoder's direction gives the decoder's. -/
theorem decode_of_encode {i : Instr} {ws : List Word} (h : encode i = ws ∧ i.wf = true) :
    encode i = ws ∧ decode true ws = .ok i := by
  obtain ⟨rfl, hwf⟩ := h
  exact ⟨rfl, by simpa using decodeReadsBackEveryEncoding true i [] hwf fun _ => rfl⟩

/-- Settles O3: the encoder's words are computed, and the decoder reads back what was encoded. -/
theorem workedEncodingsAgree : Obligations.WorkedEncodingsAgree := by
  intro e he
  refine decode_of_encode ?_
  revert e
  decide

/-! ## A list that ends inside a packet -/

/-- The reasons of lines 1, 7 and 10 of R81: the list ends too early. -/
def endsTooEarly : Reject → Bool
  | .noHeader => true
  | .shortFixed => true
  | .shortPacket => true
  | _ => false

theorem takeReject_of_endsTooEarly {r : Reject} (h : endsTooEarly r = true) (s : State) :
    takeReject r s = takeFault .fetch 0 0 s.cfg.cmd.length s := by
  cases r <;> first | rfl | cases h

/-- The decoder finds the end of the list when a packet is cut short: before the fixed words are complete, or, since these
alone give the packet's length, after them. -/
theorem decode_take_encode {hr : Bool} {i : Instr} {k : Nat} (hwf : i.wf = true) (hread : readsSurface i = true → hr = true)
    (hk : k < (encode i).length) : ∃ r, decode hr ((encode i).take k) = .error r ∧ endsTooEarly r = true := by
  rw [length_encode hwf] at hk
  rw [readsSurface_eq_needsRead] at hread
  cases k with
  | zero => exact ⟨.noHeader, rfl, rfl⟩
  | succ k =>
    have hlen : ((operandsOf i).take k).length = k :=
      List.length_take_of_le (by have := length_operandsOf hwf; omega)
    rw [encode_eq_cons, List.take_succ_cons,
      decode_of_header (opcodeOf_headerOf i) hread (reservedOk_headerOf i), hlen]
    by_cases hfixed : k + 1 < fixedLen (opcode i)
    · exact ⟨.shortFixed, if_pos hfixed, rfl⟩
    · have hpacket : packetLen (opcode i) (nField (headerOf i)) ((operandsOf i).take k) = packetWords i := by
        rw [← packetLen_encode hwf]
        exact packetLen_congr (by rw [List.take_take, Nat.min_eq_left (by omega)])
      exact ⟨.shortPacket, by rw [if_neg hfixed, hpacket, if_pos hk], rfl⟩

/-! ## The step of a running engine -/

theorem step_of_decode_ok {s : State} {i : Instr} (hs : Running s) (h : decode s.cfg.hasRead (fetchWords s) = .ok i) :
    step s = exec i s := by
  obtain ⟨hrun, hok⟩ := hs
  simp [step, hrun, hok, fetch, h]

theorem step_of_decode_error {s : State} {r : Reject} (hs : Running s)
    (h : decode s.cfg.hasRead (fetchWords s) = .error r) : step s = .next (takeReject r s) := by
  obtain ⟨hrun, hok⟩ := hs
  simp [step, hrun, hok, fetch, h]

/-- The words at CP start with the word of CMD that CP names. -/
theorem fetchWords_of_getElem? {s : State} {h : Word} (hcp : s.cfg.cmd[s.cp.toNat]? = some h) :
    ∃ ks, fetchWords s = h :: ks := by
  obtain ⟨hlt, rfl⟩ := List.getElem?_eq_some_iff.1 hcp
  exact ⟨_, List.drop_eq_getElem_cons hlt⟩

/-- Settles O6: the decoder answers one of the three reasons for which the step takes E_FETCH(CMD_LEN). -/
theorem cutPacketsRaiseFetch : Obligations.CutPacketsRaiseFetch := by
  intro s i k hs hwf hread hk hcut
  obtain ⟨r, hr, hshort⟩ := decode_take_encode hwf hread hk
  rw [step_of_decode_error hs (by rw [fetchWords, hcut, hr]), takeReject_of_endsTooEarly hshort]

/-! ## Headers that raise E_ILLEGAL -/

theorem opField_toNat (h : Word) : (opField h).toNat = h.toNat / 16777216 := by
  have := h.isLt
  rw [opField, byteOf_toNat]
  omega

theorem mField_toNat (h : Word) : (mField h).toNat = h.toNat / 65536 % 256 := byteOf_toNat h 2

theorem opByte_mem_assignedOpcodes (op : Opcode) : (opByte op).toNat ∈ assignedOpcodes := by
  cases op <;> decide

/-- The opcode map has exactly the numbers of R88. -/
theorem opcodeOf_isSome_iff (b : Byte) : (opcodeOf b).isSome = true ↔ b.toNat ∈ assignedOpcodes := by
  constructor
  · intro h
    obtain ⟨op, hop⟩ := Option.isSome_iff_exists.1 h
    rw [← opByte_of_opcodeOf b op hop]
    exact opByte_mem_assignedOpcodes op
  · have hall : ∀ k ∈ assignedOpcodes, (opcodeOf (BitVec.ofNat 8 k)).isSome = true := by decide
    intro h
    simpa using hall b.toNat h

theorem opcodeOf_of_toNat_eq {b : Byte} (op : Opcode) (h : b.toNat = (opByte op).toNat) : opcodeOf b = some op := by
  rw [BitVec.eq_of_toNat_eq h, opcodeOf_opByte]

/-- The reasons of lines 3, 4 and 5 of R81 raise E_ILLEGAL with the header. -/
def illegalHeader : Reject → Option Word
  | .unknownOpcode h => some h
  | .noReadPath h => some h
  | .reservedField h => some h
  | _ => none

theorem takeReject_of_illegalHeader {r : Reject} {h : Word} (hr : illegalHeader r = some h) (s : State) :
    takeReject r s = takeFault .illegal 0 0 h.toNat s := by
  cases r <;> cases hr <;> rfl

/-- A running engine raises E_ILLEGAL with the header at CP when the decoder refuses that header, whatever words follow it. -/
theorem step_of_illegal_header {s : State} {h : Word} (hs : Running s) (hcp : s.cfg.cmd[s.cp.toNat]? = some h)
    (hbad : ∀ ks, ∃ r, decode s.cfg.hasRead (h :: ks) = .error r ∧ illegalHeader r = some h) :
    step s = .next (takeFault .illegal 0 0 h.toNat s) := by
  obtain ⟨ks, hks⟩ := fetchWords_of_getElem? hcp
  obtain ⟨r, hr, hillegal⟩ := hbad ks
  rw [step_of_decode_error hs (by rw [hks, hr]), takeReject_of_illegalHeader hillegal]

theorem decode_of_unknown {hr : Bool} {h : Word} {ks : List Word} (hop : opcodeOf (opField h) = none) :
    decode hr (h :: ks) = .error (.unknownOpcode h) := by
  simp [decode, hop]

theorem decode_of_no_read_path {h : Word} {ks : List Word} {op : Opcode} (hop : opcodeOf (opField h) = some op)
    (hneeds : needsRead op = true) : decode false (h :: ks) = .error (.noReadPath h) := by
  simp [decode, hop, hneeds]

/-- A header that breaks R89 is refused by line 4 or line 5, before its operand words are looked for. -/
theorem decode_of_reserved {hr : Bool} {h : Word} {ks : List Word} {op : Opcode} (hop : opcodeOf (opField h) = some op)
    (hres : reservedOk op h = false) :
    ∃ r, decode hr (h :: ks) = .error r ∧ illegalHeader r = some h := by
  cases hpath : needsRead op && !hr with
  | true => exact ⟨.noReadPath h, by simp only [decode, hop, hpath, if_true], rfl⟩
  | false => exact ⟨.reservedField h, by simp [decode, hop, hpath, hres], rfl⟩

/-- The opcode numbers of the two commands that need a read path (R90). -/
theorem needsRead_of_number {h : Word} (hnum : h.toNat / 16777216 ∈ [0x11, 0x61]) :
    ∃ op, opcodeOf (opField h) = some op ∧ needsRead op = true := by
  simp only [List.mem_cons, List.not_mem_nil, or_false, ← opField_toNat] at hnum
  obtain hnum | hnum := hnum
  · exact ⟨.getpixel, opcodeOf_of_toNat_eq _ hnum, rfl⟩
  · exact ⟨.readback, opcodeOf_of_toNat_eq _ hnum, rfl⟩

/-- Settles O4: lines 3 and 4 of R81 look at the header alone. -/
theorem illegalOpcodesFault : Obligations.IllegalOpcodesFault := by
  intro s h hs hcp hillegal
  refine step_of_illegal_header hs hcp fun ks => ?_
  obtain hnot | ⟨hnum, hpath⟩ := hillegal
  · rw [← opField_toNat, ← opcodeOf_isSome_iff, Option.not_isSome_iff_eq_none] at hnot
    exact ⟨_, decode_of_unknown hnot, rfl⟩
  · obtain ⟨op, hop, hneeds⟩ := needsRead_of_number hnum
    rw [hpath]
    exact ⟨_, decode_of_no_read_path hop hneeds, rfl⟩

/-- A header that breaks a requirement of R89 has an opcode of the map. -/
theorem exists_opcode_of_breaksReserved {h : Word} (hb : BreaksReserved h) : ∃ op, opcodeOf (opField h) = some op := by
  rw [← Option.isSome_iff_exists, opcodeOf_isSome_iff, opField_toNat]
  simp only [BreaksReserved, assignedOpcodes, List.mem_cons, List.not_mem_nil, or_false] at hb ⊢
  omega

/-- The decoder's test of the reserved fields is R89's two lists. -/
theorem reservedOk_eq_false_iff {h : Word} {op : Opcode} (hop : opcodeOf (opField h) = some op) :
    reservedOk op h = false ↔ BreaksReserved h := by
  have hnum : h.toNat / 16777216 = (opByte op).toNat := by rw [← opField_toNat, opByte_of_opcodeOf _ _ hop]
  rw [BreaksReserved, hnum, ← mField_toNat, ← lo16_toNat, reservedOk, nField, Bool.and_eq_false_iff]
  cases op <;> simp [opByte, modifierOk, countFieldOk, BitVec.toNat_eq]

/-- Settles O5: the reserved fields are tested before any operand word is looked for. -/
theorem reservedFieldsFault : Obligations.ReservedFieldsFault := by
  intro s h hs hcp hb
  obtain ⟨op, hop⟩ := exists_opcode_of_breaksReserved hb
  exact step_of_illegal_header hs hcp fun _ => decode_of_reserved hop ((reservedOk_eq_false_iff hop).2 hb)

/-! ## What the decoder accepts -/

theorem opcode_build (op : Opcode) (h : Word) (ks : List Word) : opcode (build op h ks) = op := by
  cases op with
  | string | blit | readback => simp only [build]; split <;> rfl
  | _ => rfl

theorem countOk_of_le {α : Type} {l : List α} {n : Half} (h : l.length ≤ n.toNat) : countOk l = true :=
  decide_eq_true (h.trans (Nat.le_of_lt_succ n.isLt))

theorem length_flatMap_halvesOf (ks : List Word) : (ks.flatMap halvesOf).length = 2 * ks.length := by
  simp [List.length_flatMap, halvesOf, Nat.mul_comm]

/-- A P2 run inside the list has all its elements (R87). -/
theorem length_halfRun {n : Nat} {ks : List Word} (h : ceil2 n ≤ ks.length) : (halfRun n ks).length = n := by
  rw [halfRun, List.length_take, length_flatMap_halvesOf, List.length_take, Nat.min_eq_left h]
  simp only [ceil2]
  omega

/-- A command whose packet lies inside the list is well-formed: its count is a 16-bit field, and a BLIT has all its elements. -/
theorem build_wf {op : Opcode} {h : Word} {ks : List Word} (hL : packetLen op (nField h) ks ≤ ks.length + 1) :
    (build op h ks).wf = true := by
  cases op with
  | poly | fpoly => exact countOk_of_le (length_pointRun_le _ _)
  | glyph => exact countOk_of_le (length_byteRun_le _ _)
  | string => simp only [build]; split <;> exact countOk_of_le (length_byteRun_le _ _)
  | blit =>
    have hrun : ceil2 ((lo16 (operand ks 1)).toNat * (hi16 (operand ks 1)).toNat) ≤ (ks.drop 2).length := by
      simp only [packetLen] at hL
      rw [List.length_drop]
      omega
    simp only [build]
    split <;> exact decide_eq_true (length_halfRun hrun)
  | readback => simp only [build]; split <;> rfl
  | _ => rfl

theorem decode_wf {hr : Bool} {ws : List Word} {i : Instr} (h : decode hr ws = .ok i) : i.wf = true := by
  obtain ⟨w, ks, op, _, _, _, _, _, hL, rfl⟩ := decode_inv h
  exact build_wf hL

/-- Settles O7: the step rule runs what the decoder accepts. -/
theorem stepRunsTheDecodedCommand : Obligations.StepRunsTheDecodedCommand := fun _ _ hs h =>
  ⟨decode_wf h, step_of_decode_ok hs h⟩

/-- The fixed operand words, read one by one, are the first words after the header. -/
theorem map_operand_range {ks : List Word} {n : Nat} (h : n ≤ ks.length) : (List.range n).map (operand ks) = ks.take n := by
  apply List.ext_getElem
  · simp [h]
  · intro i hi _
    have hlt : i < ks.length := by simp at hi; omega
    simp [operand, hlt]

/-- Where no padded run ends the packet, the header that the encoder writes for the command read is the header read: the reserved
fields hold what R89 asks for, and the other fields are operands. -/
theorem headerOf_build {op : Opcode} {h : Word} {ks : List Word} (hop : opField h = opByte op) (hres : reservedOk op h = true)
    (hL : packetLen op (nField h) ks ≤ ks.length + 1) (hrun : endsInRun (build op h ks) = false) :
    headerOf (build op h ks) = h := by
  have hfields : ∀ m n, mField h = m → nField h = n → headerH op m n = h := by
    rintro _ _ rfl rfl
    exact headerH_fields op h hop
  obtain ⟨hm, hn⟩ := Bool.and_eq_true_iff.1 hres
  cases op with
  | setfgrgb | setbgrgb | fromrgb => exact headerC_fields _ h hop
  | endRun | setfont | getpixel | line | ellipse | fellipse | ftri =>
    exact hfields _ _ (of_decide_eq_true hm) (of_decide_eq_true hn)
  | setfg | setbg | torgb | setpixel | fill | hline | vline | circle | fcircle =>
    exact hfields _ _ (of_decide_eq_true hm) rfl
  | poly | fpoly =>
    have hcount : countField (pointRun (nField h).toNat ks) = nField h := by
      have hle : (nField h).toNat ≤ ks.length := by simp only [packetLen] at hL; omega
      rw [countField, pointRun, List.length_map, List.length_take_of_le hle, BitVec.ofNat_toNat, BitVec.setWidth_eq]
    exact hfields _ _ (of_decide_eq_true hm) hcount.symm
  | glyph => cases hrun
  | string | blit => simp only [build] at hrun; split at hrun <;> cases hrun
  | readback =>
    have hm1 : (mField h).toNat ≤ 1 := of_decide_eq_true hm
    simp only [build]
    split
    next hzero => exact hfields _ _ (BitVec.eq_of_toNat_eq hzero) (of_decide_eq_true hn)
    next hne =>
      have hone : (mField h).toNat = 1 := Nat.le_antisymm hm1 (Nat.pos_of_ne_zero hne)
      exact hfields _ _ (BitVec.eq_of_toNat_eq hone) (of_decide_eq_true hn)

/-- Where no padded run ends the packet, the operand words that the encoder writes for the command read are the words read: packing
undoes the split into fields (R83). -/
theorem operandsOf_build {op : Opcode} {h : Word} {ks : List Word} (hL : packetLen op (nField h) ks ≤ ks.length + 1)
    (hrun : endsInRun (build op h ks) = false) :
    operandsOf (build op h ks) = ks.take (packetLen op (nField h) ks - 1) := by
  have hwords : (List.range (packetLen op (nField h) ks - 1)).map (operand ks) = ks.take (packetLen op (nField h) ks - 1) :=
    map_operand_range (by omega)
  cases op with
  | poly | fpoly => simp [operandsOf, build, encode, packetLen, pointRun, Function.comp_def]
  | glyph => cases hrun
  | string | blit => simp only [build] at hrun; split at hrun <;> cases hrun
  | readback =>
    rw [← hwords]
    simp only [build]
    split <;> simp [operandsOf, encode, packetLen, fixedLen, List.range_succ]
  | _ =>
    rw [← hwords]
    simp [operandsOf, build, encode, packetLen, fixedLen, List.range_succ]

/-- Settles O2: a packet that the decoder accepts lies inside the list, and without a padded run its words are those that `encode`
puts together again. -/
theorem decodedCommandsAreWellFormed : Obligations.DecodedCommandsAreWellFormed := by
  intro hr ws i hd
  have hwf := decode_wf hd
  obtain ⟨h, ks, op, rfl, hop, hread, hres, _, hL, rfl⟩ := decode_inv hd
  refine ⟨hwf, ?_, ?_, fun hrun => ?_⟩
  · rwa [readsSurface_eq_needsRead, opcode_build]
  · rw [length_encode hwf]
    exact (packetWords_build_le op h ks).trans hL
  · rw [encode_eq_cons, headerOf_build (opByte_of_opcodeOf _ _ hop).symm hres hL hrun, operandsOf_build hL hrun]
    exact (List.prefix_cons_inj h).2 (List.take_prefix _ _)

end Sys2Proof.Machine
end

section
/-! PROOFS. END, the DrawState setters, the font selector and the ColorModel commands; the colour check and the colour conversions behind
them (spec 40_drawstate_and_color.md R110 to R121). -/

namespace Sys2Proof.Machine

/-! ## END -/

/-- Settles O22: END's rule writes STATE alone, and the step's end moves CP. -/
theorem endHalts : Obligations.EndHalts := fun _ => ⟨rfl, rfl⟩

/-! ## The colour check (R121) -/

theorem checkColor_of_native {c : Half} {s : State} (h : native s c) : checkColor c s = .ok s := if_pos h

theorem checkColor_of_wide {c : Half} {s : State} (h : 2 ^ s.cfg.pixfmt.bpp ≤ c.toNat) :
    checkColor c s = raise .operand c.toNat s := if_neg (Nat.not_lt.2 h)

/-- After the check has passed, the command's own rule runs in the unchanged state. -/
theorem finish_checkColor_of_native {c : Half} {s : State} (h : native s c) (len : Nat) (rule : State → Flow State) :
    finish len (andThen (checkColor c s) rule) = finish len (rule s) := by
  rw [checkColor_of_native h, andThen_ok]

/-- After the check has failed, the command's own rule does not run and CP stays. -/
theorem finish_checkColor_of_wide {c : Half} {s : State} (h : 2 ^ s.cfg.pixfmt.bpp ≤ c.toNat) (len : Nat) (rule : State → Flow State) :
    finish len (andThen (checkColor c s) rule) = .next (takeFault .operand 0 0 c.toNat s) := by
  rw [checkColor_of_wide h]
  rfl

/-- Settles O27: each of the five commands with a colour field begins with the colour check. -/
theorem wideColoursFault : Obligations.WideColoursFault := by
  intro i c s hfield hwide
  cases i with
  | setfg | setbg | torgb | setpixel | fill =>
    cases hfield
    exact finish_checkColor_of_wide hwide _ _
  | _ => cases hfield

/-! ## SETFG and SETBG -/

/-- Settles O23: of a native colour the check passes and the setter stores it; a wider one is the case of `wideColoursFault`. -/
theorem colourSettersStoreOrFault : Obligations.ColourSettersStoreOrFault := by
  intro c s
  refine ⟨congrArg ([·]) (headerH_eq_append .setfg 0 c), congrArg ([·]) (headerH_eq_append .setbg 0 c),
    fun hnative => ⟨?_, ?_⟩, fun hwide => ⟨?_, ?_⟩⟩
  · exact finish_checkColor_of_native hnative 1 fun s => .ok (setFg c s)
  · exact finish_checkColor_of_native hnative 1 fun s => .ok (setBg c s)
  · exact wideColoursFault (.setfg c) c s rfl hwide
  · exact wideColoursFault (.setbg c) c s rfl hwide

/-! ## SETFONT -/

theorem packHalves_toNat (lo hi : Half) : (packHalves lo hi).toNat = hi.toNat * 65536 + lo.toNat := by
  have hlo := lo.isLt
  have hhi := hi.isLt
  rw [packHalves, BitVec.toNat_ofNat]
  omega

theorem fontSizeOk_iff (width height : Half) :
    fontSizeOk width height = true ↔ 1 ≤ width.toNat ∧ width.toNat ≤ 24 ∧ 1 ≤ height.toNat ∧ height.toNat ≤ 255 := by
  simp [fontSizeOk, and_assoc]

theorem exec_setfont_of_legal {width height : Half} (h : fontSizeOk width height = true) (base : Word) (s : State) :
    exec (.setfont width height base) s = finish 3 (.ok (setFont (width.setWidth 5) (height.setWidth 8) base s)) :=
  congrArg (finish 3) (if_pos h)

theorem exec_setfont_of_illegal {width height : Half} (h : ¬ fontSizeOk width height = true) (base : Word) (s : State) :
    exec (.setfont width height base) s = finish 3 (raise .operand (packHalves width height).toNat s) :=
  congrArg (finish 3) (if_neg h)

/-- Settles O25: a legal size fits the 5 and 8 bits of the font registers; an illegal one is reported in the word k[1]. -/
theorem setfontStoresOrFaults : Obligations.SetfontStoresOrFaults := by
  intro width height base s
  refine ⟨?_, fun hw hw' hh hh' => ?_, fun hillegal => ?_⟩
  · rw [encode, packHalves_eq_append]
    rfl
  · refine ⟨_, exec_setfont_of_legal ((fontSizeOk_iff ..).2 ⟨hw, hw', hh, hh'⟩) base s, ?_, ?_, rfl⟩
    · simp only [setFont_fontW, BitVec.toNat_setWidth]
      omega
    · simp only [setFont_fontH, BitVec.toNat_setWidth]
      omega
  · rw [exec_setfont_of_illegal (mt (fontSizeOk_iff ..).1 hillegal), packHalves_toNat]
    rfl

/-! ## The conversions as fields of bits (R113, R114) -/

theorem toNat_field {w : Nat} (v : BitVec w) (start len : Nat) : (v.extractLsb' start len).toNat = v.toNat / 2 ^ start % 2 ^ len := by
  rw [BitVec.extractLsb'_toNat, Nat.shiftRight_eq_div_pow]

/-- The high bits of each channel, side by side, are the quotients that `fromRgb565` adds up. -/
theorem fromRgb565_eq_append (r g b : Byte) :
    fromRgb565 ⟨r, g, b⟩ = r.extractLsb' 3 5 ++ g.extractLsb' 2 6 ++ b.extractLsb' 3 5 := by
  have hr := r.isLt
  have hg := g.isLt
  have hb := b.isLt
  refine ofNat_eq_append (m := 11) (n := 5) (r.extractLsb' 3 5 ++ g.extractLsb' 2 6) (b.extractLsb' 3 5) _ ?_
  rw [← ofNat_eq_append (m := 5) (n := 6) (r.extractLsb' 3 5) (g.extractLsb' 2 6) _ rfl]
  simp only [toNat_field, BitVec.toNat_ofNat]
  omega

theorem fromRgb_eq_nativeOfRgb (f : PixFmt) (r g b : Byte) : fromRgb f ⟨r, g, b⟩ = nativeOfRgb f r g b := by
  cases f with
  | rgb565 => exact fromRgb565_eq_append r g b
  | pal8 => rfl

theorem rgbWord_eq_append (c : Rgb) : rgbWord c = 0#8 ++ c.r ++ c.g ++ c.b := by
  have hr := c.r.isLt
  have hg := c.g.isLt
  have hb := c.b.isLt
  refine ofNat_eq_append (m := 24) (n := 8) (0#8 ++ c.r ++ c.g) c.b _ ?_
  rw [← ofNat_eq_append (m := 16) (n := 8) (0#8 ++ c.r) c.g _ rfl, ← ofNat_eq_append (m := 8) (n := 8) 0#8 c.r _ rfl]
  simp only [BitVec.toNat_ofNat]
  omega

/-- Each channel of `toRgb565` is its field of the native value above zeros. -/
theorem toRgb565_eq_append (c : Pixel) :
    toRgb565 c = ⟨c.extractLsb' 11 5 ++ 0#3, c.extractLsb' 5 6 ++ 0#2, c.extractLsb' 0 5 ++ 0#3⟩ := by
  refine congr (congr (congrArg Rgb.mk ?_) ?_) ?_
  · exact ofNat_eq_append (m := 5) (n := 3) (c.extractLsb' 11 5) 0#3 _ (by rw [toNat_field]; rfl)
  · exact ofNat_eq_append (m := 6) (n := 2) (c.extractLsb' 5 6) 0#2 _ (by rw [toNat_field]; rfl)
  · exact ofNat_eq_append (m := 5) (n := 3) (c.extractLsb' 0 5) 0#3 _ (by rw [toNat_field, pow_zero, Nat.div_one]; rfl)

theorem rgbWord_toRgb (f : PixFmt) (c : Pixel) : rgbWord (toRgb f c) = rgbWordOfNative f c := by
  rw [rgbWord_eq_append]
  cases f with
  | rgb565 => rw [toRgb, toRgb565_eq_append]; rfl
  | pal8 => rfl

/-! ## SETFGRGB and SETBGRGB -/

/-- Settles O24: the stored value is FromRGB as R113 writes it, and nothing is checked. -/
theorem rgbSettersStoreTheConversion : Obligations.RgbSettersStoreTheConversion := by
  intro r g b s
  rw [← fromRgb_eq_nativeOfRgb]
  exact ⟨congrArg ([·]) (headerC_eq_append .setfgrgb r g b), congrArg ([·]) (headerC_eq_append .setbgrgb r g b), rfl, rfl⟩

/-! ## FROMRGB and TORGB -/

theorem emitted_of_emit (v : Word) (s : State) (len : Nat) : ∃ t, finish len (.ok (emit v s)) = .next t ∧ Emitted s t len [v] :=
  emitted_of_emitAll [v] s len

/-- Settles O26: both emit one word, the conversion as R113 and R114 write it; TORGB checks its colour before. -/
theorem conversionsEmitTheirResult : Obligations.ConversionsEmitTheirResult := by
  intro s
  refine ⟨fun r g b => ⟨congrArg ([·]) (headerC_eq_append .fromrgb r g b), ?_⟩,
    fun c => ⟨congrArg ([·]) (headerH_eq_append .torgb 0 c), fun hnative => ?_, wideColoursFault (.torgb c) c s rfl⟩⟩
  · rw [← fromRgb_eq_nativeOfRgb]
    exact emitted_of_emit _ s 1
  · rw [← rgbWord_toRgb]
    obtain ⟨t, hfinish, hemitted⟩ := emitted_of_emit (rgbWord (toRgb s.cfg.pixfmt c)) s 1
    exact ⟨t, (finish_checkColor_of_native hnative 1 _).trans hfinish, hemitted⟩

/-! ## The round trips of RGB565 (R115) -/

theorem fromRgb565_toNat (c : Rgb) : (fromRgb565 c).toNat = c.r.toNat / 8 * 2048 + c.g.toNat / 4 * 32 + c.b.toNat / 8 := by
  have hr := c.r.isLt
  have hg := c.g.isLt
  have hb := c.b.isLt
  rw [fromRgb565, BitVec.toNat_ofNat]
  omega

theorem toRgb565_red (c : Pixel) : (toRgb565 c).r.toNat = c.toNat / 2048 * 8 := by
  have hc := c.isLt
  simp only [toRgb565, BitVec.toNat_ofNat]
  omega

theorem toRgb565_green (c : Pixel) : (toRgb565 c).g.toNat = c.toNat / 32 % 64 * 4 := by
  simp only [toRgb565, BitVec.toNat_ofNat]
  omega

theorem toRgb565_blue (c : Pixel) : (toRgb565 c).b.toNat = c.toNat % 32 * 8 := by
  simp only [toRgb565, BitVec.toNat_ofNat]
  omega

/-- R115 (a): the three fields of a native value put together give it back. -/
theorem fromRgb565_toRgb565 (c : Pixel) : fromRgb565 (toRgb565 c) = c := by
  refine BitVec.eq_of_toNat_eq ?_
  rw [fromRgb565_toNat, toRgb565_red, toRgb565_green, toRgb565_blue]
  omega

/-- R115 (b): the low 3, 2 and 3 bits of the channels are lost, and nothing else. -/
theorem toRgb565_fromRgb565 (c : Rgb) :
    (toRgb565 (fromRgb565 c)).r.toNat = c.r.toNat - c.r.toNat % 8 ∧ (toRgb565 (fromRgb565 c)).g.toNat = c.g.toNat - c.g.toNat % 4 ∧
      (toRgb565 (fromRgb565 c)).b.toNat = c.b.toNat - c.b.toNat % 8 := by
  have hg := c.g.isLt
  have hb := c.b.isLt
  rw [toRgb565_red, toRgb565_green, toRgb565_blue, fromRgb565_toNat]
  omega

/-- Settles O28: the error of the second round trip is the remainder it clears. -/
theorem rgb565RoundTrips : Obligations.Rgb565RoundTrips := by
  refine ⟨fromRgb565_toRgb565, fun r g b => ?_⟩
  obtain ⟨hred, hgreen, hblue⟩ := toRgb565_fromRgb565 ⟨r, g, b⟩
  refine ⟨hred, hgreen, hblue, ?_⟩
  simp only [toRgb, fromRgb, hred, hgreen, hblue]
  omega

end Sys2Proof.Machine
end

section
/-! PROOFS. SETPIXEL, GETPIXEL and FILL: a pixel access on the surface is made at its index, one outside raises E_RANGE, and FILL's loop is
the list of writes of one colour to every index below W*H (spec 41_pixel_surface.md R130 to R132). -/

namespace Sys2Proof.Machine

/-! ## One pixel access (R55, R56) -/

theorem pixWrite_of_inSurface {s : State} {x y : Int} (h : inSurface s x y = true) (c : Pixel) :
    pixWrite x y c s = .ok (writeFb (pixIndex s x y) c s) := if_pos h

theorem pixWrite_of_outside {s : State} {x y : Int} (h : inSurface s x y = false) (c : Pixel) :
    pixWrite x y c s = raiseRange x y s := if_neg (Bool.eq_false_iff.1 h)

theorem emitPixel_of_inSurface {s : State} {x y : Int} (h : inSurface s x y = true) :
    emitPixel x y s = .ok (emit ((readFb s (pixIndex s x y)).setWidth 32) s) := by
  rw [emitPixel, pixRead, if_pos h]

theorem emitPixel_of_outside {s : State} {x y : Int} (h : inSurface s x y = false) : emitPixel x y s = raiseRange x y s := by
  rw [emitPixel, pixRead, if_neg (Bool.eq_false_iff.1 h)]
  rfl

theorem packPoint_eq_append (p : Point) : packPoint p = p.y ++ p.x := packHalves_eq_append p.x p.y

/-! ## SETPIXEL -/

/-- Of a native colour SETPIXEL is one pixel write. -/
theorem exec_setpixel_of_native {c : Half} {s : State} (h : native s c) (p : Point) :
    exec (.setpixel p c) s = finish 2 (pixWrite (px p) (py p) c s) :=
  finish_checkColor_of_native h 2 fun s => pixWrite (px p) (py p) c s

/-- Settles O29: the colour check comes first, then the bounds check of the one write. -/
theorem setpixelWritesOnePixel : Obligations.SetpixelWritesOnePixel := by
  intro p c s hwf
  refine ⟨?_, fun hnative hin => ?_, fun hnative hout => ?_, wideColoursFault (.setpixel p c) c s rfl⟩
  · rw [encode, headerH_eq_append, packPoint_eq_append]
    rfl
  · rw [exec_setpixel_of_native hnative, pixWrite_of_inSurface hin]
    exact ⟨_, rfl, rfl, fun a => readFb_writeFb s hwf _ a c⟩
  · rw [exec_setpixel_of_native hnative, pixWrite_of_outside hout]
    rfl

/-! ## GETPIXEL -/

/-- With a read path GETPIXEL is one pixel read, emitted. -/
theorem exec_getpixel_of_hasRead {s : State} (h : s.cfg.hasRead = true) (p : Point) :
    exec (.getpixel p) s = finish 2 (emitPixel (px p) (py p) s) := congrArg (finish 2) (if_pos h)

/-- Without a read path GETPIXEL's header is an illegal one (R90). -/
theorem exec_getpixel_of_noRead {s : State} (h : s.cfg.hasRead = false) (p : Point) :
    exec (.getpixel p) s = finish 2 (raise .illegal (headerH .getpixel 0 0).toNat s) :=
  congrArg (finish 2) (if_neg (Bool.eq_false_iff.1 h))

/-- Settles O30: the read path is checked first, then the bounds of the one read, and its value is the one word emitted. -/
theorem getpixelEmitsThePixel : Obligations.GetpixelEmitsThePixel := by
  intro p s
  refine ⟨?_, fun hread hin => ?_, fun hread hout => ?_, fun hnoRead => ?_⟩
  · rw [encode, packPoint_eq_append]
    rfl
  · rw [exec_getpixel_of_hasRead hread, emitPixel_of_inSurface hin]
    exact emitted_of_emit _ s 2
  · rw [exec_getpixel_of_hasRead hread, emitPixel_of_outside hout]
    rfl
  · rw [exec_getpixel_of_noRead hnoRead]
    rfl

/-! ## FILL -/

/-- The writes of FILL: every pixel index in row-major order, in one colour. -/
def fillWrites (s : State) (c : Pixel) : List (Nat × Pixel) := (List.range (pixelCount s)).map fun i => (i, c)

/-- A loop that only writes pixels makes its writes, in order. -/
theorem forEach_writeFb : ∀ (l : List (Nat × Pixel)) (s : State), forEach (fun e s => .ok (writeFb e.1 e.2 s)) l s = .ok (writes l s)
  | [], _ => rfl
  | e :: l, s => by
    rw [forEach_cons, andThen_ok]
    exact forEach_writeFb l _

theorem fillAll_eq_writes (c : Pixel) (s : State) : fillAll c s = .ok (writes (fillWrites s c) s) := by
  rw [← forEach_writeFb, fillWrites, forEach_map, List.range_eq_range', ← forUp_eq_forEach]
  rfl

/-- After the writes of FILL every pixel holds the colour, and every unit beyond the surface is as it was. -/
theorem readFb_fillWrites (c : Pixel) (s : State) (h : s.fb.wf = true) (a : Nat) :
    readFb (writes (fillWrites s c) s) a = if a < pixelCount s then c else readFb s a := by
  have hcolour : ∀ e ∈ fillWrites s c, e.2 = c := by simp [fillWrites]
  have hindices : (fillWrites s c).map (·.1) = List.range (pixelCount s) := by simp [fillWrites, Function.comp_def]
  rw [readFb_writes (fun _ => c) (fillWrites s c) s h hcolour, hindices]
  simp only [List.mem_range]

/-- Of a native colour FILL is its writes. -/
theorem exec_fill_of_native {c : Half} {s : State} (h : native s c) :
    exec (.fill c) s = finish 1 (.ok (writes (fillWrites s c) s)) :=
  (finish_checkColor_of_native h 1 (fillAll c)).trans (congrArg (finish 1) (fillAll_eq_writes c s))

/-- Settles O31: the colour check comes before the loop, and the loop's writes cover exactly the indices below W*H. -/
theorem fillWritesEveryPixel : Obligations.FillWritesEveryPixel := by
  intro c s hwf
  refine ⟨congrArg ([·]) (headerH_eq_append .fill 0 c), fun hnative => ?_, wideColoursFault (.fill c) c s rfl⟩
  exact ⟨_, (exec_fill_of_native hnative).trans (finish_writes 1 _ s), rfl, readFb_fillWrites c s hwf⟩

end Sys2Proof.Machine
end

section
/-! PROOFS. HLINE, VLINE and LINE: a command that draws in FG alone paints its region or stops at its first Plot call outside the surface;
the rounded walk of a line reaches both its ends, in either direction; and the degenerate inputs, whose lists of Plot calls or block
elements are empty (spec 42_line.md R140 to R144, 60_exceptions.md R215). -/

namespace Sys2Proof.Machine

/-! ## Commands that draw in FG alone -/

/-- A command that draws in FG alone paints its region, when all of it can be drawn. -/
theorem exec_paints {i : Instr} (hi : drawsForeground i = true) {s : State} (hwf : s.fb.wf = true)
    (hd : Drawable s (foregroundRegion i)) :
    ∃ t, exec i s = .next t ∧ Painted s t (packetWords i) (foregroundRegion i) := by
  rw [exec_plots i s hi]
  exact painted_of_points s (packetWords i) (plotOrder i) hwf (foregroundRegion_iff_mem_plotOrder i) hd

/-- The Plot calls before the first one outside the surface are made, and that one is the fault (R55, R203). -/
theorem exec_stops_outside {i : Instr} (hi : drawsForeground i = true) {s : State} (hwf : s.fb.wf = true) (hfg : s.fgV = true)
    {l m : List (Int × Int)} {q : Int × Int} (horder : plotOrder i = l ++ q :: m) (hl : ∀ p ∈ l, inSurface s p.1 p.2 = true)
    (hq : inSurface s q.1 q.2 = false) :
    ∃ u, exec i s = .next (takeFault .range q.1 q.2 0 u) ∧ Painted s u 0 fun x y => (x, y) ∈ l := by
  refine ⟨_, ?_, painted_writes s l hwf hfg hl⟩
  rw [exec_plots i s hi, horder, forEach_plotFg_range l m q s hfg hl hq]
  rfl

/-- A command that makes no Plot call only advances CP. -/
theorem exec_of_no_plots {i : Instr} (hi : drawsForeground i = true) (h : plotOrder i = []) (s : State) :
    exec i s = .next { s with cp := s.cp + BitVec.ofNat 32 (packetWords i) } := by
  rw [exec_plots i s hi, h]
  rfl

/-! ## HLINE and VLINE -/

/-- Settles O32, as the Plot calls of HLINE are its run. -/
theorem hlineDrawsItsRun : Obligations.HlineDrawsItsRun := fun p n _ hwf hd => exec_paints (i := .hline p n) rfl hwf hd

/-- Settles O33, as the Plot calls of VLINE are its run. -/
theorem vlineDrawsItsRun : Obligations.VlineDrawsItsRun := fun p n _ hwf hd => exec_paints (i := .vline p n) rfl hwf hd

theorem runOrder_split (x y : Int) {k n : Nat} (h : k < n) : ∃ m, runOrder x y n = runOrder x y k ++ (x + k, y) :: m :=
  ⟨_, by rw [runOrder, range_split h, List.map_append, List.map_cons]; rfl⟩

theorem columnOrder_split (x y : Int) {k n : Nat} (h : k < n) : ∃ m, columnOrder x y n = columnOrder x y k ++ (x, y + k) :: m :=
  ⟨_, by rw [columnOrder, range_split h, List.map_append, List.map_cons]; rfl⟩

theorem hRun_eq (x y : Int) (n : Nat) : HRun x y n = fun a b => (a, b) ∈ runOrder x y n :=
  funext₂ fun a b => propext (mem_runOrder x y n (a, b)).symm

theorem vRun_eq (x y : Int) (n : Nat) : VRun x y n = fun a b => (a, b) ∈ columnOrder x y n :=
  funext₂ fun a b => propext (mem_columnOrder x y n (a, b)).symm

/-- Settles O36: the run splits at its position `k`, and the shorter run before it is the region painted when the fault is taken. -/
theorem runsFaultAtTheFirstPixelOutside : Obligations.RunsFaultAtTheFirstPixelOutside := by
  intro p n k s hwf hfg hk
  refine ⟨fun hd hout => ?_, fun hd hout => ?_⟩
  · obtain ⟨m, hsplit⟩ := runOrder_split (px p) (py p) hk
    rw [hRun_eq] at hd ⊢
    obtain ⟨u, hexec, hpainted⟩ := exec_stops_outside (i := .hline p n) rfl hwf hfg hsplit (fun q hq => (hd q.1 q.2 hq).2) hout
    exact ⟨_, u, hexec, rfl, hpainted⟩
  · obtain ⟨m, hsplit⟩ := columnOrder_split (px p) (py p) hk
    rw [vRun_eq] at hd ⊢
    obtain ⟨u, hexec, hpainted⟩ := exec_stops_outside (i := .vline p n) rfl hwf hfg hsplit (fun q hq => (hd q.1 q.2 hq).2) hout
    exact ⟨_, u, hexec, rfl, hpainted⟩

/-! ## The ends of a line (R144(b), (c)) -/

theorem minorOffset_start {D : Int} (hD : 0 ≤ D) (a : Int) : minorOffset D a 0 = 0 := by
  rcases hD.eq_or_lt with rfl | hpos
  · exact if_pos rfl
  · exact minorOffset_eq D a 0 0 hpos (by omega) (by omega)

theorem minorOffset_end {D a : Int} (ha : 0 ≤ a) (haD : a ≤ D) : minorOffset D a D = a := by
  rcases (ha.trans haD).eq_or_lt with rfl | hpos
  · rw [minorOffset, if_pos rfl]
    omega
  · exact minorOffset_eq D a D a hpos (by omega) (by omega)

theorem walkPoint_start {us ue : Int} (h : us ≤ ue) (vs ve : Int) : WalkPoint us vs ue ve us vs := by
  refine ⟨le_refl us, h, ?_⟩
  rw [sub_self, minorOffset_start (by omega), mul_zero, add_zero]

theorem walkPoint_end {us vs ue ve : Int} (h : us ≤ ue) (hm : |ve - vs| ≤ ue - us) : WalkPoint us vs ue ve ue ve := by
  refine ⟨h, le_refl ue, ?_⟩
  rw [minorOffset_end (abs_nonneg _) hm, Int.sign_mul_abs]
  omega

/-- The walk passes its first end, at whichever of its ends it starts. -/
theorem majorPoint_start {u1 v1 u2 v2 : Int} (h : |v2 - v1| ≤ |u2 - u1|) : MajorPoint u1 v1 u2 v2 u1 v1 := by
  rw [MajorPoint]
  split
  · exact walkPoint_start ‹_› v1 v2
  · refine walkPoint_end (by omega) ?_
    rwa [abs_sub_comm v1, ← abs_of_nonneg (show 0 ≤ u1 - u2 by omega), abs_sub_comm u1]

theorem lineRegion_start (x1 y1 x2 y2 : Int) : LineRegion x1 y1 x2 y2 x1 y1 := by
  rw [LineRegion]
  split
  · exact majorPoint_start ‹_›
  · exact majorPoint_start (by omega)

/-- The walk starts at the end with the smaller major coordinate; where the two are equal the line is one point, so the order of
the ends does not matter. -/
theorem majorOrder_comm {u1 v1 u2 v2 : Int} (h : |v2 - v1| ≤ |u2 - u1|) : majorOrder u1 v1 u2 v2 = majorOrder u2 v2 u1 v1 := by
  rw [majorOrder, majorOrder]
  rcases lt_trichotomy u1 u2 with hlt | rfl | hgt
  · rw [if_pos hlt.le, if_neg (by omega)]
  · rw [sub_self, abs_zero, abs_nonpos_iff, sub_eq_zero] at h
    rw [h]
  · rw [if_neg (by omega), if_pos hgt.le]

/-- A line's Plot calls are the same, in the same order, from either end (R144(b)). -/
theorem lineOrder_comm (x1 y1 x2 y2 : Int) : lineOrder x1 y1 x2 y2 = lineOrder x2 y2 x1 y1 := by
  rw [lineOrder, lineOrder, abs_sub_comm x1 x2, abs_sub_comm y1 y2]
  split
  · exact majorOrder_comm ‹_›
  · rw [majorOrder_comm (by omega)]

theorem lineRegion_end (x1 y1 x2 y2 : Int) : LineRegion x1 y1 x2 y2 x2 y2 := by
  rw [mem_lineOrder, lineOrder_comm, ← mem_lineOrder]
  exact lineRegion_start x2 y2 x1 y1

/-! ## LINE -/

/-- Settles O34: the Plot calls of LINE are its rounded walk, which passes both ends. -/
theorem lineDrawsTheRoundedWalk : Obligations.LineDrawsTheRoundedWalk := by
  intro p q s hwf hd
  obtain ⟨t, hexec, hpainted⟩ := exec_paints (i := .line p q) rfl hwf hd
  exact ⟨t, hexec, hpainted, lineRegion_start _ _ _ _, lineRegion_end _ _ _ _⟩

theorem length_majorOrder (u1 v1 u2 v2 : Int) : ((majorOrder u1 v1 u2 v2).length : Int) = |u2 - u1| + 1 := by
  have hwalk : ∀ us vs ue ve : Int, (walkOrder us vs ue ve).length = (ue - us).toNat + 1 := fun _ _ _ _ => by
    rw [walkOrder, List.length_map, List.length_range]
  rw [majorOrder, ← Int.natCast_natAbs]
  split <;> rw [hwalk] <;> omega

theorem length_lineOrder (x1 y1 x2 y2 : Int) : ((lineOrder x1 y1 x2 y2).length : Int) = max |x2 - x1| |y2 - y1| + 1 := by
  rw [lineOrder]
  split
  · rw [length_majorOrder, max_eq_left ‹_›]
  · rw [List.length_map, length_majorOrder, max_eq_right (by omega)]

/-- The major coordinate rises with every step, so no point of a walk comes twice. -/
theorem nodup_majorOrder (u1 v1 u2 v2 : Int) : (majorOrder u1 v1 u2 v2).Nodup := by
  have hwalk : ∀ us vs ue ve : Int, (walkOrder us vs ue ve).Nodup := fun us vs ue ve =>
    List.nodup_range.map fun j k hjk => by
      have hmajor := congrArg Prod.fst hjk
      simpa using hmajor
  rw [majorOrder]
  split <;> exact hwalk _ _ _ _

theorem nodup_lineOrder (x1 y1 x2 y2 : Int) : (lineOrder x1 y1 x2 y2).Nodup := by
  rw [lineOrder]
  split
  · exact nodup_majorOrder _ _ _ _
  · exact (nodup_majorOrder _ _ _ _).map Prod.swap_injective

/-- Settles O35, from the closed form of the line's Plot calls. -/
theorem lineCountAndSymmetry : Obligations.LineCountAndSymmetry := by
  refine ⟨fun x1 y1 x2 y2 => ?_, fun p q s => ?_⟩
  · rw [linePoints_eq]
    exact ⟨length_lineOrder x1 y1 x2 y2, nodup_lineOrder x1 y1 x2 y2⟩
  · rw [exec_plots (.line p q) s rfl, exec_plots (.line q p) s rfl, plotOrder, plotOrder, lineOrder_comm]
    rfl

/-! ## Degenerate inputs (R215) -/

theorem exec_blitInstr (d : Dir) (p : Point) (w h : Half) (l : List Half) (s : State) :
    exec (blitInstr d p w h l) s = finish (3 + ceil2 (size w * size h)) (blit d p w h l s) := by
  cases d <;> rfl

theorem exec_readbackInstr_of_hasRead {s : State} (hread : s.cfg.hasRead = true) (d : Dir) (p : Point) (w h : Half) :
    exec (readbackInstr d p w h) s = finish 3 (readback d p w h s) := by
  cases d <;> exact congrArg (finish 3) (if_pos hread)

/-- An ellipse with a radius of 0 has no Plot call, filled or not (R158). -/
theorem exec_ellipse_of_flat {rx ry : Half} (hflat : rx = 0 ∨ ry = 0) (p : Point) (s : State) :
    exec (.ellipse p rx ry) s = .next { s with cp := s.cp + 3 } ∧ exec (.fellipse p rx ry) s = .next { s with cp := s.cp + 3 } :=
  ⟨exec_of_no_plots (i := .ellipse p rx ry) rfl (if_pos hflat) s, exec_of_no_plots (i := .fellipse p rx ry) rfl (if_pos hflat) s⟩

/-- A block of no elements has no packet beyond its three fixed words, and nothing is written. -/
theorem exec_blit_of_empty (d : Dir) (p : Point) {w h : Half} (hempty : size w * size h = 0) (s : State) :
    exec (blitInstr d p w h []) s = .next { s with cp := s.cp + 3 } := by
  rw [exec_blitInstr, blit_eq, hempty, List.length_nil, Nat.zero_min]
  rfl

/-- A block of no elements is read without a check, and nothing is emitted. -/
theorem exec_readback_of_empty {s : State} (hread : s.cfg.hasRead = true) (d : Dir) (p : Point) {w h : Half}
    (hempty : size w * size h = 0) : exec (readbackInstr d p w h) s = .next { s with cp := s.cp + 3 } := by
  rw [exec_readbackInstr_of_hasRead hread, readback_eq, Nat.mul_comm, show w.toNat * h.toNat = 0 from hempty]
  rfl

/-- Settles O60: each of these inputs leaves no Plot call and no block element. -/
theorem degenerateInputsComplete : Obligations.DegenerateInputsComplete := by
  intro p a vs d s
  obtain ⟨hellipseX, hfellipseX⟩ := exec_ellipse_of_flat (rx := 0) (ry := a) (.inl rfl) p s
  obtain ⟨hellipseY, hfellipseY⟩ := exec_ellipse_of_flat (rx := a) (ry := 0) (.inr rfl) p s
  have hnoColumns : size 0 * size a = 0 := Nat.zero_mul _
  have hnoRows : size a * size 0 = 0 := Nat.mul_zero _
  exact ⟨exec_of_no_plots (i := .hline p 0) rfl rfl s, exec_of_no_plots (i := .vline p 0) rfl rfl s,
    hellipseX, hellipseY, hfellipseX, hfellipseY,
    fun hfew => exec_of_no_plots (i := .poly vs) rfl (if_pos hfew) s, fun hfew => exec_of_no_plots (i := .fpoly vs) rfl (if_pos hfew) s,
    exec_blit_of_empty d p hnoColumns s, exec_blit_of_empty d p hnoRows s,
    fun hread => ⟨exec_readback_of_empty hread d p hnoColumns, exec_readback_of_empty hread d p hnoRows⟩⟩

end Sys2Proof.Machine
end

section
/-! PROOFS. CIRCLE, FCIRCLE, ELLIPSE and FELLIPSE: the octant generator walks one column to the right at each pair while v stays or falls
by 1, as the closed form of its decision variable says; and the four commands paint what they plot (spec 43_curve.md R150 to R157). -/

namespace Sys2Proof.Machine

/-! ## One iteration of the octant generator (R150) -/

/-- The decision variable D at the pair (u, v) of `Octant(r)`, in closed form (R150). -/
def octantD (r : Nat) (u v : Int) : Int := 2 * (u + 1) ^ 2 + v ^ 2 + (v - 1) ^ 2 - 2 * (r : Int) ^ 2

/-- The v that follows the pair (u, v) (R150). -/
def octantDown (r : Nat) (u v : Int) : Int := if 0 ≤ octantD r u v then v - 1 else v

theorem octantD_start (r : Nat) : octantD r 0 r = 3 - 2 * r := by
  rw [octantD]
  ring

/-- The two increments of D keep it at its closed form, so the generator's loop is one of the pair alone. -/
theorem octantFrom_succ (fuel r : Nat) (u v : Int) :
    octantFrom (fuel + 1) u v (octantD r u v) =
      if u ≤ v then (u, v) :: octantFrom fuel (u + 1) (octantDown r u v) (octantD r (u + 1) (octantDown r u v)) else [] := by
  have hstays : octantD r u v + 4 * u + 6 = octantD r (u + 1) v := by
    simp only [octantD]
    ring
  have hfalls : octantD r u v + 4 * (u - v) + 10 = octantD r (u + 1) (v - 1) := by
    simp only [octantD]
    ring
  rw [octantFrom, hstays, hfalls, octantDown]
  rcases lt_or_ge (octantD r u v) 0 with hneg | hnonneg
  · rw [if_pos hneg, if_neg (not_le.2 hneg)]
  · rw [if_neg (not_lt.2 hnonneg), if_pos hnonneg]

/-- Once the iterations left outnumber the columns up to v, more of them give no further pair. -/
theorem octantFrom_add_fuel {fuel : Nat} (extra : Nat) {u v : Int} (h : v < u + fuel) (D : Int) :
    octantFrom (fuel + extra) u v D = octantFrom fuel u v D := by
  induction fuel generalizing u v D with
  | zero =>
    cases extra with
    | zero => rfl
    | succ n => rw [Nat.zero_add, octantFrom, octantFrom, if_neg (by omega)]
  | succ n ih =>
    rw [Nat.add_right_comm, octantFrom, octantFrom, ih (by omega), ih (by omega)]

/-! ## The sequence of the v -/

/-- The v of the generator after `k` iterations, had the loop no end. -/
def octantV (r : Nat) : Nat → Int
  | 0 => r
  | k + 1 => octantDown r k (octantV r k)

theorem octantV_succ_cases (r k : Nat) : octantV r (k + 1) = octantV r k ∨ octantV r (k + 1) = octantV r k - 1 := by
  rw [octantV, octantDown]
  split
  · exact .inr rfl
  · exact .inl rfl

theorem octantV_antitone (r : Nat) : Antitone (octantV r) :=
  antitone_nat_of_succ_le fun k => by have := octantV_succ_cases r k; omega

theorem octantV_le (r k : Nat) : octantV r k ≤ r := octantV_antitone r (Nat.zero_le k)

/-- On its way down from r the sequence skips no integer. -/
theorem exists_octantV_eq {r n : Nat} {j : Int} (hn : octantV r n ≤ j) (hj : j ≤ r) : ∃ k ≤ n, octantV r k = j := by
  induction n with
  | zero => exact ⟨0, le_refl 0, le_antisymm hn hj⟩
  | succ n ih =>
    rcases le_or_gt (octantV r n) j with hle | hgt
    · obtain ⟨k, hk, hvk⟩ := ih hle
      exact ⟨k, by omega, hvk⟩
    · have hstep := octantV_succ_cases r n
      exact ⟨n + 1, le_refl _, by omega⟩

/-! ## The pairs by their number -/

/-- From pair number `k` on, the generator gives the pairs (k + j, v) as long as u is not above v, which it never is again afterwards. -/
theorem getElem?_octantFrom (r fuel k j : Nat) :
    (octantFrom fuel k (octantV r k) (octantD r k (octantV r k)))[j]? =
      if j < fuel ∧ ((k + j : Nat) : Int) ≤ octantV r (k + j) then some (((k + j : Nat) : Int), octantV r (k + j)) else none := by
  induction fuel generalizing k j with
  | zero => rw [octantFrom, List.getElem?_nil, if_neg (by omega)]
  | succ n ih =>
    rw [octantFrom_succ]
    split
    next hle =>
      cases j with
      | zero => rw [List.getElem?_cons_zero, if_pos ⟨Nat.succ_pos n, hle⟩, Nat.add_zero]
      | succ j =>
        have htail := ih (k + 1) j
        rw [Nat.add_right_comm k 1 j, octantV, Nat.cast_succ] at htail
        simp only [List.getElem?_cons_succ, htail, Nat.add_lt_add_iff_right, Nat.add_assoc]
    next hgt =>
      have hlater := octantV_antitone r (Nat.le_add_right k j)
      rw [List.getElem?_nil, if_neg (by omega)]

/-- Pair number `k` of `Octant(r)`: the r + 1 iterations suffice, as v is at most r. -/
theorem getElem?_octant (r k : Nat) :
    (octant r)[k]? = if (k : Int) ≤ octantV r k then some ((k : Int), octantV r k) else none := by
  have hpairs := getElem?_octantFrom r (r + 1) 0 k
  have hv := octantV_le r k
  rw [octantV, Nat.cast_zero, octantD_start, Nat.zero_add] at hpairs
  rw [octant, hpairs]
  exact if_congr ⟨And.right, fun h => ⟨by omega, h⟩⟩ rfl rfl

theorem getElem?_octant_eq_some_iff {r k : Nat} {q : Int × Int} :
    (octant r)[k]? = some q ↔ (k : Int) ≤ octantV r k ∧ q = ((k : Int), octantV r k) := by
  rw [getElem?_octant, Option.ite_none_right_eq_some, Option.some_inj, eq_comm (b := q)]

theorem octantV_mem {r k : Nat} (h : (k : Int) ≤ octantV r k) : ((k : Int), octantV r k) ∈ octant r :=
  List.mem_of_getElem? (getElem?_octant_eq_some_iff.2 ⟨h, rfl⟩)

/-- Column `j` has a pair of its own, or v comes down to `j` before the generator stops. -/
theorem octant_covers {r j : Nat} (hj : j ≤ r) : ∃ q ∈ octant r, q.1 = j ∨ q.2 = j := by
  rcases le_or_gt (j : Int) (octantV r j) with hle | hgt
  · exact ⟨_, octantV_mem hle, .inl rfl⟩
  · obtain ⟨k, hk, hvk⟩ := exists_octantV_eq hgt.le (Int.ofNat_le.2 hj)
    exact ⟨_, octantV_mem (by omega), .inr hvk⟩

/-- Settles O37: the pairs are known by their number (`getElem?_octant`), and the sequence of the v makes them. -/
theorem octantGeneratorFacts : Obligations.OctantGeneratorFacts := by
  intro r
  refine ⟨?first, fun k q hq => ?bounds, fun k v hkv => ?next, fun j => octant_covers, fun extra => ?fuel⟩
  case first => exact getElem?_octant_eq_some_iff.2 ⟨Int.natCast_nonneg r, rfl⟩
  case bounds =>
    obtain ⟨hle, rfl⟩ := getElem?_octant_eq_some_iff.1 hq
    exact ⟨rfl, Int.natCast_nonneg k, hle, octantV_le r k⟩
  case next =>
    obtain ⟨_, hpair⟩ := getElem?_octant_eq_some_iff.1 hkv
    obtain rfl : v = octantV r k := congrArg Prod.snd hpair
    exact getElem?_octant r (k + 1)
  case fuel => exact octantFrom_add_fuel extra (by omega) _

/-! ## The circle -/

/-- Settles O38, as the Plot calls of CIRCLE are its stroke. -/
theorem circleDrawsItsStroke : Obligations.CircleDrawsItsStroke := fun c r _ hwf hd => exec_paints (i := .circle c r) rfl hwf hd

/-- Settles O39: the Plot calls of FCIRCLE are its spans and its outline, and the outline lies inside the spans. -/
theorem fcircleDrawsItsFill : Obligations.FcircleDrawsItsFill := by
  intro c r s hwf hd
  obtain ⟨t, hexec, hpainted⟩ := exec_paints (i := .fcircle c r) rfl hwf hd
  exact ⟨t, hexec, hpainted, fun _ _ => fillRegion_of_stroke⟩

/-! ## The ellipse -/

section
variable {rx ry : Half} (hrx : rx ≠ 0) (hry : ry ≠ 0) (c : Point)
include hrx hry

theorem foregroundRegion_ellipse :
    foregroundRegion (.ellipse c rx ry) = StrokeRegion (px c) (py c) ry.toNat fun t => t * rx.toNat / ry.toNat :=
  funext₂ fun _ _ => propext ((and_iff_right hrx).trans (and_iff_right hry))

theorem foregroundRegion_fellipse :
    foregroundRegion (.fellipse c rx ry) = FillRegion (px c) (py c) ry.toNat fun t => t * rx.toNat / ry.toNat :=
  funext₂ fun _ _ => propext ((and_iff_right hrx).trans (and_iff_right hry))

/-- With both radii above 0 ELLIPSE is the stroke pass of the circle of radius `ry`, its x offsets scaled (R156). -/
theorem exec_ellipse_of_radii (s : State) :
    exec (.ellipse c rx ry) s = finish 3 (strokePass (px c) (py c) (scaleX (size rx) (size ry)) (octant (size ry)) s) :=
  congrArg (finish 3) (if_neg (not_or.2 ⟨hrx, hry⟩))

end

/-- Settles O40, as the Plot calls of ELLIPSE are its scaled stroke when both radii are above 0. -/
theorem ellipseDrawsItsStroke : Obligations.EllipseDrawsItsStroke := by
  intro c rx ry s hrx hry hwf hd
  rw [← foregroundRegion_ellipse hrx hry] at hd ⊢
  exact exec_paints rfl hwf hd

/-- Settles O41: when both radii are above 0 the Plot calls of FELLIPSE are its scaled spans and the outline inside them. -/
theorem fellipseDrawsItsFill : Obligations.FellipseDrawsItsFill := by
  intro c rx ry s hrx hry hwf hd
  rw [← foregroundRegion_fellipse hrx hry] at hd ⊢
  exact exec_paints rfl hwf hd

/-! ## Equal radii (R156) -/

/-- Scaling by the ratio of equal radii is exact: it leaves every offset as it is (R155). -/
theorem scaleX_self {r : Nat} (h : r ≠ 0) : scaleX r r = id :=
  funext fun t => Int.mul_ediv_cancel t (Int.natCast_ne_zero.2 h)

/-- Settles O42: the one drawing outcome is the circle's stroke pass. -/
theorem equalRadiiDrawTheCircle : Obligations.EqualRadiiDrawTheCircle := by
  intro c r s hr
  have hsize : size r ≠ 0 := fun hzero => hr (BitVec.eq_of_toNat_eq hzero)
  refine ⟨strokePass (px c) (py c) id (octant (size r)) s, rfl, ?_⟩
  rw [exec_ellipse_of_radii hr hr, scaleX_self hsize]

end Sys2Proof.Machine
end

section
/-! PROOFS. POLY, FPOLY and FTRI: the three commands paint what they plot; a triangle's Plot calls come in row-major order, so its region
alone fixes them and not the order of its points; and the incremental edge tracker keeps the quotient and the remainder of R170's
division (spec 44_polygon.md R165 to R173). -/

namespace Sys2Proof.Machine

/-! ## FTRI -/

/-- Settles O43, as the Plot calls of FTRI are its triangle. -/
theorem ftriDrawsItsTriangle : Obligations.FtriDrawsItsTriangle := fun p q r _ hwf hd => exec_paints (i := .ftri p q r) rfl hwf hd

theorem rowMajor_betweenOrder (xs : List Int) (y : Int) : (betweenOrder xs y).Pairwise RowMajor := by
  cases xs with
  | nil => exact List.Pairwise.nil
  | cons x t => exact rowMajor_runOrder _ _ _

/-- A triangle is plotted from top to bottom, each scanline from left to right (R168), so no position comes twice (R171(b)). -/
theorem rowMajor_triangleOrder (a b c : Pt) : (triangleOrder a b c).Pairwise RowMajor :=
  rowMajor_rows _ _ _ (fun _ => rowMajor_betweenOrder _ _) fun _ p hp => ((mem_betweenOrder _ _ p.1 p.2).1 hp).1

/-- Triangles of the same region have the same Plot calls, in the same order. -/
theorem triangleOrder_congr {a b c a' b' c' : Pt} (h : ∀ x y, TriangleRegion a b c x y ↔ TriangleRegion a' b' c' x y) :
    triangleOrder a b c = triangleOrder a' b' c' :=
  eq_of_rowMajor (rowMajor_triangleOrder a b c) (rowMajor_triangleOrder a' b' c') fun p => by
    rw [← mem_triangleOrder, ← mem_triangleOrder, h]

/-- FTRI's outcome depends on its points only through the region of their triangle, in any state (R171(d)). -/
theorem exec_ftri_congr {p q r p' q' r' : Point}
    (h : ∀ x y, TriangleRegion (ptOf p) (ptOf q) (ptOf r) x y ↔ TriangleRegion (ptOf p') (ptOf q') (ptOf r') x y) (s : State) :
    exec (.ftri p q r) s = exec (.ftri p' q' r') s := by
  rw [exec_plots (.ftri p q r) s rfl, exec_plots (.ftri p' q' r') s rfl, plotOrder, plotOrder, triangleOrder_congr h]
  rfl

/-- Settles O44: the region of a triangle is the same after either exchange of its points. -/
theorem ftriIgnoresVertexOrder : Obligations.FtriIgnoresVertexOrder := fun _ _ _ s =>
  ⟨exec_ftri_congr (triangleRegion_swap12 _ _ _) s, exec_ftri_congr (triangleRegion_swap23 _ _ _) s⟩

/-! ## The incremental edge tracker (R172) -/

/-- One tracker step adds `a` to the dividend of a quotient and remainder by `d`: the accumulator passes `d` exactly when the two
remainders carry. -/
theorem trackStep_quotient {d : Int} (hd : 0 < d) (a n x : Int) :
    trackStep (a / d) (a % d) d (x + n / d, n % d) = (x + (n + a) / d, (n + a) % d) := by
  have ha := Int.emod_nonneg a hd.ne'
  have hn := Int.emod_nonneg n hd.ne'
  have ha' := Int.emod_lt_of_pos a hd
  have hn' := Int.emod_lt_of_pos n hd
  have hsum : n + a = (n % d + a % d) + d * (n / d + a / d) := by
    rw [mul_add]
    linarith [Int.emod_add_mul_ediv n d, Int.emod_add_mul_ediv a d]
  rw [trackStep]
  split
  next hcarry =>
    obtain ⟨hquotient, hremainder⟩ := (Int.ediv_emod_unique (a := n + a) (q := n / d + a / d + 1) (r := n % d + a % d - d) hd).2
      ⟨by rw [hsum]; ring, by omega, by omega⟩
    rw [hquotient, hremainder]
    ring_nf
  next hfits =>
    obtain ⟨hquotient, hremainder⟩ := (Int.ediv_emod_unique (a := n + a) (q := n / d + a / d) (r := n % d + a % d) hd).2
      ⟨by omega, by omega, by omega⟩
    rw [hquotient, hremainder]
    ring_nf

/-- After `k` scanlines the tracker holds the quotient and the remainder of `k` times the edge's x difference by its y difference. -/
theorem track_eq {dy : Int} (hdy : 0 < dy) (dx x : Int) (k : Nat) :
    track (dx / dy) (dx % dy) dy x k = (x + dx * k / dy, dx * k % dy) := by
  induction k with
  | zero => simp [track]
  | succ k ih => rw [track, ih, trackStep_quotient hdy, Nat.cast_succ, mul_add_one]

theorem edgeX_add (p q : Pt) (k : Int) : edgeX p q (p.2 + k) = p.1 + (q.1 - p.1) * k / (q.2 - p.2) := by
  rw [edgeX, add_sub_cancel_left]

/-- Settles O45: the tracker's quotient is the one in EdgeX. -/
theorem edgeTrackerGivesEdgeX : Obligations.EdgeTrackerGivesEdgeX := by
  intro p q k hpq dx dy
  rw [track_eq (sub_pos.2 hpq), edgeX_add]
  exact ⟨rfl, rfl⟩

/-! ## POLY and FPOLY -/

/-- Settles O46, as the Plot calls of POLY are the lines of its closed outline. -/
theorem polyDrawsItsOutline : Obligations.PolyDrawsItsOutline := fun vs _ hwf hd => exec_paints (i := .poly vs) rfl hwf hd

/-- A list of vertices has at most one box centre. -/
theorem isBoxCentre_unique {vs : List Point} {m m' : Pt} (h : IsBoxCentre vs m) (h' : IsBoxCentre vs m') : m = m' :=
  (boxCentre_eq vs m h).symm.trans (boxCentre_eq vs m' h')

/-- FPOLY's region is the fan around the one box centre of its vertices (R166). -/
theorem foregroundRegion_fpoly {vs : List Point} {m : Pt} (hm : IsBoxCentre vs m) : foregroundRegion (.fpoly vs) = FanRegion vs m := by
  funext x y
  refine propext ⟨fun ⟨m', hm', hfan⟩ => ?_, fun hfan => ⟨m, hm, hfan⟩⟩
  rwa [isBoxCentre_unique hm hm']

/-- Settles O47: the Plot calls of FPOLY are the triangles of the fan around the centre that R166 defines. -/
theorem fpolyDrawsItsFan : Obligations.FpolyDrawsItsFan := by
  intro vs m s hm hwf hd
  rw [← foregroundRegion_fpoly hm] at hd ⊢
  exact exec_paints rfl hwf hd

end Sys2Proof.Machine
end

section
/-! PROOFS. GLYPH and STRING: both plot the pixels of their glyphs in order, and no position comes twice; what the checks of the font, the
first bad character and the first bad pixel leave, and what a command that nothing stops leaves (spec 45_glyph.md R180 to R186,
60_exceptions.md R202 to R204). -/

namespace Sys2Proof.Machine

/-! ## The pixels of a glyph and of a string -/

section
variable {s : State} {r c : Nat} (hc : c ≤ s.fontW.toNat) {q : Int × Int × Bool}
include hc

/-- The pixels before row `r`, column `c`, by their row and column in the glyph (R182). -/
theorem mem_glyphDots {x y : Int} {bit : Nat → Nat → Bool} :
    q ∈ glyphDots s x y bit r c ↔
      ∃ j i : Nat, i < s.fontW.toNat ∧ (j < r ∨ j = r ∧ i < c) ∧ (x + i, y + j, bit j i) = q := by
  simp only [glyphDots, List.mem_append, List.mem_flatMap, List.mem_map, List.mem_range]
  constructor
  · rintro (⟨j, hj, i, hi, rfl⟩ | ⟨i, hi, rfl⟩)
    · exact ⟨j, i, hi, .inl hj, rfl⟩
    · exact ⟨r, i, by omega, .inr ⟨rfl, hi⟩, rfl⟩
  · rintro ⟨j, i, hi, hj | ⟨rfl, hic⟩, rfl⟩
    · exact .inl ⟨j, hj, i, hi, rfl⟩
    · exact .inr ⟨i, hic, rfl⟩

/-- The pixels before row `r`, column `c` of character `k`, by their character, row and column (R184). -/
theorem mem_stringDots {a : Align} {p : Point} {d : List Byte} {k : Nat} :
    q ∈ stringDots a s p d k r c ↔
      ∃ i j l : Nat, l < s.fontW.toNat ∧ (i < k ∧ j < s.fontH.toNat ∨ i = k ∧ (j < r ∨ j = r ∧ l < c)) ∧
        (stringCol a s p d.length i + l, py p + j, stringBit s d i j l) = q := by
  simp only [stringDots, List.mem_append, List.mem_flatMap, List.mem_range, mem_glyphDots hc, mem_glyphDots (Nat.zero_le _)]
  constructor
  · rintro (⟨i, hi, j, l, hl, hj, rfl⟩ | ⟨j, l, hl, hjl, rfl⟩)
    · exact ⟨i, j, l, hl, .inl ⟨hi, by omega⟩, rfl⟩
    · exact ⟨k, j, l, hl, .inr ⟨rfl, hjl⟩, rfl⟩
  · rintro ⟨i, j, l, hl, ⟨hi, hj⟩ | ⟨rfl, hjl⟩, rfl⟩
    · exact .inl ⟨i, hi, j, l, hl, .inl hj, rfl⟩
    · exact .inr ⟨j, l, hl, hjl, rfl⟩

end

/-- No position of the list has two bits (R183). -/
def OneBitEach (l : List (Int × Int × Bool)) : Prop := ∀ q ∈ l, ∀ q' ∈ l, q.1 = q'.1 → q.2.1 = q'.2.1 → q.2.2 = q'.2.2

theorem oneBitEach_glyphDots {s : State} {r c : Nat} (hc : c ≤ s.fontW.toNat) (x y : Int) (bit : Nat → Nat → Bool) :
    OneBitEach (glyphDots s x y bit r c) := by
  intro q hq q' hq' hcol hrow
  obtain ⟨j, i, _, _, rfl⟩ := (mem_glyphDots hc).1 hq
  obtain ⟨j', i', _, _, rfl⟩ := (mem_glyphDots hc).1 hq'
  obtain rfl : i = i' := by simpa using hcol
  obtain rfl : j = j' := by simpa using hrow
  rfl

/-- Glyphs side by side at a pitch of FONT_W do not overlap: a column of the string is a column of one glyph (R183). -/
theorem stringCol_inj {a : Align} {s : State} {p : Point} {n i i' l l' : Nat} (hl : l < s.fontW.toNat) (hl' : l' < s.fontW.toNat)
    (h : stringCol a s p n i + l = stringCol a s p n i' + l') : i = i' ∧ l = l' := by
  have hcols : i * s.fontW.toNat + l = i' * s.fontW.toNat + l' := by
    rw [stringCol, stringCol, add_assoc, add_assoc, add_right_inj] at h
    exact_mod_cast h
  have hpos : 0 < s.fontW.toNat := by omega
  obtain ⟨hquot, hrem⟩ := (Nat.div_mod_unique (a := i * s.fontW.toNat + l) (c := l) (d := i) hpos).2 ⟨by ring, hl⟩
  obtain ⟨hquot', hrem'⟩ := (Nat.div_mod_unique (a := i' * s.fontW.toNat + l') (c := l') (d := i') hpos).2 ⟨by ring, hl'⟩
  rw [hcols] at hquot hrem
  exact ⟨hquot.symm.trans hquot', hrem.symm.trans hrem'⟩

theorem oneBitEach_stringDots {s : State} {r c : Nat} (hc : c ≤ s.fontW.toNat) (a : Align) (p : Point) (d : List Byte) (k : Nat) :
    OneBitEach (stringDots a s p d k r c) := by
  intro q hq q' hq' hcol hrow
  obtain ⟨i, j, l, hl, _, rfl⟩ := (mem_stringDots hc).1 hq
  obtain ⟨i', j', l', hl', _, rfl⟩ := (mem_stringDots hc).1 hq'
  obtain ⟨rfl, rfl⟩ := stringCol_inj hl hl' hcol
  obtain rfl : j = j' := by simpa using hrow
  rfl

/-- The characters before character `k` are those before its first pixel. -/
theorem stringDots_zero (a : Align) (s : State) (p : Point) (d : List Byte) (k : Nat) :
    stringDots a s p d k 0 0 = charsDots s (py p) d (stringStart a s p d.length) k := by
  rw [stringDots, glyphDots_row, List.range_zero, List.flatMap_nil, List.append_nil]
  rfl

/-! ## What writing glyph pixels leaves -/

/-- On the surface equal indices are equal positions, so pixels that have one bit each are all there afterwards. -/
theorem wrote_dots {s : State} {l : List (Int × Int × Bool)} (hwf : s.fb.wf = true) (hone : OneBitEach l)
    (hd : ∀ q ∈ l, DotDrawable s q) : Wrote s (writes (dotWrites s l) s) (dotColours s l) := by
  refine wrote_of_writes (dotColours s l) s hwf fun e he e' he' hindex => ?_
  obtain ⟨q, hq, rfl⟩ := List.mem_map.1 he
  obtain ⟨q', hq', rfl⟩ := List.mem_map.1 he'
  obtain ⟨hcol, hrow⟩ := pixIndex_inj s (hd q hq).2 (hd q' hq').2 hindex
  exact congrArg (glyphColour s) (hone q hq q' hq' hcol hrow)

/-- A command of `len` words that writes glyph pixels and completes: they hold their colours, and every other unit is unchanged. -/
theorem finish_dots {s : State} {l : List (Int × Int × Bool)} (hwf : s.fb.wf = true) (hone : OneBitEach l)
    (hd : ∀ q ∈ l, DotDrawable s q) (len : Nat) :
    ∃ t, finish len (.ok (writes (dotWrites s l) s)) = .next t ∧ t = { s with fb := t.fb, cp := s.cp + BitVec.ofNat 32 len } ∧
      (∀ q ∈ l, readFb t (pixIndex s q.1 q.2.1) = glyphColour s q.2.2) ∧
      ∀ a, (∀ q ∈ l, pixIndex s q.1 q.2.1 ≠ a) → readFb t a = readFb s a := by
  obtain ⟨_, _, hdrawn, hother⟩ := wrote_dots hwf hone hd
  simp only [dotColours, List.forall_mem_map] at hdrawn hother
  exact ⟨_, finish_writes len _ s, rfl, hdrawn, hother⟩

theorem dotStop_of_unset {s : State} {q : Int × Int × Bool} (h : ¬glyphColourSet s q.2.2) (u : State) :
    dotStop s (glyphDot q) u = takeFault .unset 0 0 (if q.2.2 then 0 else 1) u := by
  obtain ⟨x, y, bit⟩ := q
  cases bit <;> exact if_neg h

theorem dotStop_of_set {s : State} {q : Int × Int × Bool} (h : glyphColourSet s q.2.2) (u : State) :
    dotStop s (glyphDot q) u = takeFault .range q.1 q.2.1 0 u := by
  obtain ⟨x, y, bit⟩ := q
  cases bit <;> exact if_pos h

/-- A command that stops at pixel `q` when that cannot be drawn, the pixels `l` before it written: E_UNSET comes before E_RANGE (R204). -/
theorem faults_at_dot {i : Instr} {s : State} {l : List (Int × Int × Bool)} {q : Int × Int × Bool} (hwf : s.fb.wf = true)
    (hone : OneBitEach l) (hd : ∀ q ∈ l, DotDrawable s q)
    (hstop : ¬DotDrawable s q → exec i s = .next (dotStop s (glyphDot q) (writes (dotWrites s l) s))) :
    (¬glyphColourSet s q.2.2 →
      ∃ u, exec i s = .next (takeFault .unset 0 0 (if q.2.2 then 0 else 1) u) ∧ Wrote s u (dotColours s l)) ∧
    (glyphColourSet s q.2.2 → inSurface s q.1 q.2.1 = false →
      ∃ u, exec i s = .next (takeFault .range q.1 q.2.1 0 u) ∧ Wrote s u (dotColours s l)) := by
  refine ⟨fun hunset => ⟨_, ?_, wrote_dots hwf hone hd⟩, fun hset hout => ⟨_, ?_, wrote_dots hwf hone hd⟩⟩
  · rw [hstop fun hq => hunset hq.1, dotStop_of_unset hunset]
  · rw [hstop fun hq => Bool.eq_false_iff.1 hout hq.2, dotStop_of_set hset]

/-- Some glyph pixels after others are all of them, in order. -/
theorem writes_dots_append (s : State) (l m : List (Int × Int × Bool)) :
    writes (dotWrites s m) (writes (dotWrites s l) s) = writes (dotWrites s (l ++ m)) s := by
  rw [← writes_append, dotWrites, dotWrites, ← List.map_append, dotColours, dotColours, ← List.map_append]
  rfl

theorem writes_fontH (ws : List (Nat × Pixel)) (s : State) : (writes ws s).fontH = s.fontH := by rw [writes_only_fb]

theorem writes_fontW (ws : List (Nat × Pixel)) (s : State) : (writes ws s).fontW = s.fontW := by rw [writes_only_fb]

/-! ## GLYPH -/

theorem exec_glyph_of_noFont {s : State} (h : s.fontV = false) (p : Point) (d : List Byte) :
    exec (.glyph p d) s = .next (takeFault .noFont 0 0 0 s) :=
  congrArg (finish _) (if_pos (by rw [h]; rfl))

theorem exec_glyph_of_font {s : State} (h : s.fontV = true) (p : Point) (d : List Byte) :
    exec (.glyph p d) s = finish (2 + ceil4 d.length)
      (if d.length ≠ glyphBytes s then raise .operand d.length s else glyphRows (px p) (py p) (packetByte d) s) :=
  congrArg (finish _) (if_neg (by rw [h]; decide))

/-- With a font and the byte count it asks for, GLYPH is its rows of pixels (R180). -/
theorem exec_glyph_of_count {s : State} (hv : s.fontV = true) {d : List Byte} (hn : d.length = glyphBytes s) (p : Point) :
    exec (.glyph p d) s = finish (2 + ceil4 d.length) (glyphRows (px p) (py p) (packetByte d) s) := by
  rw [exec_glyph_of_font hv, if_neg (not_not.2 hn)]

/-- Settles O48: the rows of the glyph are its pixels in row-major order, and all of them can be drawn. -/
theorem glyphDrawsItsBits : Obligations.GlyphDrawsItsBits := by
  intro p d s bpr bit hv hn hwf hrect hset
  have hmem (q : Int × Int × Bool) := mem_glyphDots (x := px p) (y := py p) (bit := bit) (r := s.fontH.toNat) (q := q)
    (Nat.zero_le s.fontW.toNat)
  have hd : ∀ q ∈ glyphDots s (px p) (py p) bit s.fontH.toNat 0, DotDrawable s q := by
    intro q hq
    obtain ⟨r, c, hc, hr, rfl⟩ := (hmem q).1 hq
    have hr : r < s.fontH.toNat := by omega
    exact ⟨hset r c hr hc, hrect r c hr hc⟩
  have hrows : glyphRows (px p) (py p) (packetByte d) s = drawDots (glyphDots s (px p) (py p) bit s.fontH.toNat 0) s :=
    glyphRows_eq (px p) (py p) (packetByte d) (fun j => d.getD j 0) s.fontH.toNat rfl fun _ _ => rfl
  obtain ⟨t, hfinish, hframe, hdrawn, hother⟩ := finish_dots hwf (oneBitEach_glyphDots (Nat.zero_le _) _ _ _) hd (2 + ceil4 d.length)
  refine ⟨t, ?_, hframe, fun r c hr hc => ?_, fun a ha => hother a fun q hq => ?_⟩
  · rw [exec_glyph_of_count hv hn, hrows, drawDots_ok _ _ hd, hfinish]
  · exact hdrawn _ ((hmem _).2 ⟨r, c, hc, .inl hr, rfl⟩)
  · obtain ⟨r, c, hc, hr, rfl⟩ := (hmem q).1 hq
    exact ha r c (by omega) hc

/-- Settles O58: the pixels of the glyph up to the bad one are drawn, and the bad one decides the fault. -/
theorem glyphFaultsAtItsFirstPixel : Obligations.GlyphFaultsAtItsFirstPixel := by
  intro p d s r c bpr bit before hv hwf hn hr hc hd
  refine faults_at_dot (q := (px p + c, py p + r, bit r c)) hwf (oneBitEach_glyphDots hc.le _ _ _) hd fun hbad => ?_
  rw [exec_glyph_of_count hv hn,
    glyphRows_stop (px p) (py p) (packetByte d) (fun j => d.getD j 0) r c s hr hc (fun _ _ => rfl) hd hbad]
  rfl

/-! ## STRING -/

theorem exec_stringInstr (a : Align) (p : Point) (d : List Byte) (s : State) :
    exec (stringInstr a p d) s = finish (2 + ceil4 d.length) (drawString a p d s) := by
  cases a <;> rfl

theorem drawString_of_noFont {s : State} (h : s.fontV = false) (a : Align) (p : Point) (d : List Byte) :
    drawString a p d s = raise .noFont 0 s := if_pos (by rw [h]; rfl)

/-- With a font STRING lays its characters out from the start column of R185. -/
theorem drawString_of_font {s : State} (h : s.fontV = true) (a : Align) (p : Point) (d : List Byte) :
    drawString a p d s = stringFrom (py p) d (stringStart a s p d.length) s := by
  have hstart : startCol a s.cfg.width s.fontW.toNat d.length (px p) = stringStart a s p d.length := by cases a <;> rfl
  rw [drawString, h, hstart]
  rfl

/-- Settles O49: FONT_V is checked first, then GLYPH's byte count. -/
theorem glyphCommandsCheckTheFont : Obligations.GlyphCommandsCheckTheFont := by
  refine fun p d s => ⟨fun hnone => ⟨exec_glyph_of_noFont hnone p d, fun a => ?_⟩, fun hv hn => ?_⟩
  · rw [exec_stringInstr, drawString_of_noFont hnone]
    rfl
  · rw [exec_glyph_of_font hv, if_pos (show d.length ≠ glyphBytes s from hn)]
    rfl

/-- The characters reached are those before the first one that does not fit, or all of them (R184). -/
theorem exists_reached_count (a : Align) (s : State) (p : Point) (n : Nat) :
    ∃ k ≤ n, ∀ i, stringReached a s p n i ↔ i < k := by
  classical
  have hstop : ∃ k, ¬stringReached a s p n k := ⟨n, fun h => lt_irrefl n h.1⟩
  refine ⟨Nat.find hstop, Nat.find_min' hstop fun h => lt_irrefl n h.1, fun i => ⟨fun ⟨hin, hfit⟩ => ?_, fun hi => ?_⟩⟩
  · by_contra hge
    have hle : Nat.find hstop ≤ i := not_lt.1 hge
    have hcol : (Nat.find hstop : Int) * s.fontW.toNat ≤ (i : Int) * s.fontW.toNat :=
      mul_le_mul_of_nonneg_right (by omega) (by omega)
    rw [stringCol] at hfit
    exact Nat.find_spec hstop ⟨by omega, by rw [stringCol]; omega⟩
  · exact not_not.1 (Nat.find_min hstop hi)

/-- The next glyph would not fully fit, so the string ends before it (R184). -/
theorem stringFrom_of_no_fit {col : Int} {s : State} (h : (s.cfg.width : Int) < col + s.fontW.toNat) (y : Int) (ch : Byte)
    (rest : List Byte) : stringFrom y (ch :: rest) col s = .ok s := if_pos h

/-- A string whose reached characters all go through draws them and completes, at its end or before the first that does not fit (R184). -/
theorem drawString_complete {a : Align} {p : Point} {d : List Byte} {s : State} {k : Nat} (hv : s.fontV = true) (hk : k ≤ d.length)
    (hreached : ∀ i, stringReached a s p d.length i ↔ i < k) (hruns : StringRunsTo a s p d k 0 0) :
    drawString a p d s = .ok (writes (dotWrites s (stringDots a s p d k 0 0)) s) := by
  obtain ⟨hchars, hd⟩ := hruns
  rw [stringDots_zero] at hd
  have hdrop := stringFrom_drop (py p) s k d (stringStart a s p d.length) [] hk (fun i hi => ((hreached i).2 hi).2) hchars hd
  rw [writes, List.nil_append] at hdrop
  rw [drawString_of_font hv, hdrop, stringDots_zero]
  rcases hk.eq_or_lt with rfl | hlt
  · rw [List.drop_length]
    rfl
  · have hnofit : ¬stringCol a s p d.length k + s.fontW.toNat ≤ s.cfg.width := fun hfit =>
      lt_irrefl k ((hreached k).1 ⟨hlt, hfit⟩)
    rw [List.drop_eq_getElem_cons hlt]
    refine stringFrom_of_no_fit ?_ _ _ _
    rw [writes_cfg, writes_fontW]
    exact not_le.1 hnofit

/-- Settles O50: the characters reached are the first `k`, and nothing stops them. -/
theorem stringDrawsTheGlyphsThatFit : Obligations.StringDrawsTheGlyphsThatFit := by
  intro a p d s bpr ch bit reached col hv hwf hcode hbytes hpixels
  obtain ⟨k, hk, hreached⟩ := exists_reached_count a s p d.length
  have hmem (q : Int × Int × Bool) := mem_stringDots (a := a) (p := p) (d := d) (k := k) (r := 0) (q := q) (Nat.zero_le s.fontW.toNat)
  have hd : ∀ q ∈ stringDots a s p d k 0 0, DotDrawable s q := by
    intro q hq
    obtain ⟨i, r, c, hc, hir, rfl⟩ := (hmem q).1 hq
    obtain ⟨hsurface, hset⟩ := hpixels i r c ((hreached i).2 (by omega)) (by omega) hc
    exact ⟨hset, hsurface⟩
  have hruns : StringRunsTo a s p d k 0 0 :=
    ⟨fun i hi => ⟨hcode i ((hreached i).2 hi), fun j hj => hbytes i j ((hreached i).2 hi) hj⟩, hd⟩
  obtain ⟨t, hfinish, hframe, hdrawn, hother⟩ :=
    finish_dots hwf (oneBitEach_stringDots (Nat.zero_le _) a p d k) hd (2 + ceil4 d.length)
  refine ⟨t, ?_, hframe, fun i r c hi hr hc => ?_, fun b hb => hother b fun q hq => ?_⟩
  · rw [exec_stringInstr, drawString_complete hv hk hreached hruns, hfinish]
  · exact hdrawn _ ((hmem _).2 ⟨i, r, c, hc, .inl ⟨(hreached i).1 hi, hr⟩, rfl⟩)
  · obtain ⟨i, r, c, hc, hir, rfl⟩ := (hmem q).1 hq
    exact hb i r c ((hreached i).2 (by omega)) (by omega) hc

/-! ## Where a string stops -/

section
variable {a : Align} {p : Point} {d : List Byte} {s : State} {k : Nat} (hv : s.fontV = true) (hk : stringReached a s p d.length k)
include hv hk

/-- A code that the font contract does not cover (R184). -/
theorem drawString_stop_code (hcode : ¬Printable (d.getD k 0)) (hruns : StringRunsTo a s p d k 0 0) :
    drawString a p d s =
      .error (takeFault .operand 0 0 (d.getD k 0).toNat (writes (dotWrites s (stringDots a s p d k 0 0)) s)) := by
  refine drawString_stop a p d s k 0 0 hv hk hruns _ ?_
  rw [if_neg (mt (codeOk_iff _).1 hcode), stringDots_zero]

/-- A byte that is not in FONT (R186). -/
theorem drawString_stop_byte {j : Nat} (hcode : Printable (d.getD k 0)) (hj : j < glyphBytes s)
    (hbytes : ∀ i < j, fontIndex s (d.getD k 0) i < s.cfg.fontLen) (hmissing : s.cfg.fontLen ≤ fontIndex s (d.getD k 0) j)
    (hruns : StringRunsTo a s p d k (j / bytesPerRow s) 0) :
    drawString a p d s = .error (takeFault .fontAddr 0 0 (fontIndex s (d.getD k 0) j)
      (writes (dotWrites s (stringDots a s p d k (j / bytesPerRow s) 0)) s)) := by
  refine drawString_stop a p d s k _ 0 hv hk hruns _ ?_
  obtain ⟨_, hd⟩ := hruns
  have hglyph := glyphRows_stop_byte (stringCol a s p d.length k) (py p) (tableByte s (d.getD k 0)) (fontTableByte s (d.getD k 0)) j
    (fontIndex s (d.getD k 0) j) (writes (dotWrites s (charsDots s (py p) d (stringStart a s p d.length) k)) s)
  simp only [writes_fontH, bytesPerRow_writes, glyphDots_writes, dotDrawable_writes, dotWrites_writes, writes_dots_append] at hglyph
  rw [if_pos ((codeOk_iff _).2 hcode)]
  exact hglyph hj (fun i hi => tableByte_ok (hbytes i hi)) (tableByte_error hmissing) fun q hq => hd q (List.mem_append_right _ hq)

/-- A pixel that cannot be drawn (R182). -/
theorem drawString_stop_pixel {r c : Nat} (hcode : Printable (d.getD k 0)) (hr : r < s.fontH.toNat) (hc : c < s.fontW.toNat)
    (hbytes : ∀ j < (r + 1) * bytesPerRow s, fontIndex s (d.getD k 0) j < s.cfg.fontLen) (hruns : StringRunsTo a s p d k r c)
    (hbad : ¬DotDrawable s (stringCol a s p d.length k + c, py p + r, stringBit s d k r c)) :
    drawString a p d s = .error (dotStop s (glyphDot (stringCol a s p d.length k + c, py p + r, stringBit s d k r c))
      (writes (dotWrites s (stringDots a s p d k r c)) s)) := by
  refine drawString_stop a p d s k r c hv hk hruns _ ?_
  obtain ⟨_, hd⟩ := hruns
  have hglyph := glyphRows_stop (stringCol a s p d.length k) (py p) (tableByte s (d.getD k 0)) (fontTableByte s (d.getD k 0)) r c
    (writes (dotWrites s (charsDots s (py p) d (stringStart a s p d.length) k)) s)
  simp only [writes_fontH, writes_fontW, bytesPerRow_writes, glyphDots_writes, dotDrawable_writes, dotStop_writes, dotWrites_writes,
    writes_dots_append] at hglyph
  rw [if_pos ((codeOk_iff _).2 hcode)]
  exact hglyph hr hc (fun j hj => tableByte_ok (hbytes j hj)) (fun q hq => hd q (List.mem_append_right _ hq)) hbad

end

/-- Settles O51: the code is checked before its glyph is fetched, and the glyph's bytes row by row. -/
theorem stringFaultsAtABadCharacter : Obligations.StringFaultsAtABadCharacter := by
  intro a p d s k bpr ch hv hwf hk
  have hwrote (r : Nat) (hruns : StringRunsTo a s p d k r 0) := wrote_dots hwf (oneBitEach_stringDots (Nat.zero_le _) a p d k) hruns.2
  refine ⟨fun hcode hruns => ⟨_, ?_, hwrote 0 hruns⟩, fun j hcode hj hbytes hmissing hruns => ⟨_, ?_, hwrote (j / bpr) hruns⟩⟩
  · rw [exec_stringInstr, drawString_stop_code hv hk hcode hruns]
    rfl
  · rw [exec_stringInstr, drawString_stop_byte hv hk hcode hj hbytes hmissing hruns]
    rfl

/-- Settles O52: the pixels of the string up to the bad one are drawn, and the bad one decides the fault. -/
theorem stringFaultsAtItsFirstBadPixel : Obligations.StringFaultsAtItsFirstBadPixel := by
  intro a p d s k r c bpr bit col before hv hwf hk hcode hr hc hbytes hruns
  refine faults_at_dot (q := (col + c, py p + r, bit)) hwf (oneBitEach_stringDots hc.le a p d k) hruns.2 fun hbad => ?_
  rw [exec_stringInstr, drawString_stop_pixel hv hk hcode hr hc hbytes hruns hbad]
  rfl

end Sys2Proof.Machine
end

section
/-! PROOFS. BLIT and READBACK: both go through the elements of one block by number, every element has a position of its own, and the two
directions put the same rows in opposite orders; what each command leaves when nothing stops it, that the two undo each other, and what
the first element that cannot be moved leaves (spec 46_image.md R190 to R194, 60_exceptions.md R203, R204). -/

namespace Sys2Proof.Machine

/-! ## The positions of a block -/

theorem blockRow_injective (d : Dir) (y : Int) (h : Nat) : Function.Injective (blockRow d y h) := by
  intro j j' heq
  cases d <;> simp only [blockRow] at heq <;> omega

/-- Upwards, source row `j` goes where downwards the row as far from the end does (R191). -/
theorem blockRow_up {h j : Nat} (hj : j < h) (y : Int) : blockRow .up y h j = blockRow .dn y h (h - 1 - j) := by
  simp only [blockRow]
  omega

/-- In either direction a source row goes to a row of the rectangle. -/
theorem exists_blockRow_eq {h j : Nat} (hj : j < h) (d : Dir) (y : Int) : ∃ j' < h, blockRow d y h j = y + (j' : Nat) := by
  cases d with
  | dn => exact ⟨j, hj, rfl⟩
  | up => exact ⟨h - 1 - j, by omega, blockRow_up hj y⟩

section
variable {d : Dir} {p : Point} {w h : Nat}

/-- Element `i` of row `j` is in column `i` of the surface row of row `j` (R190). -/
theorem blockPos_mul_add {i : Nat} (hi : i < w) (j : Nat) : blockPos d p w h (j * w + i) = (px p + i, blockRow d (py p) h j) := by
  rw [blockPos, Nat.mul_comm, Nat.mul_add_div (by omega), Nat.mul_add_mod, Nat.div_eq_of_lt hi, Nat.mod_eq_of_lt hi, Nat.add_zero]

/-- No two elements have the same position. -/
theorem blockPos_injective : Function.Injective (blockPos d p w h) := by
  intro k k' heq
  obtain ⟨hcol, hrow⟩ := Prod.mk.inj heq
  have hmod : k % w = k' % w := by omega
  rw [← Nat.div_add_mod k w, hmod, blockRow_injective d _ h hrow, Nat.div_add_mod]

theorem mul_add_lt_area {i j : Nat} (hj : j < h) (hi : i < w) : j * w + i < w * h := by
  have hrow : (j + 1) * w ≤ h * w := Nat.mul_le_mul_right w hj
  rw [Nat.add_mul] at hrow
  rw [Nat.mul_comm w h]
  omega

/-- Every element of the block is in a row and a column of the rectangle. -/
theorem exists_blockPos_eq {k : Nat} (hk : k < w * h) (d : Dir) (p : Point) :
    ∃ j < h, ∃ i < w, blockPos d p w h k = (px p + (i : Nat), py p + (j : Nat)) := by
  have hw : 0 < w := Nat.pos_of_mul_pos_right (Nat.zero_lt_of_lt hk)
  obtain ⟨j, hj, hrow⟩ := exists_blockRow_eq (Nat.div_lt_of_lt_mul hk) d (py p)
  exact ⟨j, hj, k % w, Nat.mod_lt k hw, Prod.ext rfl hrow⟩

/-- Element `k` of a block is on the surface. -/
def ElementInside (s : State) (d : Dir) (p : Point) (w h k : Nat) : Prop :=
  inSurface s (blockPos d p w h k).1 (blockPos d p w h k).2 = true

/-- The pixel index of element `k` of a block. -/
def elementIndex (s : State) (d : Dir) (p : Point) (w h k : Nat) : Nat :=
  pixIndex s (blockPos d p w h k).1 (blockPos d p w h k).2

variable {s : State}

theorem RectOnSurface.elementInside (hrect : RectOnSurface s p w h) (d : Dir) {k : Nat} (hk : k < w * h) :
    ElementInside s d p w h k := by
  obtain ⟨j, hj, i, hi, hpos⟩ := exists_blockPos_eq hk d p
  rw [ElementInside, hpos]
  exact hrect j i hj hi

theorem RectOnSurface.inSurface_destRow (hrect : RectOnSurface s p w h) (d : Dir) {i j : Nat} (hj : j < h) (hi : i < w) :
    inSurface s (px p + i) (destRow d (py p) h j) = true := by
  obtain ⟨j', hj', hrow⟩ := exists_blockRow_eq hj d (py p)
  rw [destRow_eq, hrow]
  exact hrect j' i hj' hi

/-! ## The pixels of a block -/

/-- The pixel of element `k` of a block (R193). -/
def blockPixel (s : State) (d : Dir) (p : Point) (w h k : Nat) : Pixel := readFb s (elementIndex s d p w h k)

theorem blockPixels_eq (s : State) (d : Dir) (p : Point) (w h : Nat) :
    blockPixels s d p w h = (List.range (w * h)).map (blockPixel s d p w h) := by
  have hrows := flatMap_rows (fun (j i : Nat) => readFb s (pixIndex s (px p + i) (blockRow d (py p) h j))) w (h * w) h
  rw [Nat.min_self, Nat.mul_comm] at hrows
  refine Eq.trans (List.flatMap_congr fun j hj => ?_) hrows
  have hrow : (j + 1) * w ≤ h * w := Nat.mul_le_mul_right w (List.mem_range.1 hj)
  rw [Nat.add_mul] at hrow
  rw [Nat.mul_comm w h, Nat.min_eq_right (by omega)]

theorem length_blockPixels : (blockPixels s d p w h).length = w * h := by
  rw [blockPixels_eq, List.length_map, List.length_range]

theorem getElem?_blockPixels {k : Nat} (hk : k < w * h) : (blockPixels s d p w h)[k]? = some (blockPixel s d p w h k) := by
  rw [blockPixels_eq, List.getElem?_map, List.getElem?_range hk, Option.map_some]

/-- A block whose elements hold the values of a list has that list for its pixels. -/
theorem blockPixels_eq_of_elements {l : List Half} (hlen : l.length = w * h)
    (hl : ∀ k < w * h, blockPixel s d p w h k = l.getD k 0) : blockPixels s d p w h = l := by
  refine List.ext_getElem? fun k => ?_
  by_cases hk : k < w * h
  · have hkl : k < l.length := hlen ▸ hk
    rw [getElem?_blockPixels hk, hl k hk, List.getD_eq_getElem l 0 hkl, List.getElem?_eq_getElem hkl]
  · have hle : w * h ≤ k := Nat.le_of_not_lt hk
    rw [List.getElem?_eq_none (length_blockPixels.trans_le hle), List.getElem?_eq_none (hlen.trans_le hle)]

/-- Upwards a block has the rows that it has downwards, in reverse order (R194). -/
theorem blockPixel_up {i j : Nat} (hj : j < h) (hi : i < w) :
    blockPixel s .up p w h (j * w + i) = blockPixel s .dn p w h ((h - 1 - j) * w + i) := by
  rw [blockPixel, blockPixel, elementIndex, elementIndex, blockPos_mul_add hi, blockPos_mul_add hi, blockRow_up hj]

end

/-! ## BLIT -/

/-- The first `n` elements of a BLIT with their positions, in order (R190). -/
def blitItems (d : Dir) (p : Point) (w h : Nat) (l : List Half) (n : Nat) : List (Int × Int × Half) :=
  (List.range n).map (blitItem d p w h l)

/-- The state after the first `n` elements of a BLIT are written. -/
def afterBlit (d : Dir) (p : Point) (w h : Nat) (l : List Half) (n : Nat) (s : State) : State :=
  writes ((blitItems d p w h l n).map fun q => (pixIndex s q.1 q.2.1, q.2.2)) s

/-- Elements written on the surface are all there afterwards, as no two of them have the same position. -/
theorem wrote_blitItems {d : Dir} {p : Point} {w h n : Nat} {s : State} (hwf : s.fb.wf = true)
    (hin : ∀ i < n, ElementInside s d p w h i) (l : List Half) :
    Wrote s (afterBlit d p w h l n s) (blitItems d p w h l n) := by
  refine wrote_of_writes _ s hwf fun q hq q' hq' hindex => ?_
  obtain ⟨i, hi, rfl⟩ := List.mem_map.1 hq
  obtain ⟨i', hi', rfl⟩ := List.mem_map.1 hq'
  obtain ⟨hcol, hrow⟩ := pixIndex_inj s (hin i (List.mem_range.1 hi)) (hin i' (List.mem_range.1 hi')) hindex
  obtain rfl : i = i' := blockPos_injective (Prod.ext hcol hrow)
  rfl

/-- A BLIT of native elements on the surface leaves each of them at its position, and changes nothing else but CP (R190). -/
theorem exec_blit_completes (d : Dir) {p : Point} {w h : Half} {l : List Half} {s : State} (hlen : l.length = w.toNat * h.toNat)
    (hwf : s.fb.wf = true) (hnative : ∀ e ∈ l, native s e) (hrect : RectOnSurface s p w.toNat h.toNat) :
    ∃ t, exec (blitInstr d p w h l) s = .next t ∧
      t = { s with fb := t.fb, cp := s.cp + BitVec.ofNat 32 (3 + (w.toNat * h.toNat + 1) / 2) } ∧ t.fb.wf = true ∧
      (∀ k < w.toNat * h.toNat, blockPixel t d p w.toNat h.toNat k = l.getD k 0) ∧
      ∀ a, (∀ k < w.toNat * h.toNat, elementIndex s d p w.toNat h.toNat k ≠ a) →
        readFb t a = readFb s a := by
  have hin : ∀ k < w.toNat * h.toNat, ElementInside s d p w.toNat h.toNat k :=
    fun k hk => hrect.elementInside d hk
  have hrun : blit d p w h l s = .ok (afterBlit d p w.toNat h.toNat l (w.toNat * h.toNat) s) := by
    rw [blit_eq, hlen, Nat.mul_comm h.toNat, Nat.min_self]
    refine forEach_putStep_ok _ s fun q hq => ?_
    obtain ⟨k, hk, rfl⟩ := List.mem_map.1 hq
    have hk : k < w.toNat * h.toNat := List.mem_range.1 hk
    refine ⟨hnative _ ?_, hin k hk⟩
    rw [blitItem, List.getD_eq_getElem l 0 (hlen ▸ hk)]
    exact List.getElem_mem _
  obtain ⟨_, hwf', hwritten, hother⟩ := wrote_blitItems hwf hin l
  simp only [blitItems, List.forall_mem_map, List.mem_range] at hwritten hother
  rw [exec_blitInstr, hrun]
  exact ⟨_, finish_writes _ _ s, rfl, hwf', hwritten, hother⟩

/-- Settles O53: the elements by number are the columns of the source rows, and their positions are those of the rectangle. -/
theorem blitWritesItsBlock : Obligations.BlitWritesItsBlock := by
  intro d p w h l s hlen hwf hnative hrect
  obtain ⟨t, hexec, hframe, _, hwritten, hother⟩ := exec_blit_completes d hlen hwf hnative hrect
  refine ⟨t, hexec, hframe, fun j i hj hi => ?_, fun a ha => hother a fun k hk => ?_⟩
  · rw [← hwritten _ (mul_add_lt_area hj hi), blockPixel, elementIndex, blockPos_mul_add hi, hframe]
    rfl
  · obtain ⟨j, hj, i, hi, hpos⟩ := exists_blockPos_eq hk d p
    rw [elementIndex, hpos]
    exact ha j i hj hi

/-! ## READBACK -/

theorem Emitted.out_eq {s t : State} {len : Nat} {ws : List Word} (h : Emitted s t len ws) : t.out = s.out ++ ws :=
  congrArg State.out h.1

/-- A READBACK on the surface emits the pixels of its block, and changes nothing else but CP (R193). -/
theorem exec_readback_completes {s : State} (hread : s.cfg.hasRead = true) (d : Dir) {p : Point} {w h : Half}
    (hrect : RectOnSurface s p w.toNat h.toNat) :
    ∃ t, exec (readbackInstr d p w h) s = .next t ∧ Emitted s t 3 (packHalfRun (blockPixels s d p w.toNat h.toNat)) := by
  rw [exec_readbackInstr_of_hasRead hread, readback_ok d p w h s fun _ _ hj hi => hrect.inSurface_destRow d hj hi]
  exact emitted_of_emitAll _ s 3

/-- Without a read path READBACK's header is an illegal one (R90). -/
theorem exec_readbackInstr_of_noRead {s : State} (hread : s.cfg.hasRead = false) (d : Dir) (p : Point) (w h : Half) :
    exec (readbackInstr d p w h) s = finish 3 (raise .illegal (headerOf (readbackInstr d p w h)).toNat s) := by
  cases d <;> exact congrArg (finish 3) (if_neg (Bool.eq_false_iff.1 hread))

/-- Settles O54: the read path is checked first, and then nothing stops the block's reads. -/
theorem readbackEmitsItsBlock : Obligations.ReadbackEmitsItsBlock := by
  refine fun d p w h s => ⟨fun hread hrect => exec_readback_completes hread d hrect,
    fun hread => ⟨headerOf (readbackInstr d p w h), ?_, ?_⟩⟩
  · cases d <;> rfl
  · rw [exec_readbackInstr_of_noRead hread]
    rfl

/-! ## The round trips (R194) -/

/-- READBACK of the block that a BLIT in the same direction has written emits the BLIT's data words. -/
theorem exec_readback_after_blit {s : State} (hread : s.cfg.hasRead = true) (hwf : s.fb.wf = true) (d : Dir) {p : Point} {w h : Half}
    (hrect : RectOnSurface s p w.toNat h.toNat) {l : List Half} (hlen : l.length = w.toNat * h.toNat) (hnative : ∀ e ∈ l, native s e) :
    ∃ t u, exec (blitInstr d p w h l) s = .next t ∧ exec (readbackInstr d p w h) t = .next u ∧ Emitted t u 3 (packHalfRun l) ∧
      t.out = s.out := by
  obtain ⟨t, hblit, hframe, _, hwritten, _⟩ := exec_blit_completes d hlen hwf hnative hrect
  have hcfg : t.cfg = s.cfg := exec_cfg hblit
  have hrect' : RectOnSurface t p w.toNat h.toNat := by
    simpa only [RectOnSurface, inSurface, hcfg] using hrect
  obtain ⟨u, hreadback, hemitted⟩ := exec_readback_completes (hcfg ▸ hread) d hrect'
  rw [blockPixels_eq_of_elements hlen hwritten] at hemitted
  exact ⟨t, u, hblit, hreadback, hemitted, by rw [hframe]⟩

/-- A BLIT of the pixels that its block holds changes no pixel. -/
theorem exec_blit_blockPixels {s : State} (hwf : s.fb.wf = true) (hnative : ∀ a, native s (readFb s a)) (d : Dir) {p : Point} {w h : Half}
    (hrect : RectOnSurface s p w.toNat h.toNat) :
    exec (blitInstr d p w h (blockPixels s d p w.toNat h.toNat)) s =
      .next { s with cp := s.cp + BitVec.ofNat 32 (3 + (w.toNat * h.toNat + 1) / 2) } := by
  have hpixels : ∀ e ∈ blockPixels s d p w.toNat h.toNat, native s e := by
    rw [blockPixels_eq, List.forall_mem_map]
    exact fun k _ => hnative _
  obtain ⟨t, hexec, hframe, hwf', hwritten, hother⟩ := exec_blit_completes d length_blockPixels hwf hpixels hrect
  have hsame : ∀ a, readFb t a = readFb s a := fun a => by
    by_cases ha : ∀ k < w.toNat * h.toNat, elementIndex s d p w.toNat h.toNat k ≠ a
    · exact hother a ha
    · push Not at ha
      obtain ⟨k, hk, rfl⟩ := ha
      have helement := hwritten k hk
      rw [List.getD_eq_getElem?_getD, getElem?_blockPixels hk, Option.getD_some, blockPixel, elementIndex, pixIndex, exec_cfg hexec] at helement
      exact helement
  have hfb : t.fb = s.fb := Memory.ext_of_wf _ _ hwf' hwf hsame
  rw [hexec, hframe, hfb]

/-- Settles O55: (a) and (b) by the block's elements, and (c) as upwards and downwards meet the same rows from opposite ends. -/
theorem blitAndReadbackAreInverse : Obligations.BlitAndReadbackAreInverse := by
  intro d p w h s hread hwf hrect
  refine ⟨fun l hlen hnative => ?_, fun hnative => ?_, ?_⟩
  · obtain ⟨t, u, hblit, hreadback, hemitted, hout⟩ := exec_readback_after_blit hread hwf d hrect hlen hnative
    exact ⟨t, u, hblit, hreadback, hemitted, hout ▸ hemitted.out_eq⟩
  · obtain ⟨t, hreadback, hemitted⟩ := exec_readback_completes hread d hrect
    exact ⟨t, _, hreadback, hemitted.out_eq, length_blockPixels, exec_blit_blockPixels hwf hnative d hrect⟩
  · obtain ⟨t, hdown, hemittedDown⟩ := exec_readback_completes hread .dn hrect
    obtain ⟨u, hup, hemittedUp⟩ := exec_readback_completes hread .up hrect
    refine ⟨t, u, _, _, hdown, hemittedDown.out_eq, length_blockPixels, hup, hemittedUp.out_eq, length_blockPixels, fun j i hj hi => ?_⟩
    rw [getElem?_blockPixels (mul_add_lt_area hj hi), getElem?_blockPixels (mul_add_lt_area (by omega) hi), blockPixel_up hj hi]

/-! ## Where a block stops -/

/-- An element that is no native colour stops a BLIT wherever it lies: the colour check comes before the bounds check (R190, R204). -/
theorem putStep_of_wide {q : Int × Int × Half} {s : State} (h : 2 ^ s.cfg.pixfmt.bpp ≤ q.2.2.toNat) :
    putStep q s = raise .operand q.2.2.toNat s := by
  rw [putStep, checkColor_of_wide h]
  rfl

theorem putStep_of_outside {q : Int × Int × Half} {s : State} (h : native s q.2.2) (hout : inSurface s q.1 q.2.1 = false) :
    putStep q s = raiseRange q.1 q.2.1 s := by
  rw [putStep, checkColor_of_native h, andThen_ok, pixWrite_of_outside hout]

/-- A BLIT stops where the step of element `k` does, after the elements before it (R190, R203). -/
theorem exec_blit_stops {d : Dir} {p : Point} {w h : Half} {l : List Half} {s : State} {k : Nat} (hk : k < w.toNat * h.toNat)
    (hl : k < l.length) (hnative : ∀ i < k, native s (l.getD i 0))
    (hin : ∀ i < k, ElementInside s d p w.toNat h.toNat i) {e : State}
    (hstop : putStep (blitItem d p w.toNat h.toNat l k) (afterBlit d p w.toNat h.toNat l k s) = .error e) :
    exec (blitInstr d p w h l) s = .next e := by
  rw [exec_blitInstr, blit_stop d p w h l s k hk hl (fun i hi => ⟨hnative i hi, hin i hi⟩) e hstop]
  rfl

/-- Emitting words changes OUT and OUT_COUNT alone (R59). -/
theorem emitted_emitAll (ws : List Word) (s : State) : Emitted s (emitAll ws s) 0 ws := by
  obtain ⟨t, ht, hemitted⟩ := emitted_of_emitAll ws s 0
  rw [finish_zero] at ht
  obtain rfl := Host.Outcome.next.inj ht
  exact hemitted

/-- A READBACK stops at its first position outside the surface, the completed pairs before it emitted (R193, R203). -/
theorem exec_readback_stops {s : State} (hread : s.cfg.hasRead = true) {d : Dir} {p : Point} {w h : Half} {k : Nat}
    (hk : k < w.toNat * h.toNat)
    (hin : ∀ i < k, ElementInside s d p w.toNat h.toNat i)
    (hout : ¬ElementInside s d p w.toNat h.toNat k) :
    exec (readbackInstr d p w h) s = .next (takeFault .range (blockPos d p w.toNat h.toNat k).1 (blockPos d p w.toNat h.toNat k).2 0
      (emitAll (packHalfRun ((blockPixels s d p w.toNat h.toNat).take (2 * (k / 2)))) s)) := by
  have hpairs : (blockPixels s d p w.toNat h.toNat).take (2 * (k / 2)) =
      ((List.range k).map (blockPixel s d p w.toNat h.toNat)).take (2 * (k / 2)) := by
    rw [blockPixels_eq, ← List.map_take, ← List.map_take, List.take_range, List.take_range, Nat.min_eq_left (by omega),
      Nat.min_eq_left (by omega)]
  rw [exec_readbackInstr_of_hasRead hread, readback_stop d p w h s k hk hin (Bool.eq_false_iff.2 hout), hpairs]
  rfl

/-- Settles O59: the elements before element `k` are moved, and element `k` decides the fault. -/
theorem blocksFaultAtTheirFirstElement : Obligations.BlocksFaultAtTheirFirstElement := by
  intro d p w h s k pos hk hin
  refine ⟨?_, fun hread hout => ⟨_, exec_readback_stops hread hk hin (Bool.eq_false_iff.1 hout), emitted_emitAll _ s⟩⟩
  intro l hwf hl hnative before
  have hcfg : (afterBlit d p w.toNat h.toNat l k s).cfg = s.cfg := writes_cfg _ s
  have hwrote : Wrote s (afterBlit d p w.toNat h.toNat l k s) before := wrote_blitItems hwf hin l
  refine ⟨fun hwide => ⟨_, ?_, hwrote⟩, fun helement hout => ⟨_, ?_, hwrote⟩⟩
  · exact exec_blit_stops hk hl hnative hin (putStep_of_wide (hcfg ▸ hwide))
  · refine exec_blit_stops hk hl hnative hin (putStep_of_outside ?_ ?_)
    · rw [native, hcfg]
      exact helement
    · rw [afterBlit, inSurface_writes]
      exact hout

end Sys2Proof.Machine
end

section
/-! PROOFS. What a fault leaves, how a run ends, and that no step reads a register whose valid bit is 0 (spec 10_state.md R24 to R26,
60_exceptions.md R203, R206, 70_reset_and_hazards.md R233, R234). -/

namespace Sys2Proof.Machine

/-! ## Faults -/

/-- Settles O14: only pixels and output precede a fault entry, and a fault entry writes the five registers of R206. -/
theorem faultEntryKeepsOtherRegisters : Obligations.FaultEntryKeepsOtherRegisters := by
  intro i s t hrun h hfault
  obtain ⟨u, hu, rfl⟩ | hstop := exec_cases h
  · exact absurd hfault (hu.runState_ne_fault (by simp [hrun]))
  · refine ⟨?_, hstop.cause_ne_none⟩
    obtain ⟨_, c, x, y, info, ⟨fb, out, n, _, _, _⟩, _, _, rfl⟩ := hstop
    rfl

/-! ## The end of a run -/

theorem run_succ {s t : State} (h : step s = .next t) (k : Nat) : Host.Core.run core (k + 1) s = Host.Core.run core k t := by
  have hstep : core.step s = .next t := h
  simp only [Host.Core.run, hstep]

/-- The codes of the faults (R202). -/
theorem Cause.code_of_ne_none {c : Cause} (h : c ≠ .none) : 1 ≤ c.code.toNat ∧ c.code.toNat ≤ 7 := by
  cases c with
  | none => exact absurd rfl h
  | _ => exact ⟨by decide, by decide⟩

/-- A run has ended as R233 says: by END with CAUSE = 0, or by a fault with CAUSE in 1..7. -/
def Ended (t : State) : Prop :=
  (t.runState = .halt ∧ t.cause.code = 0) ∨ (t.runState = .fault ∧ 1 ≤ t.cause.code.toNat ∧ t.cause.code.toNat ≤ 7)

/-- With the invariant a state that has left RUN has the CAUSE of its STATE (R28, R202). -/
theorem ended_of_stopped {t : State} (hinv : Inv t) (h : t.runState ≠ .run) : Ended t := by
  cases hstate : t.runState with
  | run => exact absurd hstate h
  | halt =>
    obtain ⟨hcause, _⟩ := hinv.clear (by simp [hstate])
    exact .inl ⟨hstate, by rw [hcause]; rfl⟩
  | fault =>
    obtain ⟨hcause, _⟩ := hinv.recorded hstate
    exact .inr ⟨hstate, Cause.code_of_ne_none hcause⟩

/-- A step that leaves the engine running has run a command, and CP has moved forward without a wrap (R21, R81). -/
theorem step_cp_lt {s t : State} (hinv : Inv s) (h : step s = .next t) (hrun : t.runState = .run) : s.cp.toNat < t.cp.toNat := by
  obtain ⟨hs, _, ⟨i, hfetch, hexec⟩ | ⟨r, _, rfl⟩⟩ := step_cases h
  · have hinside := fetch_packet_inside hfetch
    have hpos := packetWords_pos i
    obtain ⟨_, _, _, _, hlen, _⟩ := (launchOk_iff s.cfg).1 hinv.launch
    obtain ⟨hfault, _⟩ | ⟨_, hcp⟩ := exec_cp (by simp [hs]) hexec
    · simp [hrun] at hfault
    · rw [hcp, BitVec.toNat_add, BitVec.toNat_ofNat]
      omega
  · obtain ⟨c, info, _, heq⟩ := takeReject_eq r s
    simp [heq] at hrun

/-- Settles O20, by induction on the words left in CMD: a step that does not end the run takes at least one of them. -/
theorem everyRunEnds : Obligations.EveryRunEnds := by
  intro s hinv hrun
  induction hleft : s.cfg.cmd.length - s.cp.toNat using Nat.strong_induction_on generalizing s with
  | _ n ih =>
    obtain ⟨t, hstep⟩ := step_answers_of_running ⟨hrun, hinv.launch⟩
    have ht := everyStepKeepsTheInvariant s t hinv hstep
    by_cases hgoes : t.runState = .run
    · have hcp := step_cp_lt hinv hstep hgoes
      have hinside := ht.cpInside
      rw [← launchParametersNeverChange s t hstep] at hleft
      obtain ⟨k, u, hk, hu, hended⟩ := ih _ (by omega) t ht hgoes rfl
      exact ⟨k + 1, u, by omega, (run_succ hstep k).trans hu, hended⟩
    · exact ⟨1, t, by omega, run_succ hstep 0, ended_of_stopped ht hgoes⟩

/-! ## Masking the registers that have not been set

A command and the masking of the unset registers commute, so a step gives the same visible outcome from a state and from its visible
part. The font registers are masked by a bit `keep` of its own and not by the state's FONT_V: a glyph's loops read them only behind
FONT_V = 1, and with `keep` set they commute with the mask whatever FONT_V is. -/

/-- The state with the colour registers masked by their valid bits and the font registers masked unless `keep`. -/
def mask (keep : Bool) (s : State) : State :=
  { s with
    fg := if s.fgV then s.fg else 0
    bg := if s.bgV then s.bg else 0
    fontW := if keep then s.fontW else 0
    fontH := if keep then s.fontH else 0
    fontBase := if keep then s.fontBase else 0 }

/-- Masking by FONT_V leaves what a rule may read (R234). -/
theorem visible_eq_mask (s : State) : visible s = mask s.fontV s := rfl

@[simp] theorem mask_cfg (keep : Bool) (s : State) : (mask keep s).cfg = s.cfg := rfl
@[simp] theorem mask_fontV (keep : Bool) (s : State) : (mask keep s).fontV = s.fontV := rfl
@[simp] theorem mask_true_fontW (s : State) : (mask true s).fontW = s.fontW := rfl
@[simp] theorem bytesPerRow_mask_true (s : State) : bytesPerRow (mask true s) = bytesPerRow s := rfl
@[simp] theorem glyphBytes_mask_true (s : State) : glyphBytes (mask true s) = glyphBytes s := rfl
@[simp] theorem tableByte_mask_true (s : State) : tableByte (mask true s) = tableByte s := rfl

theorem mask_fg_of_set (keep : Bool) (s : State) (h : s.fgV = true) : (mask keep s).fg = s.fg := if_pos h

theorem mask_bg_of_set (keep : Bool) (s : State) (h : s.bgV = true) : (mask keep s).bg = s.bg := if_pos h

/-- A piece of a command with its values mapped by `g` and the state after a fault entry masked. -/
def maskFlow {α β : Type} (keep : Bool) (g : α → β) : Flow α → Flow β
  | .ok a => .ok (g a)
  | .error e => .error (mask keep e)

/-- The outcome of a step with its next state masked. -/
def maskOutcome (keep : Bool) : Host.Outcome State Fault Refusal → Host.Outcome State Fault Refusal
  | .next s => .next (mask keep s)
  | .fault f => .fault f
  | .refused r => .refused r

section
variable {keep : Bool} {α β : Type}

/-! ### Sequences and loops -/

/-- A check whose condition the mask does not touch commutes with it when both branches do. -/
theorem ite_maskFlow {g : α → β} {c : Prop} [Decidable c] {f₁ f₂ : Flow α} {f₁' f₂' : Flow β} (h₁ : c → f₁' = maskFlow keep g f₁)
    (h₂ : ¬c → f₂' = maskFlow keep g f₂) : (if c then f₁' else f₂') = maskFlow keep g (if c then f₁ else f₂) := by
  split
  · exact h₁ ‹_›
  · exact h₂ ‹_›

theorem andThen_maskFlow {g : α → α} {rule : α → Flow α} (h : ∀ a, rule (g a) = maskFlow keep g (rule a)) (f : Flow α) :
    andThen (maskFlow keep g f) rule = maskFlow keep g (andThen f rule) := by
  cases f with
  | ok a => exact h a
  | error e => rfl

/-- A loop commutes with the mask when its body does. -/
theorem forEach_mask {g : α → α} {body : β → α → Flow α} (h : ∀ b a, body b (g a) = maskFlow keep g (body b a)) :
    ∀ (l : List β) (a : α), forEach body l (g a) = maskFlow keep g (forEach body l a)
  | [], _ => rfl
  | b :: bs, a => by
    rw [forEach_cons, forEach_cons, h]
    exact andThen_maskFlow (forEach_mask h bs) (body b a)

/-- A counted loop commutes with the mask when its body does. -/
theorem forUp_mask {g : α → α} {body : Nat → α → Flow α} (h : ∀ i a, body i (g a) = maskFlow keep g (body i a)) (i n : Nat)
    (a : α) : forUp body i n (g a) = maskFlow keep g (forUp body i n a) := by
  rw [forUp_eq_forEach, forUp_eq_forEach, forEach_mask h]

/-- The end of a step commutes with the mask: it moves CP alone. -/
theorem finish_mask {f f' : Flow State} (h : f' = maskFlow keep (mask keep) f) (len : Nat) :
    finish len f' = maskOutcome keep (finish len f) := by
  subst h
  cases f <;> rfl

/-! ### Pixels and output -/

variable (s : State)

theorem checkColor_mask (c : Half) : checkColor c (mask keep s) = maskFlow keep (mask keep) (checkColor c s) :=
  ite_maskFlow (fun _ => rfl) fun _ => rfl

/-- A rule that runs after the check of a colour field. -/
theorem checked_mask {rule : State → Flow State} (h : ∀ a, rule (mask keep a) = maskFlow keep (mask keep) (rule a)) (c : Half) :
    andThen (checkColor c (mask keep s)) rule = maskFlow keep (mask keep) (andThen (checkColor c s) rule) := by
  rw [checkColor_mask, andThen_maskFlow h]

theorem pixWrite_mask (x y : Int) (c : Pixel) : pixWrite x y c (mask keep s) = maskFlow keep (mask keep) (pixWrite x y c s) :=
  ite_maskFlow (fun _ => rfl) fun _ => rfl

theorem pixRead_mask (x y : Int) : pixRead x y (mask keep s) = maskFlow keep id (pixRead x y s) :=
  ite_maskFlow (fun _ => rfl) fun _ => rfl

/-- A plot reads a colour register only behind its valid bit (R57). -/
theorem plot_mask (x y : Int) (ink : Ink) : plot x y ink (mask keep s) = maskFlow keep (mask keep) (plot x y ink s) := by
  cases ink with
  | fg => exact ite_maskFlow (fun hset => by rw [mask_fg_of_set keep s hset, pixWrite_mask]) fun _ => rfl
  | bg => exact ite_maskFlow (fun hset => by rw [mask_bg_of_set keep s hset, pixWrite_mask]) fun _ => rfl

theorem fillAll_mask (c : Pixel) : fillAll c (mask keep s) = maskFlow keep (mask keep) (fillAll c s) :=
  forUp_mask (body := fun i a => .ok (writeFb i c a)) (fun _ _ => rfl) 0 (s.cfg.width * s.cfg.height) s

theorem needRead_mask {act : State → Flow State} (h : act (mask keep s) = maskFlow keep (mask keep) (act s)) (header : Word) :
    needRead header act (mask keep s) = maskFlow keep (mask keep) (needRead header act s) :=
  ite_maskFlow (fun _ => h) fun _ => rfl

theorem emitPixel_mask (x y : Int) : emitPixel x y (mask keep s) = maskFlow keep (mask keep) (emitPixel x y s) := by
  simp only [emitPixel, pixRead_mask]
  cases pixRead x y s <;> rfl

/-- The element held by a READBACK is no register of the state (R193). -/
theorem readStep_mask (x y : Int) (a : Held) :
    readStep x y (a.1, mask keep a.2) = maskFlow keep (fun b : Held => (b.1, mask keep b.2)) (readStep x y a) := by
  obtain ⟨held, s⟩ := a
  simp only [readStep, pixRead_mask]
  cases pixRead x y s with
  | error e => rfl
  | ok v => cases held <;> rfl

theorem readback_mask (d : Dir) (p : Point) (w h : Half) :
    readback d p w h (mask keep s) = maskFlow keep (mask keep) (readback d p w h s) := by
  have hloop := forEach_mask (keep := keep) (g := fun b : Held => (b.1, mask keep b.2))
    (body := fun q : Int × Int => readStep q.1 q.2) (fun q a => readStep_mask q.1 q.2 a)
    ((List.range (h.toNat * w.toNat)).map (blockPos d p w.toNat h.toNat)) (none, s)
  simp only [readback_eq, hloop]
  generalize forEach _ _ _ = f
  cases f with
  | error e => rfl
  | ok a =>
    obtain ⟨held, u⟩ := a
    cases held <;> rfl

theorem blit_mask (d : Dir) (p : Point) (w h : Half) (l : List Half) :
    blit d p w h l (mask keep s) = maskFlow keep (mask keep) (blit d p w h l s) := by
  rw [blit_eq, blit_eq]
  exact forEach_mask (fun q a => checked_mask a (fun u => pixWrite_mask u q.1 q.2.1 q.2.2) q.2.2) _ s

/-! ### Glyphs, the font registers kept -/

theorem glyphRow_mask (x y : Int) (byteAt : ByteAt) (r : Nat) :
    glyphRow x y byteAt r (mask true s) = maskFlow true (mask true) (glyphRow x y byteAt r s) := by
  simp only [glyphRow, bytesPerRow_mask_true]
  cases rowBits byteAt (r * bytesPerRow s) (bytesPerRow s) 0 with
  | ok bits => exact forUp_mask (fun c a => plot_mask a _ _ _) 0 s.fontW.toNat s
  | error a => rfl

theorem glyphRows_mask (x y : Int) (byteAt : ByteAt) :
    glyphRows x y byteAt (mask true s) = maskFlow true (mask true) (glyphRows x y byteAt s) :=
  forUp_mask (fun r a => glyphRow_mask a x y byteAt r) 0 s.fontH.toNat s

theorem stringFrom_mask (y : Int) : ∀ (d : List Byte) (col : Int) (s : State),
    stringFrom y d col (mask true s) = maskFlow true (mask true) (stringFrom y d col s)
  | [], _, _ => rfl
  | ch :: rest, col, s => by
    simp only [stringFrom, mask_true_fontW, mask_cfg, tableByte_mask_true, glyphRows_mask]
    split
    · rfl
    · split
      · rfl
      · cases glyphRows col y (tableByte s ch) s with
        | ok s' => exact stringFrom_mask y rest _ s'
        | error e => rfl

/-- STRING reads the font registers only behind FONT_V (R184). -/
theorem drawString_mask (hkeep : s.fontV = true → keep = true) (a : Align) (p : Point) (d : List Byte) :
    drawString a p d (mask keep s) = maskFlow keep (mask keep) (drawString a p d s) := by
  cases hfont : s.fontV with
  | false =>
    rw [drawString_of_noFont hfont, drawString_of_noFont (by rw [mask_fontV, hfont])]
    rfl
  | true =>
    obtain rfl := hkeep hfont
    rw [drawString_of_font hfont, drawString_of_font (by rw [mask_fontV, hfont])]
    exact stringFrom_mask _ _ _ _

/-! ### Commands and steps -/

/-- GLYPH reads the font registers only behind FONT_V (R180). -/
theorem exec_glyph_mask (hkeep : s.fontV = true → keep = true) (p : Point) (d : List Byte) :
    exec (.glyph p d) (mask keep s) = maskOutcome keep (exec (.glyph p d) s) := by
  cases hfont : s.fontV with
  | false =>
    rw [exec_glyph_of_noFont hfont, exec_glyph_of_noFont (by rw [mask_fontV, hfont])]
    rfl
  | true =>
    obtain rfl := hkeep hfont
    rw [exec_glyph_of_font hfont, exec_glyph_of_font (by rw [mask_fontV, hfont]), glyphBytes_mask_true]
    refine finish_mask ?_ _
    exact ite_maskFlow (fun _ => rfl) fun _ => glyphRows_mask s _ _ _

/-- A shape reads no register but FG, in its Plot calls (files 42 to 44). -/
theorem exec_shape_mask {i : Instr} (hi : drawsForeground i = true) : exec i (mask keep s) = maskOutcome keep (exec i s) := by
  rw [exec_plots i _ hi, exec_plots i _ hi]
  exact finish_mask (forEach_mask (fun q a => plot_mask a q.1 q.2 .fg) _ s) _

/-- A command but SETFONT commutes with the mask, when the mask keeps a font that has been set. -/
theorem exec_mask (hkeep : s.fontV = true → keep = true) (i : Instr) (hi : setsFont i = false) :
    exec i (mask keep s) = maskOutcome keep (exec i s) := by
  cases i with
  | endRun => rfl
  | setfg c => exact finish_mask (checked_mask s (fun _ => rfl) c) 1
  | setbg c => exact finish_mask (checked_mask s (fun _ => rfl) c) 1
  | setfgrgb r g b => rfl
  | setbgrgb r g b => rfl
  | setfont w h base => cases hi
  | fromrgb r g b => rfl
  | torgb c => exact finish_mask (checked_mask s (fun _ => rfl) c) 1
  | setpixel p c => exact finish_mask (checked_mask s (fun a => pixWrite_mask a _ _ _) c) 2
  | getpixel p => exact finish_mask (needRead_mask s (emitPixel_mask s _ _) _) 2
  | fill c => exact finish_mask (checked_mask s (fun a => fillAll_mask a c) c) 1
  | glyph p d => exact exec_glyph_mask s hkeep p d
  | stringL p d => exact finish_mask (drawString_mask s hkeep .left p d) _
  | stringC p d => exact finish_mask (drawString_mask s hkeep .center p d) _
  | stringR p d => exact finish_mask (drawString_mask s hkeep .right p d) _
  | blitDn p w h l => exact finish_mask (blit_mask s .dn p w h l) _
  | blitUp p w h l => exact finish_mask (blit_mask s .up p w h l) _
  | readbackDn p w h => exact finish_mask (needRead_mask s (readback_mask s .dn p w h) _) 3
  | readbackUp p w h => exact finish_mask (needRead_mask s (readback_mask s .up p w h) _) 3
  | _ => exact exec_shape_mask s rfl

/-- SETFONT writes the font registers and FONT_V together (R118). -/
theorem exec_setfont_visible (w h : Half) (base : Word) :
    exec (.setfont w h base) (visible s) = visibleOutcome (exec (.setfont w h base) s) := by
  simp only [exec, execSetfont]
  split <;> rfl

/-- A command from the visible part of a state leaves the visible part of what it leaves from the state. -/
theorem exec_visible (i : Instr) : exec i (visible s) = visibleOutcome (exec i s) := by
  cases hi : setsFont i with
  | true =>
    cases i <;> simp only [setsFont, Bool.false_eq_true] at hi
    case setfont w h base => exact exec_setfont_visible s w h base
  | false =>
    obtain ⟨t, ht⟩ := exec_answers i s
    obtain ⟨_, _, hfont, _⟩ := drawStateChangesOnlyBySetters i s t ht
    obtain ⟨_, _, _, hfontV⟩ := hfont hi
    rw [visible_eq_mask, exec_mask s id i hi, ht, maskOutcome, visibleOutcome, visible_eq_mask, hfontV]

/-- A step from the visible part of a state leaves the visible part of what it leaves from the state. -/
theorem step_visible : step (visible s) = visibleOutcome (step s) := by
  have hstate : (visible s).runState = s.runState := rfl
  have hcfg : (visible s).cfg = s.cfg := rfl
  have hfetch : fetch (visible s) = fetch s := rfl
  simp only [step, hstate, hcfg, hfetch]
  split
  · rfl
  · rfl
  · split
    · rfl
    · split
      · exact exec_visible s _
      · rename_i r _
        cases r <;> rfl

end

/-- Settles O21: the visible outcome of a step is the step of the visible part. -/
theorem unsetValuesAreNeverRead : Obligations.UnsetValuesAreNeverRead := fun s s' h =>
  calc
    visibleOutcome (step s) = step (visible s) := (step_visible s).symm
    _ = step (visible s') := congrArg step h
    _ = visibleOutcome (step s') := step_visible s'

end Sys2Proof.Machine
end
